-- ==== Sys2Proof/Word.lean ====
section
/-! DEFINITION. The word types of VKG-DE (spec/00_scope.md R6, R7). -/

namespace Sys2Proof

/-- A byte is 8 bits (spec/00_scope.md R6). -/
abbrev Byte := BitVec 8

/-- A command is one 64-bit word (spec/30_encoding.md R60). -/
abbrev Command := BitVec 64

end Sys2Proof
end

