-- ==== Sys2Proof/Config.lean ====
section
/-! DEFINITION. The configuration record of spec/00_scope.md R5: what an implementation fixes for the life of the
engine. It is not state and is not reset (spec/70_reset_and_hazards.md R260). Every operation that reads a parameter
takes the record, so a statement can be made for every configuration; `exec` runs under `Machine.engine`
(Machine/Ops.lean), the record of the defaults (notes/assumptions/6.md). -/

namespace Sys2Proof

/-- `BF_CHUNK_ORIGIN` (spec/00_scope.md R5, spec/40_bitfield.md R83, R90). -/
inductive ChunkOrigin where
  /-- Chunks count from the most significant end of the 32-bit word. -/
  | word
  /-- Chunks count from the most significant end of the loaded bytes. -/
  | source
  deriving DecidableEq, Repr

/-- `TL_STOP` (spec/00_scope.md R5, spec/43_timeline_merger.md R158). -/
inductive TlStop where
  /-- The merger ends when all streams are exhausted. -/
  | all
  /-- The merger ends when the first stream is exhausted. -/
  | first
  deriving DecidableEq, Repr

/-- `FACE_LEGAL`, the closed set of legal button-state bytes. The spec leaves it OPEN (spec/00_scope.md R5,
spec/92_eei_decisions.md D19, spec/93_implementation_defined.md U2): a constant without a body, so that no proof can
see which bytes are legal (notes/assumptions/6.md; DESIGN CHOICE, safe). -/
opaque Config.openFaceLegal : Byte → Bool

/-- The parameters of spec/00_scope.md R5, each with the default of its table. -/
structure Config where
  /-- `IN_MAX`: capacity of IN in bytes. -/
  inMax : Nat := 2 ^ 32 - 1
  /-- `OUT_MAX`: capacity of OUT in bytes. -/
  outMax : Nat := 2 ^ 32 - 1
  /-- `BF_CHUNK_ORIGIN`. -/
  chunkOrigin : ChunkOrigin := .word
  /-- `LZ_MAGIC`: the compression tag, "Yaz1". -/
  lzMagic : Vector Byte 4 := #v[0x59, 0x61, 0x7A, 0x31]
  /-- `LZ_RESERVED_LEN`: bytes skipped after the size field. -/
  lzReservedLen : Nat := 16
  /-- `LZ_LEN_EXT_BIAS`: added to the extension byte of a long back-reference (notes/assumptions/15.md for a sum that
  does not fit `LZ_CNT`). -/
  lzLenExtBias : Nat := 0x12
  /-- `LZ_LEN_BIAS`: added to a non-zero length nibble (notes/assumptions/15.md likewise). -/
  lzLenBias : Nat := 2
  /-- `FACE_LEGAL`: OPEN. -/
  faceLegal : Byte → Bool := Config.openFaceLegal
  /-- `FACE_NEUTRAL`: face state of an exhausted face stream. -/
  faceNeutral : Byte := 0
  /-- `STICK_BIAS`: subtracted from each stick nibble. The spec's coordinates are 4 bits; a bias that does not keep them
  there is notes/assumptions/15.md. -/
  stickBias : Nat := 7
  /-- `STICK_X_HIGH`: X is the high nibble. -/
  stickXHigh : Bool := true
  /-- `DPAD_EXT_FIELD`, 4 bits of byte 0, by the position of its least significant bit (default [7:4]). -/
  dpadExtLo : Nat := 4
  /-- `DPAD_DIR_FIELD`, 3 bits of byte 0, by the position of its least significant bit (default [2:0]). -/
  dpadDirLo : Nat := 0
  /-- `DPAD_LEGAL`: legal direction codes, all by default. -/
  dpadLegal : BitVec 3 → Bool := fun _ => true
  /-- `DPAD_NEUTRAL`: dpad state of an exhausted dpad stream. -/
  dpadNeutral : BitVec 3 := 0
  /-- `TL_STOP`. -/
  tlStop : TlStop := .all
  /-- `TC_SCALE`: multiplier applied to the binary32 correction. -/
  tcScale : Nat := 10 ^ 9
  /-- `TC_MS_UNITS`: remainder units per display millisecond. -/
  tcMsUnits : Nat := 10 ^ 9
  /-- `TC_SEC_UNITS`: remainder units per second, 1000 times `TC_MS_UNITS` unless set. -/
  tcSecUnits : Nat := 1000 * tcMsUnits
  /-- `TC_WRAP`: the carry boundary of the per-lap logic. -/
  tcWrap : Nat := 10 ^ 9
  /-- `TC_TRIGGER_INCLUSIVE`: the carry triggers on `>=` instead of `>`. -/
  tcTriggerInclusive : Bool := false

/-- `LZ_BODY_OFFSET = 8 + LZ_RESERVED_LEN`: where the token stream starts (spec/00_scope.md R5). -/
def Config.lzBodyOffset (c : Config) : Nat := 8 + c.lzReservedLen

end Sys2Proof
end

