-- ==== Sys2Proof/Syntax.lean ====
section
/-! DEFINITION. The instructions of VKG-DE: one constructor per row of spec/opcode_table.json. Sixteen are commands
the host issues (spec/30_encoding.md R62); three are tokens `LZ.RUN` meets in the compressed stream (R65); three are
records `ES.DECODE` meets in the event region (R68). -/

namespace Sys2Proof

/-- The space select `s` of formats ML and MS (spec/30_encoding.md R61): 0 is IN, 1 is OUT. -/
inductive Sp where
  | input
  | output
  deriving DecidableEq, Repr

/-- The three event streams, in the order of the region (spec/30_encoding.md R67). -/
inductive Stream where
  | face
  | stick
  | dpad
  deriving DecidableEq, Repr

/-- An instruction: a command, a token or a record. -/
inductive Instr where
  /-- `SYS.NOP` (spec/45_system_commands.md R190). -/
  | sysNop
  /-- `SYS.RESET` (spec/45_system_commands.md R191). -/
  | sysReset
  /-- `BF.LOAD n, SPACE+addr` (spec/40_bitfield.md R81). -/
  | bfLoad (s : Sp) (n : BitVec 3) (addr : BitVec 32)
  /-- `BF.BIT idx` (spec/40_bitfield.md R82). -/
  | bfBit (idx : BitVec 32)
  /-- `BF.BYTE idx` (spec/40_bitfield.md R83). -/
  | bfByte (idx : BitVec 32)
  /-- `BF.WORD idx` (spec/40_bitfield.md R84). -/
  | bfWord (idx : BitVec 32)
  /-- `BF.SHL d` (spec/40_bitfield.md R85). -/
  | bfShl (d : BitVec 32)
  /-- `BF.SHR d` (spec/40_bitfield.md R86). -/
  | bfShr (d : BitVec 32)
  /-- `BF.FIELD lo, wid` (spec/40_bitfield.md R87). -/
  | bfField (lo wid : BitVec 8)
  /-- `LZ.RUN IN+addr, len` (spec/41_lz_decompressor.md R101). -/
  | lzRun (addr : BitVec 32) (len : BitVec 23)
  /-- `ES.DECODE SPACE+addr, len` (spec/42_event_streams.md R131). -/
  | esDecode (s : Sp) (addr : BitVec 32) (len : BitVec 23)
  /-- `TL.RESTART` (spec/43_timeline_merger.md R151). -/
  | tlRestart
  /-- `TL.NEXT` (spec/43_timeline_merger.md R152). -/
  | tlNext
  /-- `TC.CLR` (spec/44_time_correction.md R174). -/
  | tcClr
  /-- `TC.FIN mm:ss.mmm, fbits` (spec/44_time_correction.md R175). -/
  | tcFin (min sec : BitVec 7) (ms : BitVec 10) (fbits : BitVec 32)
  /-- `TC.LAP mm:ss.mmm, fbits` (spec/44_time_correction.md R176). -/
  | tcLap (min sec : BitVec 7) (ms : BitVec 10) (fbits : BitVec 32)
  /-- `LZ.LIT`, the literal byte `v` (spec/41_lz_decompressor.md R107). -/
  | lzLit (v : Byte)
  /-- `LZ.REF`, length nibble `n` (not 0), distance field `d` (spec/41_lz_decompressor.md R108). -/
  | lzRef (n : BitVec 4) (d : BitVec 12)
  /-- `LZ.REFX`, distance field `d`, extension byte `l` (spec/41_lz_decompressor.md R109). -/
  | lzRefx (d : BitVec 12) (l : Byte)
  /-- `EV.FACE`, button-state byte `s`, duration `t` (spec/42_event_streams.md R134). -/
  | evFace (s t : Byte)
  /-- `EV.STICK`, high nibble `x`, low nibble `y`, duration `t` (spec/42_event_streams.md R136). -/
  | evStick (x y : BitVec 4) (t : Byte)
  /-- `EV.DPAD`, duration extension `e`, ignored bit `i`, direction `d`, duration `t`
  (spec/42_event_streams.md R138). -/
  | evDpad (e : BitVec 4) (i : BitVec 1) (d : BitVec 3) (t : Byte)
  deriving DecidableEq, Repr

/-- The mnemonic of an instruction, as spec/opcode_table.json spells it. -/
def Instr.mnemonic : Instr → String
  | .sysNop => "SYS.NOP"
  | .sysReset => "SYS.RESET"
  | .bfLoad _ _ _ => "BF.LOAD"
  | .bfBit _ => "BF.BIT"
  | .bfByte _ => "BF.BYTE"
  | .bfWord _ => "BF.WORD"
  | .bfShl _ => "BF.SHL"
  | .bfShr _ => "BF.SHR"
  | .bfField _ _ => "BF.FIELD"
  | .lzRun _ _ => "LZ.RUN"
  | .esDecode _ _ _ => "ES.DECODE"
  | .tlRestart => "TL.RESTART"
  | .tlNext => "TL.NEXT"
  | .tcClr => "TC.CLR"
  | .tcFin _ _ _ _ => "TC.FIN"
  | .tcLap _ _ _ _ => "TC.LAP"
  | .lzLit _ => "LZ.LIT"
  | .lzRef _ _ => "LZ.REF"
  | .lzRefx _ _ => "LZ.REFX"
  | .evFace _ _ => "EV.FACE"
  | .evStick _ _ _ => "EV.STICK"
  | .evDpad _ _ _ _ => "EV.DPAD"

/-- The three kinds of encoded thing (spec/30_encoding.md, its opening paragraph): what a row of the opcode table
encodes. -/
inductive Kind where
  | command
  | token
  | record
  deriving DecidableEq, Repr

/-- The kind of an instruction (the `format` of its row: a command format, `token` or `record`). -/
def Instr.kind : Instr → Kind
  | .lzLit _ | .lzRef _ _ | .lzRefx _ _ => .token
  | .evFace _ _ | .evStick _ _ _ | .evDpad _ _ _ _ => .record
  | .sysNop | .sysReset | .bfLoad _ _ _ | .bfBit _ | .bfByte _ | .bfWord _ | .bfShl _ | .bfShr _ | .bfField _ _
  | .lzRun _ _ | .esDecode _ _ _ | .tlRestart | .tlNext | .tcClr | .tcFin _ _ _ _ | .tcLap _ _ _ _ => .command

end Sys2Proof
end

