-- ==== Sys2Proof/WellFormed.lean ====
section
/-! DEFINITION. The value constraints the field widths of `Instr` cannot express. -/

namespace Sys2Proof

/-- `BF.LOAD` takes 1 to 4 bytes (spec/30_encoding.md R63 step 3, R66); the length nibble of `LZ.REF` is not 0, since
`nnnn = 0000` selects `LZ.REFX` (spec/30_encoding.md R65). Every other operand may hold any value of its width. -/
def Instr.wellFormed : Instr → Bool
  | .bfLoad _ n _ => 1 ≤ n.toNat && n.toNat ≤ 4
  | .lzRef n _ => n ≠ 0
  | .sysNop | .sysReset | .bfBit _ | .bfByte _ | .bfWord _ | .bfShl _ | .bfShr _ | .bfField _ _ | .lzRun _ _
  | .esDecode _ _ _ | .tlRestart | .tlNext | .tcClr | .tcFin _ _ _ _ | .tcLap _ _ _ _ | .lzLit _ | .lzRefx _ _
  | .evFace _ _ | .evStick _ _ _ | .evDpad _ _ _ _ => true

end Sys2Proof
end

