-- ==== Sys2Proof/Decode.lean ====
section
/-! DEFINITION. Decoding and encoding of commands, tokens and records (spec/30_encoding.md). -/

namespace Sys2Proof

/-- Why an encoding is refused. The first four are the illegal commands of spec/30_encoding.md R63, R66: the engine
answers each with `E_ILLEGAL`. -/
inductive DecodeError where
  /-- `OP` is not in the opcode map (R62). -/
  | reservedOpcode
  /-- A must-be-zero field of the format is not zero (R61). -/
  | mustBeZero
  /-- `BF.LOAD` with `n` outside 1 to 4 (R63 step 3). -/
  | byteCount
  /-- `LZ.RUN` with `s = 1` (R63 step 3). -/
  | spaceSelect
  /-- The stream ends inside a token (R65). -/
  | shortToken
  deriving DecidableEq, Repr

/-- What the engine decodes: a command word; a control bit with the bytes that follow in the compressed stream; a
record with the stream it stands in (spec/30_encoding.md, opening paragraph). -/
inductive Encoded where
  | command (cmd : Command)
  | token (c : Bool) (bytes : List Byte)
  | record (stream : Stream) (b0 b1 : Byte)
  deriving DecidableEq, Repr

/-! ## Fields of a command word (spec/30_encoding.md R60, R61) -/

/-- `OP = cmd[63:56]`. -/
def opField (cmd : Command) : BitVec 8 := cmd.extractLsb' 56 8

/-- `A = cmd[55:32]`. -/
def aField (cmd : Command) : BitVec 24 := cmd.extractLsb' 32 24

/-- `B = cmd[31:0]`. -/
def bField (cmd : Command) : BitVec 32 := cmd.extractLsb' 0 32

/-- `cmd[63:32]`, the opcode and `A`: the `EINFO` of an illegal command (spec/30_encoding.md R66). -/
def highHalf (cmd : Command) : BitVec 32 := cmd.extractLsb' 32 32

/-- The space select bit `A[23]`: 0 for IN, 1 for OUT (R61). -/
def spaceOf (s : BitVec 1) : Sp := if s = 1#1 then .output else .input

/-! ## Decoding a command (spec/30_encoding.md R63) -/

/-- Format Z: `A` and `B` must be zero. -/
def decodeZ (a : BitVec 24) (b : BitVec 32) (i : Instr) : Except DecodeError Instr :=
  if a = 0 ∧ b = 0 then .ok i else .error .mustBeZero

/-- Format I: `A` must be zero, `B` is the index or distance. -/
def decodeI (a : BitVec 24) (b : BitVec 32) (f : BitVec 32 → Instr) : Except DecodeError Instr :=
  if a = 0 then .ok (f b) else .error .mustBeZero

/-- Format F: `lo = A[7:0]`, `wid = A[15:8]`, the rest zero. -/
def decodeF (a : BitVec 24) (b : BitVec 32) : Except DecodeError Instr :=
  if a.extractLsb' 16 8 = 0 ∧ b = 0 then .ok (.bfField (a.extractLsb' 0 8) (a.extractLsb' 8 8))
  else .error .mustBeZero

/-- Format ML: `s = A[23]`, `n = A[2:0]` in 1 to 4, the rest of `A` zero. -/
def decodeML (a : BitVec 24) (b : BitVec 32) : Except DecodeError Instr :=
  let n := a.extractLsb' 0 3
  if a.extractLsb' 3 20 ≠ 0 then .error .mustBeZero
  else if 1 ≤ n.toNat ∧ n.toNat ≤ 4 then .ok (.bfLoad (spaceOf (a.extractLsb' 23 1)) n b)
  else .error .byteCount

/-- Format MS for `LZ.RUN`: `s = A[23]` must be 0, `len = A[22:0]`. -/
def decodeRun (a : BitVec 24) (b : BitVec 32) : Except DecodeError Instr :=
  if a.extractLsb' 23 1 = 0 then .ok (.lzRun b (a.extractLsb' 0 23)) else .error .spaceSelect

/-- Format MS for `ES.DECODE`: `s = A[23]`, `len = A[22:0]`. -/
def decodeRegion (a : BitVec 24) (b : BitVec 32) : Except DecodeError Instr :=
  .ok (.esDecode (spaceOf (a.extractLsb' 23 1)) b (a.extractLsb' 0 23))

/-- Format T: `min = A[23:17]`, `sec = A[16:10]`, `ms = A[9:0]`, `fbits = B`. -/
def decodeT (a : BitVec 24) (b : BitVec 32) (f : BitVec 7 → BitVec 7 → BitVec 10 → BitVec 32 → Instr) :
    Except DecodeError Instr :=
  .ok (f (a.extractLsb' 17 7) (a.extractLsb' 10 7) (a.extractLsb' 0 10) b)

/-- The opcode map (spec/30_encoding.md R62); every opcode not in it is reserved (R66). -/
def decodeCommand (cmd : Command) : Except DecodeError Instr :=
  let a := aField cmd
  let b := bField cmd
  match (opField cmd).toNat with
  | 0x00 => decodeZ a b .sysNop
  | 0x01 => decodeZ a b .sysReset
  | 0x10 => decodeML a b
  | 0x11 => decodeI a b .bfBit
  | 0x12 => decodeI a b .bfByte
  | 0x13 => decodeI a b .bfWord
  | 0x14 => decodeI a b .bfShl
  | 0x15 => decodeI a b .bfShr
  | 0x16 => decodeF a b
  | 0x20 => decodeRun a b
  | 0x30 => decodeRegion a b
  | 0x31 => decodeZ a b .tlRestart
  | 0x32 => decodeZ a b .tlNext
  | 0x40 => decodeZ a b .tcClr
  | 0x41 => decodeT a b .tcFin
  | 0x42 => decodeT a b .tcLap
  | _ => .error .reservedOpcode

/-! ## Decoding a token and a record (spec/30_encoding.md R65, R68) -/

/-- The token a control bit and three stream bytes select: `c = 1` is a literal; `c = 0` is a back-reference, long when
the top nibble of its first byte is zero (R65). A byte the token does not have is not looked at. -/
def tokenOf (c : Bool) (b1 b2 b3 : Byte) : Instr :=
  if c then .lzLit b1
  else if b1.extractLsb' 4 4 = 0 then .lzRefx (b1.extractLsb' 0 4 ++ b2) b3
  else .lzRef (b1.extractLsb' 4 4) (b1.extractLsb' 0 4 ++ b2)

/-- How many bytes the token takes (R65): told by the control bit and the first byte's top nibble. -/
def tokenLength (c : Bool) (b1 : Byte) : Nat :=
  if c then 1 else if b1.extractLsb' 4 4 = 0 then 3 else 2

/-- Decode one token from the bytes of the stream; the bytes after it are handed back. -/
def decodeToken (c : Bool) (bytes : List Byte) : Except DecodeError (Instr × List Byte) :=
  match bytes with
  | [] => .error .shortToken
  | b1 :: rest =>
    if (b1 :: rest).length < tokenLength c b1 then .error .shortToken
    else .ok (tokenOf c b1 (rest.getD 0 0) (rest.getD 1 0), (b1 :: rest).drop (tokenLength c b1))

/-- Decode a record of a stream (R68); every pair of bytes is a record, legal or not. -/
def decodeRecord (stream : Stream) (b0 b1 : Byte) : Instr :=
  match stream with
  | .face => .evFace b0 b1
  | .stick => .evStick (b0.extractLsb' 4 4) (b0.extractLsb' 0 4) b1
  | .dpad => .evDpad (b0.extractLsb' 4 4) (b0.extractLsb' 3 1) (b0.extractLsb' 0 3) b1

/-- The decoder, total on anything encoded, refusing by name. -/
def decode : Encoded → Except DecodeError Instr
  | .command cmd => decodeCommand cmd
  | .token c bytes => (decodeToken c bytes).map Prod.fst
  | .record stream b0 b1 => .ok (decodeRecord stream b0 b1)

/-! ## Encoding (spec/30_encoding.md R61, R62, R65, R68, R69) -/

/-- The space select bit of a space. -/
def spaceBit : Sp → BitVec 1
  | .input => 0#1
  | .output => 1#1

/-- A command word from its three fields (R60). -/
def command (op : BitVec 8) (a : BitVec 24) (b : BitVec 32) : Command := op ++ a ++ b

/-- The operand `A` of format T, the 24-bit display time (R61). -/
def displayTime (min sec : BitVec 7) (ms : BitVec 10) : BitVec 24 := min ++ sec ++ ms

/-- The encoding of an instruction. -/
def encode : Instr → Encoded
  | .sysNop => .command (command 0x00 0 0)
  | .sysReset => .command (command 0x01 0 0)
  | .bfLoad s n addr => .command (command 0x10 (spaceBit s ++ 0#20 ++ n) addr)
  | .bfBit idx => .command (command 0x11 0 idx)
  | .bfByte idx => .command (command 0x12 0 idx)
  | .bfWord idx => .command (command 0x13 0 idx)
  | .bfShl d => .command (command 0x14 0 d)
  | .bfShr d => .command (command 0x15 0 d)
  | .bfField lo wid => .command (command 0x16 (0#8 ++ wid ++ lo) 0)
  | .lzRun addr len => .command (command 0x20 (0#1 ++ len) addr)
  | .esDecode s addr len => .command (command 0x30 (spaceBit s ++ len) addr)
  | .tlRestart => .command (command 0x31 0 0)
  | .tlNext => .command (command 0x32 0 0)
  | .tcClr => .command (command 0x40 0 0)
  | .tcFin min sec ms fbits => .command (command 0x41 (displayTime min sec ms) fbits)
  | .tcLap min sec ms fbits => .command (command 0x42 (displayTime min sec ms) fbits)
  | .lzLit v => .token true [v]
  | .lzRef n d => .token false [n ++ d.extractLsb' 8 4, d.extractLsb' 0 8]
  | .lzRefx d l => .token false [0#4 ++ d.extractLsb' 8 4, d.extractLsb' 0 8, l]
  | .evFace s t => .record .face s t
  | .evStick x y t => .record .stick (x ++ y) t
  | .evDpad e i d t => .record .dpad (e ++ i ++ d) t

/-- A command written as bytes, big-endian, `cmd[63:56]` first (R60). -/
def commandBytes (cmd : Command) : List Byte :=
  [cmd.extractLsb' 56 8, cmd.extractLsb' 48 8, cmd.extractLsb' 40 8, cmd.extractLsb' 32 8,
   cmd.extractLsb' 24 8, cmd.extractLsb' 16 8, cmd.extractLsb' 8 8, cmd.extractLsb' 0 8]

/-! ## Pseudo-commands (spec/30_encoding.md R69): sequences the host issues -/

/-- `BF.MASK wid`. -/
def pseudoMask (wid : BitVec 8) : List Instr := [.bfField 0 wid]

/-- `BF.GET n, SPACE+addr, lo, wid`. -/
def pseudoGet (n : BitVec 3) (s : Sp) (addr : BitVec 32) (lo wid : BitVec 8) : List Instr :=
  [.bfLoad s n addr, .bfField lo wid]

/-- `TL.ALL` with `n` repetitions of `TL.NEXT`: how many there are the host finds as it goes (`tlAll`,
Machine/Pseudo.lean). -/
def pseudoAll (n : Nat) : List Instr := .tlRestart :: List.replicate n .tlNext

/-! ## The host's numbering of the opcode table -/

/-- The low `n` bytes of a number, most significant first: the order in which the engine meets them
(spec/20_memory.md R40). -/
def bytesOf : Nat → Nat → List Byte
  | 0, _ => []
  | n + 1, w => BitVec.ofNat 8 (w / 2 ^ (8 * n)) :: bytesOf n w

/-- A token row read as one number: the control bit stands just above its `n` bytes. -/
def decodeTokenRow (n w : Nat) : Option Instr :=
  if 2 ≤ w / 2 ^ (8 * n) then none
  else
    match decodeToken (w / 2 ^ (8 * n) == 1) (bytesOf n w) with
    | .ok (i, []) => some i
    | _ => none

/-- The instruction the decoder reads from `nbits` bits of a row of spec/opcode_table.json. 64 bits are a command. The
pattern of a token or record row is read as one number, so a token of `n` bytes is `n + 1` bytes here with its control
bit in the extra one. 16 bits that are no literal are a record; nothing in a record tells its stream (R67), so the
first stream of the region is taken (notes/assumptions/8.md, DESIGN CHOICE). -/
def decodeTableWord (nbits w : Nat) : Option Instr :=
  if 2 ^ nbits ≤ w then none
  else
    match nbits with
    | 64 => (decodeCommand (BitVec.ofNat 64 w)).toOption
    | 32 => decodeTokenRow 3 w
    | 24 => decodeTokenRow 2 w
    | 16 => (decodeTokenRow 1 w).or (some (decodeRecord .face (BitVec.ofNat 8 (w / 256)) (BitVec.ofNat 8 w)))
    | _ => none

end Sys2Proof
end

