-- ==== Sys2Proof/Machine/State.lean ====
section
/-! DEFINITION. The state of VKG-DE (spec/10_state.md), grouped by unit, and the state after hardware reset
(spec/70_reset_and_hazards.md R260). Registers with a stated width are bit vectors of that width. -/

namespace Sys2Proof.Machine

/-! ## Byte spaces (spec/10_state.md R18, R24) -/

/-- One byte space: `len` bytes at offsets 0 to `len - 1`. A byte of value zero is not listed, so equal contents are
equal data (`Space.wf`, Machine/Ops.lean). -/
structure Space where
  /-- The non-zero bytes, by strictly rising offset. -/
  cells : List Host.Cell := []
  /-- The length of the space: `IN_LEN`, `OUT_LEN`. -/
  len : Nat := 0
  deriving DecidableEq, Repr

/-! ## BFX (spec/10_state.md R14, R15) -/

/-- The registers of the bit-field extractor. -/
structure Bfx where
  /-- `W`, the BitWord. -/
  w : BitVec 32 := 0
  /-- `WN`, the number of bytes the last `BF.LOAD` took. -/
  wn : BitVec 3 := 0
  /-- `RES`, the result of the last BFX read command. -/
  res : BitVec 32 := 0
  deriving DecidableEq, Repr

/-! ## LZD (spec/10_state.md R17, R18) -/

/-- `LZ_ST`. `HDR`, `RUN`, `COPY` exist only inside `LZ.RUN` (R17). -/
inductive LzSt where
  | idle
  | hdr
  | run
  | copy
  | done
  | fail
  deriving DecidableEq, Repr

/-- The registers of the decompressor and its output buffer. -/
structure Lzd where
  /-- `LZ_ST`. -/
  st : LzSt := .idle
  /-- `LZ_BASE`, the first offset of the input slice. -/
  base : BitVec 32 := 0
  /-- `LZ_END`, the offset just past the input slice. -/
  stop : BitVec 33 := 0
  /-- `LZ_SRC`, the read cursor. -/
  src : BitVec 33 := 0
  /-- `LZ_DECL`, the declared uncompressed size. -/
  decl : BitVec 32 := 0
  /-- `LZ_CTL`, the control bits not yet used, next bit at bit 7. -/
  ctl : BitVec 8 := 0
  /-- `LZ_NBITS`, the number of control bits left. -/
  nbits : BitVec 4 := 0
  /-- `LZ_DIST`, the distance field of the back-reference. -/
  dist : BitVec 12 := 0
  /-- `LZ_CNT`, the number of bytes the copy still has to write. -/
  cnt : BitVec 9 := 0
  /-- `OUT` and `OUT_LEN`. -/
  out : Space := {}
  /-- `OUT_VALID`. -/
  outValid : Bool := false
  deriving DecidableEq, Repr

/-! ## ESM, the event-stream decoder (spec/10_state.md R19, R20) -/

/-- An entry of FACE. -/
structure FaceEvent where
  st : Byte := 0
  dur : BitVec 32 := 0
  deriving DecidableEq, Repr

/-- An entry of STICK; `x` and `y` are signed. -/
structure StickEvent where
  x : BitVec 4 := 0
  y : BitVec 4 := 0
  dur : BitVec 32 := 0
  deriving DecidableEq, Repr

/-- An entry of DPAD. -/
structure DpadEvent where
  dir : BitVec 3 := 0
  dur : BitVec 32 := 0
  deriving DecidableEq, Repr

/-- The locals of `ES.DECODE` (spec/42_event_streams.md R132). No register of the spec: all zero between commands
(spec/10_state.md R26); they stand here so that a record has a meaning of its own (notes/assumptions/4.md). -/
structure Walk where
  /-- A decode is in progress. -/
  busy : Bool := false
  /-- The space of the region. -/
  sp : Sp := .input
  /-- The offset of the region's first byte. -/
  addr : BitVec 32 := 0
  /-- The length of the region. -/
  len : BitVec 23 := 0
  /-- `p`, the offset into the region. -/
  p : Nat := 0
  deriving DecidableEq, Repr

/-- The registers and arrays of the event-stream decoder. `NF`, `NS`, `ND` are the lengths of the arrays. -/
structure Esm where
  /-- `CNT_F`. -/
  cntF : BitVec 16 := 0
  /-- `CNT_S`. -/
  cntS : BitVec 16 := 0
  /-- `CNT_D`. -/
  cntD : BitVec 16 := 0
  /-- `FACE`. -/
  face : List FaceEvent := []
  /-- `STICK`. -/
  stick : List StickEvent := []
  /-- `DPAD`. -/
  dpad : List DpadEvent := []
  /-- `ES_VALID`. -/
  esValid : Bool := false
  /-- The locals of a decode in progress. -/
  walk : Walk := {}
  deriving DecidableEq, Repr

/-! ## ESM, the timeline merger (spec/10_state.md R21, R22) -/

/-- A read cursor and its consumed-frame counter: (`IF`, `CF`), (`IS`, `CS`), (`ID`, `CD`). -/
structure Cursor where
  idx : BitVec 16 := 0
  used : BitVec 32 := 0
  deriving DecidableEq, Repr

/-- The cursors and the entry registers of the merger. -/
structure Merger where
  /-- `IF`, `CF`. -/
  curF : Cursor := {}
  /-- `IS`, `CS`. -/
  curS : Cursor := {}
  /-- `ID`, `CD`. -/
  curD : Cursor := {}
  /-- `TL_FACE`. -/
  face : Byte := 0
  /-- `TL_X`, signed. -/
  x : BitVec 4 := 0
  /-- `TL_Y`, signed. -/
  y : BitVec 4 := 0
  /-- `TL_DPAD`. -/
  dpad : BitVec 3 := 0
  /-- `TL_DUR`. -/
  dur : BitVec 32 := 0
  /-- `TL_COUNT`. -/
  count : BitVec 32 := 0
  /-- `TL_TOTAL`. -/
  total : BitVec 32 := 0
  /-- `TL_VALID`. -/
  valid : Bool := false
  /-- `TL_DONE`. -/
  ended : Bool := false
  /-- `TL_NEUTRAL`. -/
  neutral : Bool := false
  deriving DecidableEq, Repr

/-! ## TCA (spec/10_state.md R23) -/

/-- The registers of the time-correction accumulator; the 64-bit ones are signed. -/
structure Tca where
  /-- `T_MIN`. -/
  tMin : BitVec 7 := 0
  /-- `T_SEC`. -/
  tSec : BitVec 7 := 0
  /-- `T_REM`. -/
  tRem : BitVec 64 := 0
  /-- `T_DELTA`. -/
  tDelta : BitVec 64 := 0
  /-- `ACC`. -/
  acc : BitVec 64 := 0
  /-- `CY`. -/
  cy : Bool := false
  /-- `TC_RANGE_REM`. -/
  rangeRem : Bool := false
  /-- `TC_RANGE_DELTA`. -/
  rangeDelta : Bool := false
  deriving DecidableEq, Repr

/-! ## Error registers (spec/60_exceptions.md R230 to R232) -/

/-- The error and result registers every unit shares. -/
structure Report where
  /-- `ERR`. -/
  err : BitVec 8 := 0
  /-- `EINFO`. -/
  einfo : BitVec 32 := 0
  /-- `STICKY`. -/
  sticky : BitVec 16 := 0
  deriving DecidableEq, Repr

/-! ## The host's side of the ports (spec/10_state.md R25) -/

/-- What the host can do between commands (R25). -/
inductive HostAction where
  /-- `HostLoadIN(bytes)`. -/
  | loadIN (bytes : List Byte)
  /-- `HostIssue(cmd)`. -/
  | issue (cmd : Command)
  /-- `HostReadCSR(no)`. -/
  | readCSR (no : Nat)
  /-- `HostReadOut(a)`. -/
  | readOut (a : Nat)
  /-- `HostReadEvent(stream, k)`. -/
  | readEvent (stream : Stream) (k : Nat)
  /-- `HostReset()`. -/
  | reset
  deriving DecidableEq, Repr

/-- What a read port returns to the host. -/
inductive Answer where
  /-- No read has been made. -/
  | none
  /-- The 64 bits of a CSR read. -/
  | csr (v : BitVec 64)
  /-- A byte of OUT. -/
  | byte (v : Byte)
  /-- An entry of FACE. -/
  | face (e : FaceEvent)
  /-- An entry of STICK. -/
  | stick (e : StickEvent)
  /-- An entry of DPAD. -/
  | dpad (e : DpadEvent)
  deriving DecidableEq, Repr

/-- The host's side: no state of the engine (notes/assumptions/1.md, notes/assumptions/3.md). -/
structure HostPort where
  /-- The actions the host has not yet taken, first one first. -/
  pending : List HostAction := []
  /-- What the last read returned. -/
  answer : Answer := .none
  deriving DecidableEq, Repr

/-! ## The state -/

/-- The state of the engine, with the host's side of its ports. -/
structure State where
  /-- `IN` and `IN_LEN`. -/
  inp : Space := {}
  bfx : Bfx := {}
  lzd : Lzd := {}
  esm : Esm := {}
  tl : Merger := {}
  tca : Tca := {}
  rep : Report := {}
  host : HostPort := {}
  deriving DecidableEq, Repr

/-- Why the machine stops. The engine itself never stops: an error is a next state (spec/60_exceptions.md R240). -/
inductive Fault where
  /-- Raised by a step that takes `HostLoadIN` of more than `IN_MAX` bytes, which the host must not do
  (spec/10_state.md R25, spec/70_reset_and_hazards.md R266); the spec gives it no effect. Safe. -/
  | loadBeyondInMax
  deriving DecidableEq, Repr

/-- Why an instruction has no meaning. -/
inductive Refusal where
  /-- Raised by an arm of `exec` whose instruction has no meaning yet; no arm raises it. Safe. -/
  | notModelled (mnemonic : String)
  deriving DecidableEq, Repr

/-- The state after hardware reset: zero or empty in every case (spec/70_reset_and_hazards.md R260). The host has no
action pending: a command stream comes from outside the machine (notes/assumptions/1.md). -/
def State.reset : State := {}

end Sys2Proof.Machine
end

