-- ==== Sys2Proof/Machine/Ops.lean ====
section
/-! DEFINITION. The operations every unit shares: the byte spaces (spec/20_memory.md), the raise mechanism
(spec/60_exceptions.md R230 to R232) and its counterpart, success. There is no return from an error (R240). -/

namespace Sys2Proof.Machine

/-- The configuration the engine of this model is built with: the defaults of spec/00_scope.md R5, `FACE_LEGAL` open
(notes/assumptions/6.md). -/
def engine : Config := {}

/-! ## Byte spaces -/

/-- What an offset that is not listed reads as: a byte of value 0 is not listed, and an offset at or beyond the length
reads 0 through the host's port (spec/10_state.md R25). -/
def blankByte : Byte := 0

/-- The byte listed at an offset, `blankByte` where none is. -/
def cellsRead (cells : List Host.Cell) (a : Nat) : Byte :=
  match cells with
  | [] => blankByte
  | (k, v) :: rest => if k = a then v else cellsRead rest a

/-- The list with one byte replaced; the result stays sorted and lists no `blankByte`. -/
def cellsWrite (cells : List Host.Cell) (a : Nat) (v : Byte) : List Host.Cell :=
  match cells with
  | [] => if v = blankByte then [] else [(a, v)]
  | (k, u) :: rest =>
    if k < a then (k, u) :: cellsWrite rest a v
    else if k = a then (if v = blankByte then rest else (a, v) :: rest)
    else if v = blankByte then (k, u) :: rest else (a, v) :: (k, u) :: rest

/-- The canonical form: offsets strictly rising from `lo`, each below `hi`, no `blankByte` listed. -/
def cellsWf (cells : List Host.Cell) (lo hi : Nat) : Bool :=
  match cells with
  | [] => true
  | (k, v) :: rest => lo ≤ k && k < hi && v != blankByte && cellsWf rest (k + 1) hi

/-- The canonical form of a space: what makes equal contents equal data. -/
def Space.wf (m : Space) : Bool := cellsWf m.cells 0 m.len

/-- `IN[a]`, `OUT[a]` (spec/00_scope.md R7). -/
def Space.read (m : Space) (a : Nat) : Byte := if a < m.len then cellsRead m.cells a else blankByte

/-- `MemRead(s, a, n)`: `n` bytes from offset `a`, first byte first (spec/00_scope.md R7). -/
def Space.readList (m : Space) (a : Nat) : Nat → List Byte
  | 0 => []
  | n + 1 => m.read a :: m.readList (a + 1) n

/-- `MemWrite(OUT, OUT_LEN, 1, v)` and `OUT_LEN <- OUT_LEN + 1` (spec/41_lz_decompressor.md R107, R111). -/
def Space.append (m : Space) (v : Byte) : Space := { cells := cellsWrite m.cells m.len v, len := m.len + 1 }

/-- The cells of bytes laid out from offset `a`. -/
def cellsOf (a : Nat) : List Byte → List Host.Cell
  | [] => []
  | v :: rest => if v = blankByte then cellsOf (a + 1) rest else (a, v) :: cellsOf (a + 1) rest

/-- A space that holds the given bytes from offset 0 (`HostLoadIN`, spec/10_state.md R25). -/
def Space.ofBytes (bytes : List Byte) : Space := { cells := cellsOf 0 bytes, len := bytes.length }

/-- `SP(s)` (spec/00_scope.md R7). -/
def State.space (s : State) : Sp → Space
  | .input => s.inp
  | .output => s.lzd.out

/-- One byte of a space. -/
def State.byteAt (s : State) (sp : Sp) (a : Nat) : Byte := (s.space sp).read a

/-- `BE(list)`, the big-endian value of a byte list (spec/00_scope.md R7, spec/20_memory.md R40). -/
def bigEndian (bytes : List Byte) : Nat := bytes.foldl (fun acc b => acc * 256 + b.toNat) 0

/-! ## Errors (spec/60_exceptions.md R230) -/

/-- The errors a command can raise. -/
inductive ErrCode where
  | illegal
  | bfTrunc
  | lzMagic
  | lzTrunc
  | lzBackref
  | lzLength
  | lzTooBig
  | esTrunc
  | esFace
  | esStick
  | esDpad
  | tlNoStreams
  | tcNonFinite
  | tcOverflow
  deriving DecidableEq, Repr

/-- The value `ERR` takes (R230). -/
def errCode : ErrCode → BitVec 8
  | .illegal => 0x01
  | .bfTrunc => 0x11
  | .lzMagic => 0x21
  | .lzTrunc => 0x22
  | .lzBackref => 0x23
  | .lzLength => 0x24
  | .lzTooBig => 0x25
  | .esTrunc => 0x31
  | .esFace => 0x32
  | .esStick => 0x33
  | .esDpad => 0x34
  | .tlNoStreams => 0x35
  | .tcNonFinite => 0x41
  | .tcOverflow => 0x42

/-- The bit of `STICKY` the error sets (R230, R232). -/
def stickyBit : ErrCode → Nat
  | .illegal => 0
  | .bfTrunc => 1
  | .lzMagic => 2
  | .lzTrunc => 3
  | .lzBackref => 4
  | .lzLength => 5
  | .lzTooBig => 6
  | .esTrunc => 7
  | .esFace => 8
  | .esStick => 9
  | .esDpad => 10
  | .tlNoStreams => 11
  | .tcNonFinite => 12
  | .tcOverflow => 13

/-- The error registers after `raise e(info)`: `ERR <- code(e)`, `EINFO <- trunc_32(info)`, `STICKY[bit(e)] <- 1`
(R231 steps 2 to 4). -/
def Report.raised (r : Report) (e : ErrCode) (info : Nat) : Report :=
  { err := errCode e, einfo := BitVec.ofNat 32 info, sticky := r.sticky ||| (1#16 <<< stickyBit e) }

/-- `raise e(info)` (R231). The unit's clean-up, step 1, is made by the caller before it. -/
def raise (e : ErrCode) (info : Nat) (s : State) : State := { s with rep := s.rep.raised e info }

/-- The end of a command that succeeds: `ERR <- 0x00`; `EINFO` and `STICKY` stay (R231). -/
def succeed (s : State) : State := { s with rep := { s.rep with err := 0x00 } }

/-! ## Reset (spec/70_reset_and_hazards.md R260, R261) -/

/-- `HostReset()`: every item of the engine at its reset value; the host's own side stays. -/
def hardReset (s : State) : State := { State.reset with host := s.host }

/-- `SYS.RESET`: as `HostReset()`, but IN and `IN_LEN` stay, and `ERR <- 0x00` (R191, R261). -/
def softReset (s : State) : State := succeed { State.reset with inp := s.inp, host := s.host }

end Sys2Proof.Machine
end

