-- ==== Sys2Proof/Machine/Operands.lean ====
section
/-! DEFINITION. The operand forms: chunks, fields and shifts of `W` (spec/40_bitfield.md), the fields of a record's
first byte (spec/42_event_streams.md), and the binary32 operand of the time commands (spec/44_time_correction.md). -/

namespace Sys2Proof.Machine

/-! ## The BFX word (spec/40_bitfield.md) -/

/-- `norm`, the normalised word of 1 to 4 bytes, zero-padded on the left to 32 bits (R80). -/
def normWord (bytes : List Byte) : BitVec 32 := BitVec.ofNat 32 (bigEndian bytes)

/-- `W[idx]`, 0 from index 32 on (R82). -/
def bitOf (w : BitVec 32) (idx : Nat) : BitVec 32 := if idx < 32 then (w >>> idx) &&& 1 else 0

/-- The `idx`-th byte from the most significant end of the 32-bit word, 0 from index 4 on (R83). -/
def byteOfWord (w : BitVec 32) (idx : Nat) : BitVec 32 := if idx < 4 then (w >>> (24 - 8 * idx)) &&& 0xFF else 0

/-- The `idx`-th 16-bit half from the most significant end of the 32-bit word, 0 from index 2 on (R84). -/
def halfOfWord (w : BitVec 32) (idx : Nat) : BitVec 32 :=
  if idx = 0 then w >>> 16 else if idx = 1 then w &&& 0xFFFF else 0

/-- `byte_S(idx)`: the chunk counted from the most significant of the `wn` loaded bytes (R90). -/
def byteOfSource (w : BitVec 32) (wn idx : Nat) : BitVec 32 :=
  if idx < wn then (w >>> (8 * (wn - 1 - idx))) &&& 0xFF else 0

/-- `byte(idx)` under `BF_CHUNK_ORIGIN` (R83, R90). -/
def byteChunk (c : Config) (b : Bfx) (idx : Nat) : BitVec 32 :=
  match c.chunkOrigin with
  | .word => byteOfWord b.w idx
  | .source => byteOfSource b.w b.wn.toNat idx

/-- `word(idx)` under `BF_CHUNK_ORIGIN` (R84, R90). -/
def wordChunk (c : Config) (b : Bfx) (idx : Nat) : BitVec 32 :=
  match c.chunkOrigin with
  | .word => halfOfWord b.w idx
  | .source => (byteOfSource b.w b.wn.toNat (2 * idx) <<< 8) ||| byteOfSource b.w b.wn.toNat (2 * idx + 1)

/-- `shift_left(d)`: every bit falls off from distance 32 on (R85). -/
def shiftLeft (w : BitVec 32) (d : Nat) : BitVec 32 := if d < 32 then w <<< d else 0

/-- `shift_right(d)`, logical (R86). -/
def shiftRight (w : BitVec 32) (d : Nat) : BitVec 32 := if d < 32 then w >>> d else 0

/-- The field of `wid` bits whose least significant bit is `lo`; the bits that exist, zero-extended (R87). -/
def fieldOf (w : BitVec 32) (lo wid : Nat) : BitVec 32 :=
  let v := shiftRight w lo
  if wid < 32 then BitVec.ofNat 32 (v.toNat % 2 ^ wid) else v

/-! ## Record fields (spec/42_event_streams.md R136, R138) -/

/-- The raw X nibble of a stick record (`STICK_X_HIGH`). -/
def rawX (c : Config) (b0 : Byte) : BitVec 4 := if c.stickXHigh then b0.extractLsb' 4 4 else b0.extractLsb' 0 4

/-- The raw Y nibble of a stick record. -/
def rawY (c : Config) (b0 : Byte) : BitVec 4 := if c.stickXHigh then b0.extractLsb' 0 4 else b0.extractLsb' 4 4

/-- A raw nibble minus `STICK_BIAS`, as a signed 4-bit value (R136). Every legal nibble fits under the default bias 7. A
bias under which the difference leaves -8 to 7 is allowed by spec/00_scope.md R5, and the spec says nothing of it: the
difference is then taken modulo 16 (DESIGN CHOICE, unsafe for such a bias: notes/assumptions/15.md). -/
def unbias (c : Config) (raw : BitVec 4) : BitVec 4 := BitVec.ofInt 4 ((raw.toNat : Int) - (c.stickBias : Int))

/-- The direction code of a dpad record (`DPAD_DIR_FIELD`; a field beyond the byte is notes/assumptions/15.md). -/
def dpadDir (c : Config) (b0 : Byte) : BitVec 3 := b0.extractLsb' c.dpadDirLo 3

/-- The duration of a dpad record, `ext * 256 + b1` (`DPAD_EXT_FIELD`; likewise). -/
def dpadDur (c : Config) (b0 b1 : Byte) : BitVec 32 :=
  BitVec.ofNat 32 ((b0.extractLsb' c.dpadExtLo 4).toNat * 256 + b1.toNat)

/-! ## The binary32 operand (spec/00_scope.md R7, spec/44_time_correction.md R171) -/

/-- `fbits[30:23] != 0xFF`: the pattern denotes a number. -/
def isFinite (fbits : BitVec 32) : Bool := fbits.extractLsb' 23 8 != 0xFF#8

/-- The significand: `2^23 + fraction` for a normal number, the fraction for a subnormal one. -/
def significand (fbits : BitVec 32) : Nat :=
  if fbits.extractLsb' 23 8 = 0#8 then (fbits.extractLsb' 0 23).toNat else 2 ^ 23 + (fbits.extractLsb' 0 23).toNat

/-- The biased exponent of the significand's unit: the number is `± significand * 2 ^ (scaledExp - 150)`. -/
def scaledExp (fbits : BitVec 32) : Nat := max 1 (fbits.extractLsb' 23 8).toNat

/-- `floor(fval(fbits) * scale)`, towards minus infinity, of the exact product (R171). -/
def floorScaled (fbits : BitVec 32) (scale : Nat) : Int :=
  let magnitude : Int := (significand fbits * scale : Nat)
  let signed := if fbits.extractLsb' 31 1 = 1#1 then -magnitude else magnitude
  if 150 ≤ scaledExp fbits then signed * 2 ^ (scaledExp fbits - 150) else signed / 2 ^ (150 - scaledExp fbits)

/-- The value lies in `[-2^63, 2^63 - 1]` (R173). -/
def fits64 (v : Int) : Bool := -(2 ^ 63) ≤ v && v ≤ 2 ^ 63 - 1

end Sys2Proof.Machine
end

