-- ==== Sys2Proof/Machine/Flags.lean ====
section
/-! DEFINITION. The flags: the `STATUS` view (spec/10_state.md R16) and the advisory range flags and trigger of TCA
(spec/44_time_correction.md R175, R176, R179). -/

namespace Sys2Proof.Machine

/-- The number of an `LZ_ST` state (spec/10_state.md R17). -/
def lzStBits : LzSt → BitVec 3
  | .idle => 0
  | .hdr => 1
  | .run => 2
  | .copy => 3
  | .done => 4
  | .fail => 5

/-- One flag as a bit. -/
def flagBit (b : Bool) : BitVec 1 := if b then 1#1 else 0#1

/-- `STATUS`, bit 13 down to bit 0 as the table of spec/10_state.md R16 lists them; the rest read 0. -/
def State.statusWord (s : State) : BitVec 32 :=
  0#18 ++ lzStBits s.lzd.st ++ s.bfx.wn ++ flagBit s.tca.rangeDelta ++ flagBit s.tca.rangeRem ++ flagBit s.tca.cy
    ++ flagBit s.tl.neutral ++ flagBit s.tl.ended ++ flagBit s.tl.valid ++ flagBit s.esm.esValid
    ++ flagBit s.lzd.outValid

/-- `TC_RANGE_REM`: the remainder is outside `[0, TC_SEC_UNITS)`. -/
def rangeRemFlag (c : Config) (rem : Int) : Bool := rem < 0 || (c.tcSecUnits : Int) ≤ rem

/-- `TC_RANGE_DELTA`: the accepted delta is outside `[0, TC_WRAP)`. -/
def rangeDeltaFlag (c : Config) (d : Int) : Bool := d < 0 || (c.tcWrap : Int) ≤ d

/-- The carry trigger on `d1`, strict unless `TC_TRIGGER_INCLUSIVE`. -/
def carryTrigger (c : Config) (d1 : Int) : Bool :=
  if c.tcTriggerInclusive then (c.tcWrap : Int) ≤ d1 else (c.tcWrap : Int) < d1

end Sys2Proof.Machine
end

