-- ==== Sys2Proof/Machine/Bitfield.lean ====
section
/-! DEFINITION. BFX, the bit-field extractor (spec/40_bitfield.md). -/

namespace Sys2Proof.Machine

/-- `RES <- v; ERR <- 0x00`: the end of each read command (spec/10_state.md R15). -/
def writeRes (v : BitVec 32) (s : State) : State := succeed { s with bfx := { s.bfx with res := v } }

/-- `W <- v; ERR <- 0x00`: the end of each shift (R85, R86). -/
def writeW (v : BitVec 32) (s : State) : State := succeed { s with bfx := { s.bfx with w := v } }

/-- `BF.LOAD` (R81). The byte count of a decoded command is in 1 to 4; for any other count the pseudocode raises
`E_ILLEGAL` first, with the high half of the command word. -/
def bfLoad (sp : Sp) (n : BitVec 3) (addr : BitVec 32) (s : State) : State :=
  if n.toNat < 1 ∨ 4 < n.toNat then
    raise .illegal (highHalf (command 0x10 (spaceBit sp ++ 0#20 ++ n) addr)).toNat s
  else if (s.space sp).len < addr.toNat + n.toNat then raise .bfTrunc addr.toNat s
  else
    succeed { s with bfx := { s.bfx with w := normWord ((s.space sp).readList addr.toNat n.toNat), wn := n } }

/-- `BF.LOAD n, SPACE+addr` (R81). -/
def execBfLoad (sp : Sp) (n : BitVec 3) (addr : BitVec 32) (s : State) : Host.Outcome State Fault Refusal :=
  .next (bfLoad sp n addr s)

/-- `BF.BIT idx` (R82). -/
def execBfBit (idx : BitVec 32) (s : State) : Host.Outcome State Fault Refusal :=
  .next (writeRes (bitOf s.bfx.w idx.toNat) s)

/-- `BF.BYTE idx` (R83, R90). -/
def execBfByte (idx : BitVec 32) (s : State) : Host.Outcome State Fault Refusal :=
  .next (writeRes (byteChunk engine s.bfx idx.toNat) s)

/-- `BF.WORD idx` (R84, R90). -/
def execBfWord (idx : BitVec 32) (s : State) : Host.Outcome State Fault Refusal :=
  .next (writeRes (wordChunk engine s.bfx idx.toNat) s)

/-- `BF.SHL d` (R85). -/
def execBfShl (d : BitVec 32) (s : State) : Host.Outcome State Fault Refusal :=
  .next (writeW (shiftLeft s.bfx.w d.toNat) s)

/-- `BF.SHR d` (R86). -/
def execBfShr (d : BitVec 32) (s : State) : Host.Outcome State Fault Refusal :=
  .next (writeW (shiftRight s.bfx.w d.toNat) s)

/-- `BF.FIELD lo, wid` (R87). -/
def execBfField (lo wid : BitVec 8) (s : State) : Host.Outcome State Fault Refusal :=
  .next (writeRes (fieldOf s.bfx.w lo.toNat wid.toNat) s)

end Sys2Proof.Machine
end

