-- ==== Sys2Proof/Machine/Common.lean ====
section
/-! DEFINITION. The common commands (spec/45_system_commands.md). -/

namespace Sys2Proof.Machine

/-- `SYS.NOP` (R190): `ERR <- 0x00` and nothing else. -/
def execSysNop (s : State) : Host.Outcome State Fault Refusal := .next (succeed s)

/-- `SYS.RESET` (R191). -/
def execSysReset (s : State) : Host.Outcome State Fault Refusal := .next (softReset s)

end Sys2Proof.Machine
end

