-- ==== Sys2Proof/Machine/Decompressor.lean ====
section
/-! DEFINITION. LZD, the block decompressor (spec/41_lz_decompressor.md): the state machine, the three tokens, and
`LZ.RUN`, which runs the machine to its end in one step (R114). -/

namespace Sys2Proof.Machine

/-- `LZ_USED = LZ_SRC - LZ_BASE` (spec/10_state.md R13, R17). -/
def State.lzUsed (s : State) : BitVec 33 := s.lzd.src - s.lzd.base.zeroExtend 33

/-- The failure of a run: `LZ_ST <- FAIL`, OUT empty, then the raise (R112). -/
def lzFail (e : ErrCode) (info : Nat) (s : State) : State :=
  raise e info { s with lzd := { s.lzd with st := .fail, out := {}, outValid := false } }

/-- A failure whose `EINFO` is the read cursor relative to the block (R112). -/
def lzFailHere (e : ErrCode) (s : State) : State := lzFail e s.lzUsed.toNat s

/-- The success of a run (R113). -/
def lzSucceed (s : State) : State := succeed { s with lzd := { s.lzd with st := .done, outValid := true } }

/-! ## Start and header (R102, R103) -/

/-- The writes of R102: all LZD registers are cleared and the slice is set. -/
def lzStart (addr : BitVec 32) (len : BitVec 23) (s : State) : State :=
  { s with
    lzd :=
      { st := .hdr, base := addr, stop := BitVec.ofNat 33 (addr.toNat + len.toNat), src := addr.zeroExtend 33 } }

/-- The length of the slice, `LZ_END - LZ_BASE`: the operand `len`. -/
def lzSliceLen (s : State) : Nat := s.lzd.stop.toNat - s.lzd.base.toNat

/-- The header, state `HDR` (R103): its seven steps in order. -/
def lzHeader (c : Config) (s : State) : State :=
  let len := lzSliceLen s
  let addr := s.lzd.base.toNat
  if len < 4 then lzFail .lzTrunc len s
  else if s.inp.readList addr 4 ≠ c.lzMagic.toList then lzFail .lzMagic 0 s
  else if len < 8 then lzFail .lzTrunc len s
  else
    let decl := bigEndian (s.inp.readList (addr + 4) 4)
    let s1 := { s with lzd := { s.lzd with decl := BitVec.ofNat 32 decl } }
    if len < c.lzBodyOffset then lzFail .lzTrunc len s1
    else if c.outMax < decl then lzFail .lzTooBig decl s1
    else { s1 with lzd := { s1.lzd with src := BitVec.ofNat 33 (addr + c.lzBodyOffset), st := .run } }

/-- Start and header (R102, R103): the slice must lie inside IN. -/
def lzBegin (c : Config) (addr : BitVec 32) (len : BitVec 23) (s : State) : State :=
  let s1 := lzStart addr len s
  if s.inp.len < s1.lzd.stop.toNat then lzFail .lzTrunc s.inp.len s1 else lzHeader c s1

/-! ## Copy (R110, R111) -/

/-- One byte of a copy: `v <- OUT[OUT_LEN - LZ_DIST - 1]`, written at `OUT_LEN`; `LZ_CNT` falls by one (R111 steps 2
to 4). -/
def lzCopyByte (s : State) : State :=
  let v := s.lzd.out.read (s.lzd.out.len - s.lzd.dist.toNat - 1)
  { s with lzd := { s.lzd with out := s.lzd.out.append v, cnt := s.lzd.cnt - 1 } }

/-- The copy loop, state `COPY` (R111): byte by byte, each step tested against `LZ_DECL` first. -/
def lzCopy : Nat → State → State
  | 0, s => { s with lzd := { s.lzd with st := .run } }
  | k + 1, s =>
    if s.lzd.out.len = s.lzd.decl.toNat then lzFailHere .lzLength s else lzCopy k (lzCopyByte s)

/-- Back-reference validity, then the copy of `LZ_CNT` bytes (R110, R111). -/
def lzBackref (s : State) : State :=
  if s.lzd.out.len < s.lzd.dist.toNat + 1 then lzFailHere .lzBackref s
  else lzCopy s.lzd.cnt.toNat { s with lzd := { s.lzd with st := .copy } }

/-! ## Tokens (R107 to R109) -/

/-- `LZ.LIT` (R107). -/
def lzLit (v : Byte) (s : State) : State :=
  if s.lzd.stop.toNat ≤ s.lzd.src.toNat then lzFailHere .lzTrunc s
  else { s with lzd := { s.lzd with out := s.lzd.out.append v, src := s.lzd.src + 1 } }

/-- `LZ.REF` (R108): nibble `n`, distance field `d`. -/
def lzRef (c : Config) (n : BitVec 4) (d : BitVec 12) (s : State) : State :=
  if s.lzd.stop.toNat < s.lzd.src.toNat + 2 then lzFailHere .lzTrunc s
  else
    lzBackref
      { s with
        lzd := { s.lzd with src := s.lzd.src + 2, dist := d, cnt := BitVec.ofNat 9 (n.toNat + c.lzLenBias) } }

/-- `LZ.REFX` (R108, R109): distance field `d`, extension byte `l`. Its first two bytes are consumed before the
extension byte is tested for. -/
def lzRefx (c : Config) (d : BitVec 12) (l : Byte) (s : State) : State :=
  if s.lzd.stop.toNat < s.lzd.src.toNat + 2 then lzFailHere .lzTrunc s
  else
    let s1 := { s with lzd := { s.lzd with src := s.lzd.src + 2, dist := d } }
    if s1.lzd.stop.toNat ≤ s1.lzd.src.toNat then lzFailHere .lzTrunc s1
    else
      lzBackref
        { s1 with
          lzd := { s1.lzd with src := s1.lzd.src + 1, cnt := BitVec.ofNat 9 (l.toNat + c.lzLenExtBias) } }

/-! ## The token cycle (R104 to R106) -/

/-- What the first three rules of a token cycle come to. -/
inductive LzFetch where
  /-- The run ended: with success (R104) or for want of a control byte (R105). -/
  | ended (s : State)
  /-- The next token has control bit `c` (R106). -/
  | token (c : Bool) (s : State)
  deriving DecidableEq, Repr

/-- Control byte fetch when no control bit is left (R105). -/
def lzRefill (s : State) : State :=
  if s.lzd.nbits = 0 then
    { s with lzd := { s.lzd with ctl := s.inp.read s.lzd.src.toNat, src := s.lzd.src + 1, nbits := 8 } }
  else s

/-- The control bit is used up: `LZ_CTL <- trunc_8(LZ_CTL * 2)`, `LZ_NBITS <- LZ_NBITS - 1` (R106). -/
def lzTakeBit (s : State) : State :=
  { s with lzd := { s.lzd with ctl := s.lzd.ctl <<< 1, nbits := s.lzd.nbits - 1 } }

/-- End test, control byte fetch, control bit dispatch (R104 to R106). -/
def lzFetch (s : State) : LzFetch :=
  if s.lzd.out.len = s.lzd.decl.toNat then .ended (lzSucceed s)
  else if s.lzd.nbits = 0 ∧ s.lzd.stop.toNat ≤ s.lzd.src.toNat then .ended (lzFailHere .lzTrunc s)
  else
    let s1 := lzRefill s
    .token s1.lzd.ctl.msb (lzTakeBit s1)

/-- The `k`-th byte of the token at the read cursor, 0 where the slice has no such byte: the token's own rule tests for
the byte before it uses it (notes/assumptions/9.md). -/
def lzPeek (s : State) (k : Nat) : Byte :=
  if s.lzd.src.toNat + k < s.lzd.stop.toNat then s.inp.read (s.lzd.src.toNat + k) else blankByte

/-- The token rule that a control bit and the nibble select (R106, R108): the selection of `tokenOf`. -/
def lzToken (c : Config) (bit : Bool) (b1 b2 b3 : Byte) (s : State) : State :=
  if bit then lzLit b1 s
  else if b1.extractLsb' 4 4 = 0 then lzRefx c (b1.extractLsb' 0 4 ++ b2) b3 s
  else lzRef c (b1.extractLsb' 4 4) (b1.extractLsb' 0 4 ++ b2) s

/-- One token cycle, state `RUN` (R104 to R111). -/
def lzCycle (c : Config) (s : State) : State :=
  match lzFetch s with
  | .ended t => t
  | .token bit t => lzToken c bit (lzPeek t 0) (lzPeek t 1) (lzPeek t 2) t

/-- Token cycles until the run ends. Each consumes at least one byte of the slice or ends the run (R114). -/
def lzLoop (c : Config) : Nat → State → State
  | 0, s => s
  | k + 1, s => if s.lzd.st = .run then lzLoop c k (lzCycle c s) else s

/-- `LZ.RUN` (R101): start, header, token cycles to the end of the run. -/
def lzRun (c : Config) (addr : BitVec 32) (len : BitVec 23) (s : State) : State :=
  lzLoop c (len.toNat + 1) (lzBegin c addr len s)

/-! ## The meanings -/

/-- `LZ.RUN IN+addr, len` (R101). -/
def execLzRun (addr : BitVec 32) (len : BitVec 23) (s : State) : Host.Outcome State Fault Refusal :=
  .next (lzRun engine addr len s)

/-- `LZ.LIT` (R107). -/
def execLzLit (v : Byte) (s : State) : Host.Outcome State Fault Refusal := .next (lzLit v s)

/-- `LZ.REF` (R108, R110, R111). -/
def execLzRef (n : BitVec 4) (d : BitVec 12) (s : State) : Host.Outcome State Fault Refusal :=
  .next (lzRef engine n d s)

/-- `LZ.REFX` (R108 to R111). -/
def execLzRefx (d : BitVec 12) (l : Byte) (s : State) : Host.Outcome State Fault Refusal :=
  .next (lzRefx engine d l s)

end Sys2Proof.Machine
end

