-- ==== Sys2Proof/Machine/Events.lean ====
section
/-! DEFINITION. ESM part 1, the event-stream decoder (spec/42_event_streams.md): the three records, and `ES.DECODE`,
which decodes a whole region in one step (spec/70_reset_and_hazards.md R270). -/

namespace Sys2Proof.Machine

/-- The failure of a decode: the arrays are emptied, the counts stay, the merger stays as it is (R140). -/
def esFail (e : ErrCode) (info : Nat) (s : State) : State :=
  raise e info
    { s with esm := { s.esm with face := [], stick := [], dpad := [], esValid := false, walk := {} } }

/-- The success of a decode (R132 step 9). -/
def esSucceed (s : State) : State := succeed { s with esm := { s.esm with esValid := true, walk := {} } }

/-- Byte `r[i]` of the region. -/
def esByte (s : State) (i : Nat) : Byte := s.byteAt s.esm.walk.sp (s.esm.walk.addr.toNat + i)

/-! ## Merging (R135, R137) -/

/-- A face entry added to FACE: merged with the last entry when the states are equal (R135). -/
def pushFace (arr : List FaceEvent) (e : FaceEvent) : List FaceEvent :=
  match arr with
  | [] => [e]
  | [a] => if a.st = e.st then [{ a with dur := a.dur + e.dur }] else [a, e]
  | a :: b :: rest => a :: pushFace (b :: rest) e

/-- A stick entry added to STICK: merged with the last entry when `x` and `y` are equal (R137). -/
def pushStick (arr : List StickEvent) (e : StickEvent) : List StickEvent :=
  match arr with
  | [] => [e]
  | [a] => if a.x = e.x ∧ a.y = e.y then [{ a with dur := a.dur + e.dur }] else [a, e]
  | a :: b :: rest => a :: pushStick (b :: rest) e

/-! ## Records (R134 to R138) -/

/-- The record is done: `p <- p + 2` (R132). -/
def esAdvance (m : Esm) : Esm := { m with walk := { m.walk with p := m.walk.p + 2 } }

/-- `face_record(b0, b1, p)` (R134, R135). -/
def esFaceRecord (c : Config) (b0 b1 : Byte) (s : State) : State :=
  if c.faceLegal b0 then
    { s with
      esm := esAdvance { s.esm with face := pushFace s.esm.face { st := b0, dur := b1.zeroExtend 32 } } }
  else esFail .esFace s.esm.walk.p s

/-- `stick_record(b0, b1, p)` (R136, R137). -/
def esStickRecord (c : Config) (b0 b1 : Byte) (s : State) : State :=
  if rawX c b0 = 15 ∨ rawY c b0 = 15 then esFail .esStick s.esm.walk.p s
  else
    { s with
      esm :=
        esAdvance
          { s.esm with
            stick :=
              pushStick s.esm.stick
                { x := unbias c (rawX c b0), y := unbias c (rawY c b0), dur := b1.zeroExtend 32 } } }

/-- `dpad_record(b0, b1, p)` (R138): never merged. -/
def esDpadRecord (c : Config) (b0 b1 : Byte) (s : State) : State :=
  if c.dpadLegal (dpadDir c b0) then
    { s with
      esm := esAdvance { s.esm with dpad := s.esm.dpad ++ [{ dir := dpadDir c b0, dur := dpadDur c b0 b1 }] } }
  else esFail .esDpad s.esm.walk.p s

/-- The record rule of a stream. -/
def esRecord (c : Config) (stream : Stream) (b0 b1 : Byte) (s : State) : State :=
  match stream with
  | .face => esFaceRecord c b0 b1 s
  | .stick => esStickRecord c b0 b1 s
  | .dpad => esDpadRecord c b0 b1 s

/-! ## The decode procedure (R132) -/

/-- Steps 1 to 5 (R132, R133, R139): everything of ESM is cleared and the merger restarted; the region must lie inside
its space and hold the 8 leading bytes; the counts are read. -/
def esBegin (sp : Sp) (addr : BitVec 32) (len : BitVec 23) (s : State) : State :=
  let s1 : State := { s with esm := {}, tl := {} }
  let m := s.space sp
  if m.len < addr.toNat + len.toNat then esFail .esTrunc m.len s1
  else if len.toNat < 8 then esFail .esTrunc len.toNat s1
  else
    { s1 with
      esm :=
        { cntF := BitVec.ofNat 16 (bigEndian (m.readList addr.toNat 2))
          cntS := BitVec.ofNat 16 (bigEndian (m.readList (addr.toNat + 2) 2))
          cntD := BitVec.ofNat 16 (bigEndian (m.readList (addr.toNat + 4) 2))
          walk := { busy := true, sp := sp, addr := addr, len := len, p := 8 } } }

/-- The number of records the counts announce. -/
def esRecords (m : Esm) : Nat := m.cntF.toNat + m.cntS.toNat + m.cntD.toNat

/-- The stream of the record at `p`: `CNT_F` face records, then `CNT_S` stick records, then `CNT_D` dpad records, 2
bytes each from offset 8 (spec/30_encoding.md R67); none when all are taken. -/
def esStreamAt (m : Esm) : Option Stream :=
  let k := (m.walk.p - 8) / 2
  if k < m.cntF.toNat then some .face
  else if k < m.cntF.toNat + m.cntS.toNat then some .stick
  else if k < esRecords m then some .dpad
  else none

/-- What the next turn of the record loops comes to (R132 steps 6 to 9). -/
inductive EsFetch where
  /-- The decode ended: all records are taken, or the next one is not inside the region. -/
  | ended (s : State)
  /-- The next record. -/
  | record (stream : Stream) (b0 b1 : Byte) (s : State)
  deriving DecidableEq, Repr

/-- The bounds test of the next record, and its bytes (R132 steps 6 to 9). -/
def esFetch (s : State) : EsFetch :=
  let p := s.esm.walk.p
  match esStreamAt s.esm with
  | none => .ended (esSucceed s)
  | some stream =>
    if s.esm.walk.len.toNat < p + 2 then .ended (esFail .esTrunc p s)
    else .record stream (esByte s p) (esByte s (p + 1)) s

/-- One turn of the record loops. -/
def esCycle (c : Config) (s : State) : State :=
  match esFetch s with
  | .ended t => t
  | .record stream b0 b1 t => esRecord c stream b0 b1 t

/-- Turns until the decode ends. -/
def esLoop (c : Config) : Nat → State → State
  | 0, s => s
  | k + 1, s => if s.esm.walk.busy then esLoop c k (esCycle c s) else s

/-- `ES.DECODE` (R131, R132). -/
def esDecode (c : Config) (sp : Sp) (addr : BitVec 32) (len : BitVec 23) (s : State) : State :=
  let s1 := esBegin sp addr len s
  esLoop c (esRecords s1.esm + 1) s1

/-! ## The meanings -/

/-- `ES.DECODE SPACE+addr, len` (R131). -/
def execEsDecode (sp : Sp) (addr : BitVec 32) (len : BitVec 23) (s : State) : Host.Outcome State Fault Refusal :=
  .next (esDecode engine sp addr len s)

/-- `EV.FACE` (R134, R135). -/
def execEvFace (b0 b1 : Byte) (s : State) : Host.Outcome State Fault Refusal := .next (esFaceRecord engine b0 b1 s)

/-- `EV.STICK` (R136, R137): the record's first byte is `xxxxyyyy`. -/
def execEvStick (x y : BitVec 4) (t : Byte) (s : State) : Host.Outcome State Fault Refusal :=
  .next (esStickRecord engine (x ++ y) t s)

/-- `EV.DPAD` (R138): the record's first byte is `eeeeiddd`. -/
def execEvDpad (e : BitVec 4) (i : BitVec 1) (d : BitVec 3) (t : Byte) (s : State) :
    Host.Outcome State Fault Refusal :=
  .next (esDpadRecord engine (e ++ i ++ d) t s)

end Sys2Proof.Machine
end

