-- ==== Sys2Proof/Machine/TimeCorrection.lean ====
section
/-! DEFINITION. TCA, the time-correction accumulator (spec/44_time_correction.md). All sums are made on mathematical
integers and tested before anything is written (R173). -/

namespace Sys2Proof.Machine

/-- `TC.CLR` (R174): TCA at its reset values. -/
def tcClear (s : State) : State := succeed { s with tca := {} }

/-- `ms * TC_MS_UNITS + d`: the remainder of R175, R176. -/
def remainder (c : Config) (ms : BitVec 10) (d : Int) : Int := (ms.toNat * c.tcMsUnits : Nat) + d

/-- `TC.FIN` (R175). -/
def tcFinish (c : Config) (min sec : BitVec 7) (ms : BitVec 10) (fbits : BitVec 32) (s : State) : State :=
  if isFinite fbits then
    let raw := floorScaled fbits c.tcScale
    let rem := remainder c ms raw
    if fits64 raw && fits64 rem then
      succeed
        { s with
          tca :=
            { s.tca with
              tMin := min, tSec := sec, tDelta := BitVec.ofInt 64 raw, tRem := BitVec.ofInt 64 rem
              rangeRem := rangeRemFlag c rem, rangeDelta := false } }
    else raise .tcOverflow fbits.toNat s
  else raise .tcNonFinite fbits.toNat s

/-- What one lap makes of its raw delta. -/
structure Lap where
  /-- `d1`, the raw delta less the running sum. -/
  d1 : Int
  /-- `d`, the accepted delta. -/
  d : Int
  /-- The new `ACC`. -/
  acc : Int
  /-- The new `CY`. -/
  cy : Bool
  deriving DecidableEq, Repr

/-- The lap step: one replaceable function of `(raw, ACC, CY)` (R176, R177,
spec/93_implementation_defined.md U1). -/
def lapStep (c : Config) (raw acc : Int) (cy : Bool) : Lap :=
  let d1 := raw - acc
  let trig := carryTrigger c d1
  let d := if trig then d1 - (c.tcWrap : Int) else d1
  { d1 := d1, d := d, acc := acc + d, cy := if trig then !cy else cy }

/-- `TC.LAP` (R176). -/
def tcLapOp (c : Config) (min sec : BitVec 7) (ms : BitVec 10) (fbits : BitVec 32) (s : State) : State :=
  if isFinite fbits then
    let raw := floorScaled fbits c.tcScale
    let lap := lapStep c raw s.tca.acc.toInt s.tca.cy
    let rem := remainder c ms lap.d
    if fits64 raw && fits64 lap.d1 && fits64 lap.d && fits64 lap.acc && fits64 rem then
      succeed
        { s with
          tca :=
            { tMin := min, tSec := sec, tRem := BitVec.ofInt 64 rem, tDelta := BitVec.ofInt 64 lap.d
              acc := BitVec.ofInt 64 lap.acc, cy := lap.cy
              rangeRem := rangeRemFlag c rem, rangeDelta := rangeDeltaFlag c lap.d } }
    else raise .tcOverflow fbits.toNat s
  else raise .tcNonFinite fbits.toNat s

/-- `TC.CLR` (R174). -/
def execTcClr (s : State) : Host.Outcome State Fault Refusal := .next (tcClear s)

/-- `TC.FIN mm:ss.mmm, fbits` (R175). -/
def execTcFin (min sec : BitVec 7) (ms : BitVec 10) (fbits : BitVec 32) (s : State) :
    Host.Outcome State Fault Refusal :=
  .next (tcFinish engine min sec ms fbits s)

/-- `TC.LAP mm:ss.mmm, fbits` (R176). -/
def execTcLap (min sec : BitVec 7) (ms : BitVec 10) (fbits : BitVec 32) (s : State) :
    Host.Outcome State Fault Refusal :=
  .next (tcLapOp engine min sec ms fbits s)

end Sys2Proof.Machine
end

