-- ==== Sys2Proof/Machine/Timeline.lean ====
section
/-! DEFINITION. ESM part 2, the timeline merger (spec/43_timeline_merger.md). -/

namespace Sys2Proof.Machine

/-- `TL.RESTART` (R151): the merger at its reset values; the arrays are not touched. -/
def tlRestart (s : State) : State :=
  if s.esm.esValid then succeed { s with tl := {} } else raise .tlNoStreams 0 s

/-- The smaller of two remaining counts, of those that are defined (R153 step 4). -/
def leastOf : Option (BitVec 32) → Option (BitVec 32) → Option (BitVec 32)
  | none, b => b
  | some a, none => some a
  | some a, some b => some (if a.toNat ≤ b.toNat then a else b)

/-- The frames a stream's current entry still has; none when the stream is exhausted (R153 step 3). -/
def remaining (cur : Cursor) (dur : Option (BitVec 32)) : Option (BitVec 32) := dur.map (fun n => n - cur.used)

/-- Step 7 of R153 for one stream: the counter advances by `m` and, when the entry is used up, the cursor moves to the
next entry. An exhausted stream stays. -/
def advance (cur : Cursor) (dur : Option (BitVec 32)) (m : BitVec 32) : Cursor :=
  match dur with
  | none => cur
  | some n =>
    if cur.used + m = n then { idx := cur.idx + 1, used := 0 } else { cur with used := cur.used + m }

/-- The current entry of FACE; none when the face stream is exhausted (spec/10_state.md R21). -/
def currentFace (s : State) : Option FaceEvent := s.esm.face[s.tl.curF.idx.toNat]?

/-- The current entry of STICK. -/
def currentStick (s : State) : Option StickEvent := s.esm.stick[s.tl.curS.idx.toNat]?

/-- The current entry of DPAD. -/
def currentDpad (s : State) : Option DpadEvent := s.esm.dpad[s.tl.curD.idx.toNat]?

/-- The timeline has ended: all streams exhausted, or under `TL_STOP = FIRST` any of them (R153 step 2, R158). -/
def tlOver (c : Config) (exF exS exD : Bool) : Bool :=
  match c.tlStop with
  | .all => exF && exS && exD
  | .first => exF || exS || exD

/-- The merge step (R153). -/
def mergeStep (c : Config) (s : State) : State :=
  let f := currentFace s
  let k := currentStick s
  let d := currentDpad s
  if tlOver c f.isNone k.isNone d.isNone then succeed { s with tl := { s.tl with valid := false, ended := true } }
  else
    let durF := f.map FaceEvent.dur
    let durS := k.map StickEvent.dur
    let durD := d.map DpadEvent.dur
    let m := (leastOf (leastOf (remaining s.tl.curF durF) (remaining s.tl.curS durS)) (remaining s.tl.curD durD)).getD 0
    succeed
      { s with
        tl :=
          { curF := advance s.tl.curF durF m
            curS := advance s.tl.curS durS m
            curD := advance s.tl.curD durD m
            face := (f.map FaceEvent.st).getD c.faceNeutral
            x := (k.map StickEvent.x).getD 0
            y := (k.map StickEvent.y).getD 0
            dpad := (d.map DpadEvent.dir).getD c.dpadNeutral
            dur := m
            count := s.tl.count + 1
            total := s.tl.total + m
            valid := true
            ended := false
            neutral := s.tl.neutral || f.isNone || k.isNone || d.isNone } }

/-- `TL.NEXT` (R152): one merge step, if streams are decoded. -/
def tlNext (c : Config) (s : State) : State :=
  if s.esm.esValid then mergeStep c s else raise .tlNoStreams 0 s

/-- `TL.RESTART` (R151). -/
def execTlRestart (s : State) : Host.Outcome State Fault Refusal := .next (tlRestart s)

/-- `TL.NEXT` (R152). -/
def execTlNext (s : State) : Host.Outcome State Fault Refusal := .next (tlNext engine s)

end Sys2Proof.Machine
end

