-- ==== Sys2Proof/Machine/Dispatch.lean ====
section
/-! DEFINITION. The meaning of each instruction, one arm per constructor. -/

namespace Sys2Proof.Machine

def exec (i : Instr) (s : State) : Host.Outcome State Fault Refusal :=
  match i with
  | .sysNop => Sys2Proof.Machine.execSysNop s
  | .sysReset => Sys2Proof.Machine.execSysReset s
  | .bfLoad sp n addr => Sys2Proof.Machine.execBfLoad sp n addr s
  | .bfBit idx => Sys2Proof.Machine.execBfBit idx s
  | .bfByte idx => Sys2Proof.Machine.execBfByte idx s
  | .bfWord idx => Sys2Proof.Machine.execBfWord idx s
  | .bfShl d => Sys2Proof.Machine.execBfShl d s
  | .bfShr d => Sys2Proof.Machine.execBfShr d s
  | .bfField lo wid => Sys2Proof.Machine.execBfField lo wid s
  | .lzRun addr len => Sys2Proof.Machine.execLzRun addr len s
  | .esDecode sp addr len => Sys2Proof.Machine.execEsDecode sp addr len s
  | .tlRestart => Sys2Proof.Machine.execTlRestart s
  | .tlNext => Sys2Proof.Machine.execTlNext s
  | .tcClr => Sys2Proof.Machine.execTcClr s
  | .tcFin min sec ms fbits => Sys2Proof.Machine.execTcFin min sec ms fbits s
  | .tcLap min sec ms fbits => Sys2Proof.Machine.execTcLap min sec ms fbits s
  | .lzLit v => Sys2Proof.Machine.execLzLit v s
  | .lzRef n d => Sys2Proof.Machine.execLzRef n d s
  | .lzRefx d l => Sys2Proof.Machine.execLzRefx d l s
  | .evFace b t => Sys2Proof.Machine.execEvFace b t s
  | .evStick x y t => Sys2Proof.Machine.execEvStick x y t s
  | .evDpad e b d t => Sys2Proof.Machine.execEvDpad e b d t s

end Sys2Proof.Machine
end

