-- ==== Sys2Proof/Machine/HostPort.lean ====
section
/-! DEFINITION. The host's ports (spec/10_state.md R13, R25): the CSR map, the read accessors, and what each host action
does. Reads change nothing of the engine (R25, spec/20_memory.md R45). -/

namespace Sys2Proof.Machine

/-- The register of a CSR number as 64 bits: an unsigned register zero-extended, a signed one sign-extended; 0 for a
number not in the table (R13). -/
def State.readCSR (s : State) (no : Nat) : BitVec 64 :=
  match no with
  | 0x00 => s.statusWord.zeroExtend 64
  | 0x01 => s.rep.err.zeroExtend 64
  | 0x02 => s.rep.einfo.zeroExtend 64
  | 0x03 => s.rep.sticky.zeroExtend 64
  | 0x04 => s.bfx.res.zeroExtend 64
  | 0x05 => s.bfx.w.zeroExtend 64
  | 0x10 => BitVec.ofNat 64 s.lzd.out.len
  | 0x11 => s.lzd.decl.zeroExtend 64
  | 0x12 => s.lzUsed.zeroExtend 64
  | 0x20 => s.esm.cntF.zeroExtend 64
  | 0x21 => s.esm.cntS.zeroExtend 64
  | 0x22 => s.esm.cntD.zeroExtend 64
  | 0x23 => BitVec.ofNat 64 s.esm.face.length
  | 0x24 => BitVec.ofNat 64 s.esm.stick.length
  | 0x25 => BitVec.ofNat 64 s.esm.dpad.length
  | 0x28 => s.tl.face.zeroExtend 64
  | 0x29 => s.tl.x.signExtend 64
  | 0x2A => s.tl.y.signExtend 64
  | 0x2B => s.tl.dpad.zeroExtend 64
  | 0x2C => s.tl.dur.zeroExtend 64
  | 0x2D => s.tl.count.zeroExtend 64
  | 0x2E => s.tl.total.zeroExtend 64
  | 0x30 => s.tca.tMin.zeroExtend 64
  | 0x31 => s.tca.tSec.zeroExtend 64
  | 0x32 => s.tca.tRem
  | 0x33 => s.tca.tDelta
  | 0x34 => s.tca.acc
  | _ => 0

/-- `HostReadOut(a)`: `OUT[a]` below `OUT_LEN`, else 0 (R25). -/
def State.readOut (s : State) (a : Nat) : Byte := s.byteAt .output a

/-- `HostReadEvent(stream, k)`: the entry if `ES_VALID = 1` and `k` is below the entry count, else an all-zero entry
(R25). -/
def State.readEvent (s : State) (stream : Stream) (k : Nat) : Answer :=
  match stream with
  | .face => .face (if s.esm.esValid then s.esm.face.getD k {} else {})
  | .stick => .stick (if s.esm.esValid then s.esm.stick.getD k {} else {})
  | .dpad => .dpad (if s.esm.esValid then s.esm.dpad.getD k {} else {})

/-- A read port hands a value to the host. -/
def answered (v : Answer) (s : State) : State := { s with host := { s.host with answer := v } }

/-- `HostLoadIN(bytes)`: IN and `IN_LEN` are replaced, nothing else changes (R25); more than `IN_MAX` bytes the host
must not load (spec/70_reset_and_hazards.md R266, notes/assumptions/10.md). -/
def hostLoad (c : Config) (bytes : List Byte) (s : State) : Host.Outcome State Fault Refusal :=
  if c.inMax < bytes.length then .fault .loadBeyondInMax else .next { s with inp := Space.ofBytes bytes }

end Sys2Proof.Machine
end

