-- ==== Sys2Proof/Machine/Fetch.lean ====
section
/-! DEFINITION. What the machine does next. Between commands it takes the host's next action (spec/10_state.md R12,
R25). In a state inside `LZ.RUN` or `ES.DECODE` it goes on with that command's own loop: the next token or the next
record. No step ends inside a command, so such a state is met only where it is built
(notes/assumptions/2.md). -/

namespace Sys2Proof.Machine

/-- What a step comes to before any instruction's meaning. -/
inductive Fetched where
  /-- An instruction to run, and the state it runs in. -/
  | instr (i : Instr) (s : State)
  /-- The step is over without an instruction. -/
  | ended (o : Host.Outcome State Fault Refusal)

/-- The token at the read cursor, whose control bit is `bit`. -/
def tokenAt (bit : Bool) (s : State) : Instr := tokenOf bit (lzPeek s 0) (lzPeek s 1) (lzPeek s 2)

/-- The first pending action is taken from the queue. -/
def takeAction (rest : List HostAction) (s : State) : State := { s with host := { s.host with pending := rest } }

/-- The host's next action (spec/10_state.md R25). An illegal word raises `E_ILLEGAL` with `EINFO = cmd[63:32]` and
changes nothing else (spec/30_encoding.md R66). With no action the engine waits. -/
def fetchHost (c : Config) (s : State) : Fetched :=
  match s.host.pending with
  | [] => .ended (.next s)
  | act :: rest =>
    let t := takeAction rest s
    match act with
    | .loadIN bytes => .ended (hostLoad c bytes t)
    | .issue cmd =>
      match decode (.command cmd) with
      | .ok i => .instr i t
      | .error _ => .ended (.next (raise .illegal (highHalf cmd).toNat t))
    | .readCSR no => .ended (.next (answered (.csr (t.readCSR no)) t))
    | .readOut a => .ended (.next (answered (.byte (t.readOut a)) t))
    | .readEvent stream k => .ended (.next (answered (t.readEvent stream k) t))
    | .reset => .ended (.next (hardReset t))

/-- The next token cycle of a run in progress (spec/41_lz_decompressor.md R104 to R106). -/
def fetchToken (s : State) : Fetched :=
  match lzFetch s with
  | .ended t => .ended (.next t)
  | .token bit t => .instr (tokenAt bit t) t

/-- The next record of a decode in progress (spec/42_event_streams.md R132). -/
def fetchRecord (s : State) : Fetched :=
  match esFetch s with
  | .ended t => .ended (.next t)
  | .record stream b0 b1 t => .instr (decodeRecord stream b0 b1) t

/-- What the machine does next. -/
def fetch (c : Config) (s : State) : Fetched :=
  if s.esm.walk.busy then fetchRecord s
  else
    match s.lzd.st with
    | .hdr => .ended (.next (lzHeader c s))
    | .run => fetchToken s
    | .copy => .ended (.next (lzCopy s.lzd.cnt.toNat s))
    | .idle | .done | .fail => fetchHost c s

/-! ## Placing an instruction where the next step fetches it (notes/assumptions/7.md) -/

/-- `LZ_ST` as it stands between commands. -/
def settledSt : LzSt → LzSt
  | .idle | .hdr | .run | .copy => .idle
  | .done => .done
  | .fail => .fail

/-- The host's next action is to issue `cmd`. -/
def placeCommand (cmd : Command) (s : State) : State :=
  { s with
    lzd := { s.lzd with st := settledSt s.lzd.st }
    esm := { s.esm with walk := {} }
    host := { s.host with pending := .issue cmd :: s.host.pending } }

/-- A run is in progress whose slice is the token's bytes and whose next control bit is `bit`. -/
def placeToken (bit : Bool) (bytes : List Byte) (s : State) : State :=
  { s with
    inp := Space.ofBytes bytes
    esm := { s.esm with walk := {} }
    lzd :=
      { s.lzd with
        st := .run, base := 0, src := 0, stop := BitVec.ofNat 33 bytes.length
        ctl := if bit then 0x80 else 0x00, nbits := 8
        decl := if s.lzd.out.len = 2 ^ 32 - 1 then 0 else BitVec.allOnes 32 } }

/-- A decode is in progress whose region holds the one record. -/
def placeRecord (stream : Stream) (b0 b1 : Byte) (s : State) : State :=
  let nF : Byte := if stream = .face then 1 else 0
  let nS : Byte := if stream = .stick then 1 else 0
  let nD : Byte := if stream = .dpad then 1 else 0
  { s with
    inp := Space.ofBytes [0, nF, 0, nS, 0, nD, 0, 0, b0, b1]
    esm :=
      { s.esm with
        cntF := nF.zeroExtend 16, cntS := nS.zeroExtend 16, cntD := nD.zeroExtend 16
        walk := { busy := true, sp := .input, addr := 0, len := 10, p := 8 } } }

/-- An encoded instruction is placed where the next step fetches it. -/
def placeEncoded (e : Encoded) (s : State) : State :=
  match e with
  | .command cmd => placeCommand cmd s
  | .token bit bytes => placeToken bit bytes s
  | .record stream b0 b1 => placeRecord stream b0 b1 s

/-- A word of the opcode table is placed where the next step fetches it; a word that is no row's changes nothing. -/
def placeWord (nbits w : Nat) (s : State) : State :=
  if nbits = 64 then placeEncoded (.command (BitVec.ofNat 64 w)) s
  else
    match decodeTableWord nbits w with
    | some i => placeEncoded (encode i) s
    | none => s

end Sys2Proof.Machine
end

