-- ==== Sys2Proof/Machine/Step.lean ====
section
/-! DEFINITION. One step of the machine. -/

namespace Sys2Proof.Machine

/-- One step: what the machine does next, an instruction by its meaning. A command is one step
(spec/70_reset_and_hazards.md R270). -/
def step (s : State) : Host.Outcome State Fault Refusal :=
  match fetch engine s with
  | .instr i t => exec i t
  | .ended o => o

/-- The state with a word of the opcode table placed where `step` takes its next instruction from. -/
def State.withFetchWord (s : State) (nbits w : Nat) : State := placeWord nbits w s

end Sys2Proof.Machine
end

