-- ==== Sys2Proof/Machine/Pseudo.lean ====
section
/-! DEFINITION. The pseudo-commands as the host issues them (spec/30_encoding.md R69): a fixed sequence of commands, and
`TL.ALL`, whose length the host finds by reading `TL_DONE`. No part of the engine: nothing here is executed by `step`. -/

namespace Sys2Proof.Machine

open Sys2Proof

/-- The commands of a sequence, issued one after another. -/
def execList : List Instr → State → Host.Outcome State Fault Refusal
  | [], s => .next s
  | i :: rest, s =>
    match exec i s with
    | .next t => execList rest t
    | .fault f => .fault f
    | .refused r => .refused r

/-- The CSR numbers of the entry registers `TL_FACE`, `TL_X`, `TL_Y`, `TL_DPAD`, `TL_DUR` (spec/10_state.md R13, R22). -/
def entryRegisters : List Nat := [0x28, 0x29, 0x2A, 0x2B, 0x2C]

/-- What the host reads of an entry: the entry registers through the read port, in their order. -/
def State.readEntry (s : State) : List (BitVec 64) := entryRegisters.map s.readCSR

/-- `TL_DONE` as the host reads it: bit 3 of `STATUS` (spec/10_state.md R13, R16). -/
def State.readDone (s : State) : Bool := (s.readCSR 0x00).getLsbD 3

/-- The repetition of `TL.ALL`: `TL.NEXT`, the entry read after it, until `TL_DONE = 1`; none when that is not met in the
given number of commands. The `TL.NEXT` that sets `TL_DONE` produces no entry (spec/43_timeline_merger.md R150). -/
def tlAllLoop : Nat → State → Option (List (List (BitVec 64)) × State)
  | 0, _ => none
  | k + 1, s =>
    match exec .tlNext s with
    | .next t =>
      if t.readDone then some ([], t) else (tlAllLoop k t).map fun r => (t.readEntry :: r.1, r.2)
    | .fault _ | .refused _ => none

/-- `TL.ALL` (R69): `TL.RESTART`, then the repetition: the whole timeline, entry by entry, and the state after it. A walk
needs at most `NF + NS + ND + 1` repetitions (spec/43_timeline_merger.md R157); none when `TL_DONE` is not reached within
them, as when no streams are decoded (notes/assumptions/16.md). -/
def tlAll (s : State) : Option (List (List (BitVec 64)) × State) :=
  match exec .tlRestart s with
  | .next t => tlAllLoop (t.esm.face.length + t.esm.stick.length + t.esm.dpad.length + 1) t
  | .fault _ | .refused _ => none

end Sys2Proof.Machine
end

