-- ==== Sys2Proof/Safety.lean ====
section
/-! DEFINITION. The terms statements are made in: frames (what a command leaves alone), the error registers after a
command, what holds between commands, the invariants of the registers, and two references to compare with: the output a
list of tokens stands for, and the arrays a list of records stands for. -/

namespace Sys2Proof.Machine

open Sys2Proof

/-! ## Frames -/

/-- Every byte of IN and OUT, and both lengths, are as before. -/
def SameMemory (s t : State) : Prop :=
  (∀ sp a, t.byteAt sp a = s.byteAt sp a) ∧ t.inp.len = s.inp.len ∧ t.lzd.out.len = s.lzd.out.len

/-- Nothing but the error registers is changed. -/
def OnlyReport (s t : State) : Prop :=
  t.inp = s.inp ∧ t.bfx = s.bfx ∧ t.lzd = s.lzd ∧ t.esm = s.esm ∧ t.tl = s.tl ∧ t.tca = s.tca ∧ t.host = s.host ∧
    SameMemory s t

/-- Nothing but BFX and the error registers is changed. -/
def OnlyBfx (s t : State) : Prop :=
  t.inp = s.inp ∧ t.lzd = s.lzd ∧ t.esm = s.esm ∧ t.tl = s.tl ∧ t.tca = s.tca ∧ t.host = s.host ∧ SameMemory s t

/-- Nothing but LZD with its buffer OUT and the error registers is changed; IN reads as before. -/
def OnlyLzd (s t : State) : Prop :=
  t.inp = s.inp ∧ t.bfx = s.bfx ∧ t.esm = s.esm ∧ t.tl = s.tl ∧ t.tca = s.tca ∧ t.host = s.host ∧
    ∀ a, t.byteAt .input a = s.byteAt .input a

/-- Nothing but ESM (decoder and merger) and the error registers is changed. -/
def OnlyEsm (s t : State) : Prop :=
  t.inp = s.inp ∧ t.bfx = s.bfx ∧ t.lzd = s.lzd ∧ t.tca = s.tca ∧ t.host = s.host ∧ SameMemory s t

/-- Nothing but the merger and the error registers is changed. -/
def OnlyMerger (s t : State) : Prop := OnlyEsm s t ∧ t.esm = s.esm

/-- Nothing but TCA and the error registers is changed. -/
def OnlyTca (s t : State) : Prop :=
  t.inp = s.inp ∧ t.bfx = s.bfx ∧ t.lzd = s.lzd ∧ t.esm = s.esm ∧ t.tl = s.tl ∧ t.host = s.host ∧ SameMemory s t

/-! ## The error registers after a command (spec/60_exceptions.md R231) -/

/-- The command succeeded: `ERR = 0x00`, `EINFO` and `STICKY` as before. -/
def Succeeded (s t : State) : Prop :=
  t.rep.err = 0x00#8 ∧ t.rep.einfo = s.rep.einfo ∧ t.rep.sticky = s.rep.sticky

/-- The command raised the error of the given code and `STICKY` bit with the given information. -/
def RaisedAs (code : BitVec 8) (bit info : Nat) (s t : State) : Prop :=
  t.rep.err = code ∧ t.rep.einfo.toNat = info % 2 ^ 32 ∧ t.rep.sticky = s.rep.sticky ||| (1#16 <<< bit)

/-! ## Between commands (spec/10_state.md R17, R26) -/

/-- No command is being executed: `LZ_ST` is `IDLE`, `DONE` or `FAIL`, and no decode is in progress. -/
abbrev Settled (s : State) : Prop :=
  (s.lzd.st = .idle ∨ s.lzd.st = .done ∨ s.lzd.st = .fail) ∧ s.esm.walk = {}

/-- The host's next action is to issue `cmd`. -/
abbrev Issues (s : State) (cmd : Command) (rest : List HostAction) : Prop := s.host.pending = .issue cmd :: rest

/-! ## Invariants -/

/-- The result codes of spec/60_exceptions.md R230 with the `STICKY` bit of each error. -/
def errorTable : List (BitVec 8 × Nat) :=
  [(0x01, 0), (0x11, 1), (0x21, 2), (0x22, 3), (0x23, 4), (0x24, 5), (0x25, 6), (0x31, 7), (0x32, 8), (0x33, 9),
   (0x34, 10), (0x35, 11), (0x41, 12), (0x42, 13)]

/-- `ERR` is 0 or a listed code whose `STICKY` bit is set; `STICKY` bits 14 and 15 are 0
(spec/60_exceptions.md R230, R232). -/
abbrev ReportSound (r : Report) : Prop :=
  (r.err = 0 ∨ ∃ row ∈ errorTable, r.err = row.1 ∧ r.sticky.getLsbD row.2 = true) ∧
    r.sticky.getLsbD 14 = false ∧ r.sticky.getLsbD 15 = false

/-- Both spaces are in canonical form and within capacity (spec/10_state.md R18, R24). -/
abbrev MemorySound (s : State) : Prop :=
  s.inp.wf = true ∧ s.lzd.out.wf = true ∧ s.inp.len ≤ engine.inMax ∧ s.lzd.out.len ≤ engine.outMax

/-- Between commands: `OUT_VALID` is 1 exactly in state `DONE`; OUT then holds `LZ_DECL` bytes and is empty otherwise;
the read cursor lies in the slice (spec/10_state.md R16 to R18, spec/41_lz_decompressor.md R112, R113). -/
abbrev DecompressorSound (z : Lzd) : Prop :=
  (z.outValid = true ↔ z.st = .done) ∧ (z.st = .done → z.out.len = z.decl.toNat) ∧ (z.st ≠ .done → z.out = {}) ∧
    z.base.toNat ≤ z.src.toNat ∧ z.src.toNat ≤ z.stop.toNat

/-- Between commands: the arrays hold no more entries than records were counted, and none when no streams are decoded;
stick coordinates are in -7 to 7 (spec/10_state.md R19, R20, spec/42_event_streams.md R133, R136). -/
abbrev StreamsSound (m : Esm) : Prop :=
  m.face.length ≤ m.cntF.toNat ∧ m.stick.length ≤ m.cntS.toNat ∧ m.dpad.length ≤ m.cntD.toNat ∧
    (m.esValid = false → m.face = [] ∧ m.stick = [] ∧ m.dpad = []) ∧
    ∀ e ∈ m.stick, -7 ≤ e.x.toInt ∧ e.x.toInt ≤ 7 ∧ -7 ≤ e.y.toInt ∧ e.y.toInt ≤ 7

/-- A cursor over the durations of a stream: the index does not pass the end, and the counter is below the duration of
the current entry, or 0 at an entry of duration 0 and at the end (spec/10_state.md R21). -/
abbrev CursorSound (cur : Cursor) (durs : List (BitVec 32)) : Prop :=
  cur.idx.toNat ≤ durs.length ∧ (cur.used = 0 ∨ ∃ d, durs[cur.idx.toNat]? = some d ∧ cur.used.toNat < d.toNat)

/-- The merger's three cursors over the three arrays. -/
abbrev MergerSound (s : State) : Prop :=
  CursorSound s.tl.curF (s.esm.face.map FaceEvent.dur) ∧ CursorSound s.tl.curS (s.esm.stick.map StickEvent.dur) ∧
    CursorSound s.tl.curD (s.esm.dpad.map DpadEvent.dur)

/-- `TC_RANGE_REM` is 1 exactly when `T_REM` is outside `[0, TC_SEC_UNITS)` (spec/10_state.md R16). -/
abbrev RangeSound (a : Tca) : Prop := a.rangeRem = true ↔ (a.tRem.toInt < 0 ∨ (10 : Int) ^ 12 ≤ a.tRem.toInt)

/-- All the invariants that hold between commands. -/
abbrev Sound (s : State) : Prop :=
  MemorySound s ∧ s.bfx.wn.toNat ≤ 4 ∧ DecompressorSound s.lzd ∧ StreamsSound s.esm ∧ MergerSound s ∧
    RangeSound s.tca ∧ ReportSound s.rep

/-! ## Reference: what a list of tokens stands for (spec/30_encoding.md R65, spec/41_lz_decompressor.md R107 to R111) -/

/-- `k` bytes, each copied from `dist` positions behind the end of the growing output. -/
def copyBack : Nat → Nat → List Byte → List Byte
  | 0, _, out => out
  | k + 1, dist, out => copyBack k dist (out ++ [out.getD (out.length - dist) 0])

/-- The output after one token; none when a back-reference points before the start, or for what is no token. -/
def expandToken (out : List Byte) (i : Instr) : Option (List Byte) :=
  match i with
  | .lzLit v => some (out ++ [v])
  | .lzRef n d => if out.length < d.toNat + 1 then none else some (copyBack (n.toNat + 2) (d.toNat + 1) out)
  | .lzRefx d l => if out.length < d.toNat + 1 then none else some (copyBack (l.toNat + 0x12) (d.toNat + 1) out)
  | .sysNop | .sysReset | .bfLoad _ _ _ | .bfBit _ | .bfByte _ | .bfWord _ | .bfShl _ | .bfShr _ | .bfField _ _
  | .lzRun _ _ | .esDecode _ _ _ | .tlRestart | .tlNext | .tcClr | .tcFin _ _ _ _ | .tcLap _ _ _ _
  | .evFace _ _ | .evStick _ _ _ | .evDpad _ _ _ _ => none

/-- The output after a list of tokens. -/
def expandTokens : List Instr → List Byte → Option (List Byte)
  | [], out => some out
  | i :: rest, out => (expandToken out i).bind (expandTokens rest)

/-- The bytes of a token. -/
def tokenBytes (i : Instr) : List Byte :=
  match encode i with
  | .token _ bytes => bytes
  | .command _ | .record _ _ _ => []

/-- The control bit of a token. -/
def tokenBit (i : Instr) : Bool :=
  match encode i with
  | .token c _ => c
  | .command _ | .record _ _ _ => false

/-- The control byte of a group of at most eight tokens, bit 7 for the first (spec/30_encoding.md R64). -/
def controlByte (group : List Instr) : Byte :=
  BitVec.ofNat 8 ((List.range 8).foldl (fun acc k => 2 * acc + (if (group.map tokenBit).getD k false then 1 else 0)) 0)

/-- The token stream of a list of tokens, in groups of eight; the first argument is at least the number of groups. -/
def packGroups : Nat → List Instr → List Byte
  | 0, _ => []
  | _ + 1, [] => []
  | k + 1, i :: rest =>
    controlByte ((i :: rest).take 8) :: (((i :: rest).take 8).flatMap tokenBytes ++ packGroups k ((i :: rest).drop 8))

/-- The token stream of a list of tokens (spec/30_encoding.md R64). -/
def packTokens (toks : List Instr) : List Byte := packGroups toks.length toks

/-- A compressed block: magic, declared size, 16 reserved bytes, token stream (spec/30_encoding.md R64). -/
def compressedBlock (size : Nat) (reserved : List Byte) (toks : List Instr) : List Byte :=
  [0x59, 0x61, 0x7A, 0x31] ++ bytesOf 4 size ++ reserved ++ packTokens toks

/-! ## Reference: what the records of a region stand for (spec/42_event_streams.md R134 to R138) -/

/-- Byte `i` of the region at `addr`. -/
def regionByte (s : State) (sp : Sp) (addr : BitVec 32) (i : Nat) : Byte := s.byteAt sp (addr.toNat + i)

/-- The 16-bit big-endian count at offset `i` of the region (R133). -/
def regionCount (s : State) (sp : Sp) (addr : BitVec 32) (i : Nat) : Nat :=
  (regionByte s sp addr i).toNat * 256 + (regionByte s sp addr (i + 1)).toNat

/-- The number of records of the region. -/
def regionRecords (s : State) (sp : Sp) (addr : BitVec 32) : Nat :=
  regionCount s sp addr 0 + regionCount s sp addr 2 + regionCount s sp addr 4

/-- First byte of record `k` of the region. -/
def recordState (s : State) (sp : Sp) (addr : BitVec 32) (k : Nat) : Byte := regionByte s sp addr (8 + 2 * k)

/-- Second byte of record `k` of the region. -/
def recordTime (s : State) (sp : Sp) (addr : BitVec 32) (k : Nat) : Byte := regionByte s sp addr (8 + 2 * k + 1)

/-- The frames a face or stick record stands for. -/
def plainFrames (s : State) (sp : Sp) (addr : BitVec 32) (k : Nat) : Nat := (recordTime s sp addr k).toNat

/-- The frames a dpad record stands for: `e * 256 + t`. -/
def dpadFrames (s : State) (sp : Sp) (addr : BitVec 32) (k : Nat) : Nat :=
  (recordState s sp addr k).toNat / 16 * 256 + (recordTime s sp addr k).toNat

/-- The records of the region are legal: every face byte is in `FACE_LEGAL`, no stick nibble is 15. -/
def RecordsLegal (s : State) (sp : Sp) (addr : BitVec 32) : Prop :=
  (∀ k, k < regionCount s sp addr 0 → engine.faceLegal (recordState s sp addr k) = true) ∧
    ∀ k, regionCount s sp addr 0 ≤ k → k < regionCount s sp addr 0 + regionCount s sp addr 2 →
      (recordState s sp addr k).toNat / 16 ≠ 15 ∧ (recordState s sp addr k).toNat % 16 ≠ 15

/-- The first `n` records of the region are legal. -/
def RecordsLegalBelow (s : State) (sp : Sp) (addr : BitVec 32) (n : Nat) : Prop :=
  (∀ k, k < n → k < regionCount s sp addr 0 → engine.faceLegal (recordState s sp addr k) = true) ∧
    ∀ k, k < n → regionCount s sp addr 0 ≤ k → k < regionCount s sp addr 0 + regionCount s sp addr 2 →
      (recordState s sp addr k).toNat / 16 ≠ 15 ∧ (recordState s sp addr k).toNat % 16 ≠ 15

/-! ## Durations and the walk of the merger (spec/43_timeline_merger.md R157, R158) -/

/-- The sum of a list of durations. -/
def totalDur (durs : List (BitVec 32)) : Nat := (durs.map BitVec.toNat).sum

/-- An instruction run `k` times. -/
def execTimes (i : Instr) : Nat → State → Host.Outcome State Fault Refusal
  | 0, s => .next s
  | k + 1, s =>
    match exec i s with
    | .next t => execTimes i k t
    | .fault f => .fault f
    | .refused r => .refused r

/-- `k` merge steps. -/
def mergeSteps (c : Config) : Nat → State → State
  | 0, s => s
  | k + 1, s => mergeSteps c k (mergeStep c s)

/-! ## The value of a binary32 pattern (spec/00_scope.md R7) -/

/-- `fval(b)` for `b[30:23] != 0xFF`. -/
def fval (b : BitVec 32) : ℚ :=
  let sign : ℚ := if b.getLsbD 31 then -1 else 1
  let exp : ℕ := b.toNat / 2 ^ 23 % 2 ^ 8
  let frac : ℕ := b.toNat % 2 ^ 23
  if exp = 0 then sign * 2 ^ (-126 : ℤ) * (frac / 2 ^ 23)
  else sign * 2 ^ ((exp : ℤ) - 127) * (1 + frac / 2 ^ 23)

end Sys2Proof.Machine
end

