-- ==== Sys2Proof/Certificates/Slice0/Obligations.lean ====
section
/-! DEFINITION. The statements for the provers. Each docstring names the rules of spec/ it rests on; OBLIGATIONS.json
lists them. A statement about an instruction concludes that `exec` answers a next state. -/

open Sys2Proof Sys2Proof.Machine

/-! ## Encoding -/

/-- R60 to R69: decoding what the encoder writes gives the instruction back, for every well-formed instruction. -/
def Obligations.DecodeOfEncodeIsIdentity : Prop :=
  ∀ i : Instr, i.wellFormed = true → decode (encode i) = .ok i

/-- R60 to R66: a command word that decodes is exactly what the encoder writes, and what it decodes to is well formed. -/
def Obligations.EncodeOfDecodedCommand : Prop :=
  ∀ (cmd : Command) (i : Instr), decodeCommand cmd = .ok i → encode i = .command cmd ∧ i.wellFormed = true

/-- R65, R68: the token at the head of a stream is exactly the bytes the encoder writes for it, whatever follows; a
record is exactly its two bytes in its stream. -/
def Obligations.EncodeOfDecodedTokenAndRecord : Prop :=
  (∀ (c : Bool) (bytes : List Byte) (i : Instr) (rest : List Byte), decodeToken c bytes = .ok (i, rest) →
    ∃ head, encode i = .token c head ∧ bytes = head ++ rest ∧ i.wellFormed = true) ∧
  ∀ (stream : Stream) (b0 b1 : Byte), encode (decodeRecord stream b0 b1) = .record stream b0 b1

/-- R63, R66: the match and mask pairs of the opcode table decide which words are commands; `BF.LOAD` needs a count in
1 to 4 besides. Every other word is refused. -/
def Obligations.CommandTableDecidesDecoding : Prop :=
  ∀ cmd : Command,
    ((∃ i, decodeCommand cmd = .ok i) ↔
      ((∃ row ∈ ([(0x0000000000000000, 0xFFFFFFFFFFFFFFFF), (0x0100000000000000, 0xFFFFFFFFFFFFFFFF),
          (0x1100000000000000, 0xFFFFFFFF00000000), (0x1200000000000000, 0xFFFFFFFF00000000),
          (0x1300000000000000, 0xFFFFFFFF00000000), (0x1400000000000000, 0xFFFFFFFF00000000),
          (0x1500000000000000, 0xFFFFFFFF00000000), (0x1600000000000000, 0xFFFF0000FFFFFFFF),
          (0x2000000000000000, 0xFF80000000000000), (0x3000000000000000, 0xFF00000000000000),
          (0x3100000000000000, 0xFFFFFFFFFFFFFFFF), (0x3200000000000000, 0xFFFFFFFFFFFFFFFF),
          (0x4000000000000000, 0xFFFFFFFFFFFFFFFF), (0x4100000000000000, 0xFF00000000000000),
          (0x4200000000000000, 0xFF00000000000000)] : List (Command × Command)), cmd &&& row.2 = row.1) ∨
        (cmd &&& 0xFF7FFFF800000000 = 0x1000000000000000 ∧ 1 ≤ cmd.toNat / 2 ^ 32 % 8 ∧ cmd.toNat / 2 ^ 32 % 8 ≤ 4)))

/-- Words written out from the spec's encodings (R61, R62, R65, R68, R202) decode to what they stand for. -/
def Obligations.SpecWordsDecode : Prop :=
  decode (.command 0x1080000400000007) = .ok (.bfLoad .output 4 7) ∧
  decode (.command 0x1600071100000000) = .ok (.bfField 17 7) ∧
  decode (.command 0x2000001E00000005) = .ok (.lzRun 5 30) ∧
  decode (.command 0x3080001200000000) = .ok (.esDecode .output 0 18) ∧
  decode (.command 0x42020F883F000000) = .ok (.tcLap 1 3 904 0x3F000000) ∧
  decode (.command 0x2080001E00000000) = .error .spaceSelect ∧
  decode (.token false [0x61, 0x02]) = .ok (.lzRef 6 0x102) ∧
  decode (.token false [0x01, 0x02, 0x03]) = .ok (.lzRefx 0x102 3) ∧
  decode (.record .dpad 0xFA 0x10) = .ok (.evDpad 15 1 2 0x10)

/-! ## The step and the host's ports -/

/-- R10, R12, R25: between commands, when the host issues a word that decodes to `i`, one step is the meaning of `i`
on the state with that action taken from the queue. (That the host's actions wait in a queue which the step reads is
the model's choice: log entry 1.) -/
def Obligations.StepRunsIssuedCommand : Prop :=
  ∀ (s : State) (cmd : Command) (rest : List HostAction) (i : Instr), Settled s → Issues s cmd rest →
    decode (.command cmd) = .ok i → step s = exec i { s with host := { s.host with pending := rest } }

/-- R105 to R108 and R132: inside a run that has not reached its size, with no control bit left and a byte left in the
slice, the byte at the cursor becomes the control byte, eight bits are left, and the step goes on from there. When a
control bit is left, the run has not reached its size and the slice holds the token's bytes, one step is the meaning
of the token those bytes decode to, after the bit is used up; inside a decode, one step is the meaning of the record
at `p`. (That a step goes on from inside a run or a decode is the model's choice: log entry 2. The spec gives the
token cycle and the record loop.) -/
def Obligations.StepRunsTokenOrRecord : Prop :=
  (∀ s : State, s.esm.walk.busy = false → s.lzd.st = .run → s.lzd.out.len ≠ s.lzd.decl.toNat → s.lzd.nbits = 0 →
    s.lzd.src.toNat < s.lzd.stop.toNat →
    step s = step
      { s with lzd := { s.lzd with ctl := s.inp.read s.lzd.src.toNat, src := s.lzd.src + 1, nbits := 8 } }) ∧
  (∀ (s : State) (bytes rest : List Byte) (i : Instr), s.esm.walk.busy = false → s.lzd.st = .run →
    s.lzd.out.len ≠ s.lzd.decl.toNat → s.lzd.nbits ≠ 0 →
    bytes = s.inp.readList s.lzd.src.toNat (s.lzd.stop.toNat - s.lzd.src.toNat) →
    decodeToken s.lzd.ctl.msb bytes = .ok (i, rest) →
    step s = exec i { s with lzd := { s.lzd with ctl := s.lzd.ctl <<< 1, nbits := s.lzd.nbits - 1 } }) ∧
  ∀ (s : State) (stream : Stream), s.esm.walk.busy = true → esStreamAt s.esm = some stream →
    s.esm.walk.p + 2 ≤ s.esm.walk.len.toNat →
    step s = exec (decodeRecord stream (esByte s s.esm.walk.p) (esByte s (s.esm.walk.p + 1))) s

/-- R63, R66, R236: a word that selects no command raises `E_ILLEGAL` with `EINFO = cmd[63:32]`; nothing else changes
but the host's queue. (The queue is the model's choice: log entry 1.) -/
def Obligations.IllegalWordRaisesOnly : Prop :=
  ∀ (s : State) (cmd : Command) (rest : List HostAction) (e : DecodeError), Settled s → Issues s cmd rest →
    decodeCommand cmd = .error e →
    ∃ t, step s = .next t ∧ RaisedAs 0x01 0 (cmd.toNat / 2 ^ 32) s t ∧
      OnlyReport { s with host := { s.host with pending := rest } } t

/-- R25, R45, R260, R266: what the host's other actions do. A read changes only the answer; `HostLoadIN` replaces IN;
`HostReset` puts every item at its reset value; with nothing pending the engine waits. (The queue, that an empty queue
leaves the state as it is, and the answer register are the model's choices: log entries 1 and 3.) -/
def Obligations.HostActionsAct : Prop :=
  ∀ (s : State) (rest : List HostAction), Settled s →
    (s.host.pending = [] → step s = .next s) ∧
    (∀ no, s.host.pending = .readCSR no :: rest →
      step s = .next { s with host := { pending := rest, answer := .csr (s.readCSR no) } }) ∧
    (∀ a, s.host.pending = .readOut a :: rest →
      step s = .next
        { s with
          host := { pending := rest, answer := .byte (if a < s.lzd.out.len then s.byteAt .output a else 0) } }) ∧
    (∀ k, s.host.pending = .readEvent .face k :: rest →
      step s = .next
        { s with
          host :=
            { pending := rest
              answer := .face (if s.esm.esValid then s.esm.face.getD k { st := 0, dur := 0 } else { st := 0, dur := 0 }) } }) ∧
    (∀ k, s.host.pending = .readEvent .stick k :: rest →
      step s = .next
        { s with
          host :=
            { pending := rest
              answer :=
                .stick (if s.esm.esValid then s.esm.stick.getD k { x := 0, y := 0, dur := 0 }
                  else { x := 0, y := 0, dur := 0 }) } }) ∧
    (∀ k, s.host.pending = .readEvent .dpad k :: rest →
      step s = .next
        { s with
          host :=
            { pending := rest
              answer :=
                .dpad (if s.esm.esValid then s.esm.dpad.getD k { dir := 0, dur := 0 } else { dir := 0, dur := 0 }) } }) ∧
    (∀ bytes, s.host.pending = .loadIN bytes :: rest → bytes.length ≤ 2 ^ 32 - 1 →
      ∃ t, step s = .next t ∧ t.inp.len = bytes.length ∧ (∀ a, t.byteAt .input a = bytes.getD a 0) ∧
        t.bfx = s.bfx ∧ t.lzd = s.lzd ∧ t.esm = s.esm ∧ t.tl = s.tl ∧ t.tca = s.tca ∧ t.rep = s.rep ∧
        t.host = { s.host with pending := rest }) ∧
    (s.host.pending = .reset :: rest →
      step s = .next { State.reset with host := { s.host with pending := rest } })

/-- R16: every bit of `STATUS` is the flag, the byte count or the state its table gives. -/
def Obligations.StatusBitsAreTheFlags : Prop :=
  ∀ s : State,
    s.statusWord.getLsbD 0 = s.lzd.outValid ∧ s.statusWord.getLsbD 1 = s.esm.esValid ∧
    s.statusWord.getLsbD 2 = s.tl.valid ∧ s.statusWord.getLsbD 3 = s.tl.ended ∧
    s.statusWord.getLsbD 4 = s.tl.neutral ∧ s.statusWord.getLsbD 5 = s.tca.cy ∧
    s.statusWord.getLsbD 6 = s.tca.rangeRem ∧ s.statusWord.getLsbD 7 = s.tca.rangeDelta ∧
    s.statusWord.toNat / 2 ^ 8 % 8 = s.bfx.wn.toNat ∧
    s.statusWord.toNat / 2 ^ 11 =
      (match s.lzd.st with | .idle => 0 | .hdr => 1 | .run => 2 | .copy => 3 | .done => 4 | .fail => 5)

/-- R13: a CSR read gives 64 bits, an unsigned register zero-extended and a signed one sign-extended; a number that is in
no row reads 0. -/
def Obligations.CsrReadsExtendRegisters : Prop :=
  ∀ s : State, s.lzd.out.len < 2 ^ 33 → s.esm.face.length < 2 ^ 16 → s.esm.stick.length < 2 ^ 16 →
    s.esm.dpad.length < 2 ^ 16 →
    (∀ row ∈ [(0x00, s.statusWord.toNat), (0x01, s.rep.err.toNat), (0x02, s.rep.einfo.toNat),
        (0x03, s.rep.sticky.toNat), (0x04, s.bfx.res.toNat), (0x05, s.bfx.w.toNat), (0x10, s.lzd.out.len),
        (0x11, s.lzd.decl.toNat), (0x12, s.lzUsed.toNat), (0x20, s.esm.cntF.toNat), (0x21, s.esm.cntS.toNat),
        (0x22, s.esm.cntD.toNat), (0x23, s.esm.face.length), (0x24, s.esm.stick.length), (0x25, s.esm.dpad.length),
        (0x28, s.tl.face.toNat), (0x2B, s.tl.dpad.toNat), (0x2C, s.tl.dur.toNat), (0x2D, s.tl.count.toNat),
        (0x2E, s.tl.total.toNat), (0x30, s.tca.tMin.toNat), (0x31, s.tca.tSec.toNat)],
      (s.readCSR row.1).toNat = row.2) ∧
    (∀ row ∈ [(0x29, s.tl.x.toInt), (0x2A, s.tl.y.toInt), (0x32, s.tca.tRem.toInt), (0x33, s.tca.tDelta.toInt),
        (0x34, s.tca.acc.toInt)], (s.readCSR row.1).toInt = row.2) ∧
    ∀ no, no ∉ [0x00, 0x01, 0x02, 0x03, 0x04, 0x05, 0x10, 0x11, 0x12, 0x20, 0x21, 0x22, 0x23, 0x24, 0x25, 0x28, 0x29,
      0x2A, 0x2B, 0x2C, 0x2D, 0x2E, 0x30, 0x31, 0x32, 0x33, 0x34] → s.readCSR no = 0

/-! ## Common commands and reset -/

/-- R190: `SYS.NOP` is the all-zero word; it writes `ERR <- 0x00`; `EINFO`, `STICKY` and every unit are as before. -/
def Obligations.NopClearsErrOnly : Prop :=
  encode .sysNop = .command 0x0000000000000000 ∧
  ∀ s : State, ∃ t, exec .sysNop s = .next t ∧ Succeeded s t ∧ OnlyReport s t

/-- R191, R261: `SYS.RESET` gives every item its reset value but IN and `IN_LEN`, which it leaves as they are, and ends
with `ERR = 0x00`. -/
def Obligations.SoftResetKeepsInput : Prop :=
  encode .sysReset = .command 0x0100000000000000 ∧
  ∀ s : State, ∃ t, exec .sysReset s = .next t ∧ t = { State.reset with inp := s.inp, host := s.host } ∧
    (∀ a, t.byteAt .input a = s.byteAt .input a) ∧ t.lzd.out.len = 0 ∧ t.rep.err = 0x00#8 ∧ t.rep.sticky = 0 ∧
    t.statusWord = 0

/-- R260: the state after hardware reset, item by item. -/
def Obligations.ResetValues : Prop :=
  State.reset.bfx.w = 0 ∧ State.reset.bfx.wn = 0 ∧ State.reset.bfx.res = 0 ∧
  State.reset.rep.err = 0 ∧ State.reset.rep.einfo = 0 ∧ State.reset.rep.sticky = 0 ∧
  State.reset.lzd.st = .idle ∧ State.reset.lzd.base = 0 ∧ State.reset.lzd.stop = 0 ∧ State.reset.lzd.src = 0 ∧
  State.reset.lzd.decl = 0 ∧ State.reset.lzd.ctl = 0 ∧ State.reset.lzd.nbits = 0 ∧ State.reset.lzd.dist = 0 ∧
  State.reset.lzd.cnt = 0 ∧ State.reset.lzUsed = 0 ∧ State.reset.lzd.out.len = 0 ∧ State.reset.lzd.outValid = false ∧
  State.reset.esm.cntF = 0 ∧ State.reset.esm.cntS = 0 ∧ State.reset.esm.cntD = 0 ∧ State.reset.esm.face = [] ∧
  State.reset.esm.stick = [] ∧ State.reset.esm.dpad = [] ∧ State.reset.esm.esValid = false ∧
  (∀ cur ∈ [State.reset.tl.curF, State.reset.tl.curS, State.reset.tl.curD], cur.idx = 0 ∧ cur.used = 0) ∧
  State.reset.tl.face = 0 ∧ State.reset.tl.x = 0 ∧ State.reset.tl.y = 0 ∧ State.reset.tl.dpad = 0 ∧
  State.reset.tl.dur = 0 ∧ State.reset.tl.count = 0 ∧ State.reset.tl.total = 0 ∧ State.reset.tl.valid = false ∧
  State.reset.tl.ended = false ∧ State.reset.tl.neutral = false ∧
  State.reset.tca.tMin = 0 ∧ State.reset.tca.tSec = 0 ∧ State.reset.tca.tRem = 0 ∧ State.reset.tca.tDelta = 0 ∧
  State.reset.tca.acc = 0 ∧ State.reset.tca.cy = false ∧ State.reset.tca.rangeRem = false ∧
  State.reset.tca.rangeDelta = false ∧ State.reset.inp.len = 0 ∧ State.reset.statusWord = 0 ∧
  (∀ sp a, State.reset.byteAt sp a = 0)

/-! ## BFX -/

/-- R80, R81: `BF.LOAD` of `n` bytes inside the space puts their big-endian value into `W` and `n` into `WN`. -/
def Obligations.LoadNormalisesBytes : Prop :=
  ∀ (s : State) (sp : Sp) (n : BitVec 3) (addr : BitVec 32), 1 ≤ n.toNat → n.toNat ≤ 4 →
    addr.toNat + n.toNat ≤ (s.space sp).len →
    ∃ t, exec (.bfLoad sp n addr) s = .next t ∧
      t.bfx.w.toNat =
        ∑ j ∈ Finset.range n.toNat, (s.byteAt sp (addr.toNat + j)).toNat * 2 ^ (8 * (n.toNat - 1 - j)) ∧
      t.bfx.wn = n ∧ t.bfx.res = s.bfx.res ∧ Succeeded s t ∧ OnlyBfx s t

/-- R81, R233: `BF.LOAD` with a count outside 1 to 4 raises `E_ILLEGAL(cmd[63:32])`; with bytes that are not all inside
the space it raises `E_BF_TRUNC(addr)`, the sum made without wrapping; nothing else changes. -/
def Obligations.LoadErrorsChangeNothing : Prop :=
  ∀ (s : State) (sp : Sp) (n : BitVec 3) (addr : BitVec 32),
    (n.toNat < 1 ∨ 4 < n.toNat → ∃ t, exec (.bfLoad sp n addr) s = .next t ∧
      RaisedAs 0x01 0 (0x10 * 2 ^ 24 + (if sp = .output then 2 ^ 23 else 0) + n.toNat) s t ∧ OnlyReport s t) ∧
    (1 ≤ n.toNat → n.toNat ≤ 4 → (s.space sp).len < addr.toNat + n.toNat →
      ∃ t, exec (.bfLoad sp n addr) s = .next t ∧ RaisedAs 0x11 1 addr.toNat s t ∧ OnlyReport s t)

/-- R82 to R84, R87: the four read commands, with their encodings, write `RES` with the bit, the byte, the half and the
field of `W` that the rules give, for every index, and change nothing else. -/
def Obligations.ReadsExtractFromWord : Prop :=
  (∀ (idx : BitVec 32) (lo wid : BitVec 8), encode (.bfBit idx) = .command (0x11#8 ++ 0#24 ++ idx) ∧
    encode (.bfByte idx) = .command (0x12#8 ++ 0#24 ++ idx) ∧
    encode (.bfWord idx) = .command (0x13#8 ++ 0#24 ++ idx) ∧
    encode (.bfField lo wid) = .command (0x16#8 ++ 0#8 ++ wid ++ lo ++ 0#32)) ∧
  ∀ s : State,
    (∀ idx : BitVec 32, ∃ t, exec (.bfBit idx) s = .next t ∧
      t.bfx.res.toNat = (if idx.toNat < 32 then s.bfx.w.toNat / 2 ^ idx.toNat % 2 else 0) ∧
      t.bfx.w = s.bfx.w ∧ t.bfx.wn = s.bfx.wn ∧ Succeeded s t ∧ OnlyBfx s t) ∧
    (∀ idx : BitVec 32, ∃ t, exec (.bfByte idx) s = .next t ∧
      t.bfx.res.toNat = (if idx.toNat < 4 then s.bfx.w.toNat / 2 ^ (24 - 8 * idx.toNat) % 2 ^ 8 else 0) ∧
      t.bfx.w = s.bfx.w ∧ t.bfx.wn = s.bfx.wn ∧ Succeeded s t ∧ OnlyBfx s t) ∧
    (∀ idx : BitVec 32, ∃ t, exec (.bfWord idx) s = .next t ∧
      t.bfx.res.toNat =
        (if idx.toNat = 0 then s.bfx.w.toNat / 2 ^ 16 else if idx.toNat = 1 then s.bfx.w.toNat % 2 ^ 16 else 0) ∧
      t.bfx.w = s.bfx.w ∧ t.bfx.wn = s.bfx.wn ∧ Succeeded s t ∧ OnlyBfx s t) ∧
    ∀ lo wid : BitVec 8, ∃ t, exec (.bfField lo wid) s = .next t ∧
      t.bfx.res.toNat =
        (if wid.toNat < 32 then (if lo.toNat < 32 then s.bfx.w.toNat / 2 ^ lo.toNat else 0) % 2 ^ wid.toNat
         else if lo.toNat < 32 then s.bfx.w.toNat / 2 ^ lo.toNat else 0) ∧
      t.bfx.w = s.bfx.w ∧ t.bfx.wn = s.bfx.wn ∧ Succeeded s t ∧ OnlyBfx s t

/-- R85, R86: the shifts with their encodings, for every distance: bits that fall off are lost, from distance 32 on all
of them. -/
def Obligations.ShiftsMoveWord : Prop :=
  ∀ (s : State) (d : BitVec 32),
    encode (.bfShl d) = .command (0x14#8 ++ 0#24 ++ d) ∧ encode (.bfShr d) = .command (0x15#8 ++ 0#24 ++ d) ∧
    (∃ t, exec (.bfShl d) s = .next t ∧
      t.bfx.w.toNat = (if d.toNat < 32 then s.bfx.w.toNat * 2 ^ d.toNat % 2 ^ 32 else 0) ∧
      t.bfx.wn = s.bfx.wn ∧ t.bfx.res = s.bfx.res ∧ Succeeded s t ∧ OnlyBfx s t) ∧
    ∃ t, exec (.bfShr d) s = .next t ∧
      t.bfx.w.toNat = (if d.toNat < 32 then s.bfx.w.toNat / 2 ^ d.toNat else 0) ∧
      t.bfx.wn = s.bfx.wn ∧ t.bfx.res = s.bfx.res ∧ Succeeded s t ∧ OnlyBfx s t

/-- R91 (a), (b): after a load of `n` bytes, chunk `4 - n + j` is byte `j`, and bit `8 * (n - 1 - j) + k` is bit `k` of
byte `j`. -/
def Obligations.LoadThenReadGivesBytesBack : Prop :=
  ∀ (s t : State) (sp : Sp) (n : BitVec 3) (addr : BitVec 32) (j : Nat), 1 ≤ n.toNat → n.toNat ≤ 4 → j < n.toNat →
    addr.toNat + n.toNat ≤ (s.space sp).len → exec (.bfLoad sp n addr) s = .next t →
    (∃ u, exec (.bfByte (BitVec.ofNat 32 (4 - n.toNat + j))) t = .next u ∧
      u.bfx.res.toNat = (s.byteAt sp (addr.toNat + j)).toNat) ∧
    ∀ k, k < 8 → ∃ u, exec (.bfBit (BitVec.ofNat 32 (8 * (n.toNat - 1 - j) + k))) t = .next u ∧
      (u.bfx.res = 1 ↔ (s.byteAt sp (addr.toNat + j)).getLsbD k = true)

/-- R91 (d), (e): two shifts in one direction are the shift by the sum, when the sum is a distance; a left shift and
then a right shift by the same distance clears the top `min(d, 32)` bits and keeps the rest. -/
def Obligations.ShiftsCompose : Prop :=
  (∀ (s t u v : State) (a b : BitVec 32), a.toNat + b.toNat < 2 ^ 32 →
    exec (.bfShl a) s = .next t → exec (.bfShl b) t = .next u → exec (.bfShl (a + b)) s = .next v → u = v) ∧
  (∀ (s t u v : State) (a b : BitVec 32), a.toNat + b.toNat < 2 ^ 32 →
    exec (.bfShr a) s = .next t → exec (.bfShr b) t = .next u → exec (.bfShr (a + b)) s = .next v → u = v) ∧
  ∀ (s t u : State) (d : BitVec 32), exec (.bfShl d) s = .next t → exec (.bfShr d) t = .next u →
    u.bfx.w.toNat = s.bfx.w.toNat % 2 ^ (32 - min d.toNat 32)

/-- R90: with `BF_CHUNK_ORIGIN = SOURCE`, after a fresh load chunk `j` is byte `j`, and a half is two such chunks; both
readings agree after a load of 4 bytes. -/
def Obligations.SourceOriginCountsLoadedBytes : Prop :=
  ∀ (c : Config) (bytes : List Byte) (res : BitVec 32), c.chunkOrigin = .source → 1 ≤ bytes.length →
    bytes.length ≤ 4 →
    let b : Bfx := { w := normWord bytes, wn := BitVec.ofNat 3 bytes.length, res := res }
    (∀ j, (byteChunk c b j).toNat = (bytes.getD j 0).toNat) ∧
    (∀ j, (wordChunk c b j).toNat = (bytes.getD (2 * j) 0).toNat * 256 + (bytes.getD (2 * j + 1) 0).toNat) ∧
    (bytes.length = 4 → ∀ j, byteChunk c b j = byteOfWord b.w j ∧ wordChunk c b j = halfOfWord b.w j)

/-! ## LZD -/

/-- R100, R112 to R114, R238: from any state, `LZ.RUN` ends with success or with one error. On success `OUT_VALID = 1`
and OUT holds `LZ_DECL` bytes; on an error OUT is empty and the code is one of LZD's. Nothing but LZD and the error
registers changes, and IN is not written. -/
def Obligations.RunEndsDoneOrFailed : Prop :=
  ∀ (s : State) (addr : BitVec 32) (len : BitVec 23), ∃ t, exec (.lzRun addr len) s = .next t ∧ OnlyLzd s t ∧
    ((t.lzd.st = .done ∧ t.lzd.outValid = true ∧ t.lzd.out.len = t.lzd.decl.toNat ∧ Succeeded s t) ∨
     (t.lzd.st = .fail ∧ t.lzd.outValid = false ∧ t.lzd.out.len = 0 ∧
       ∃ row ∈ ([(0x21, 2), (0x22, 3), (0x23, 4), (0x24, 5), (0x25, 6)] : List (BitVec 8 × Nat)),
         RaisedAs row.1 row.2 t.rep.einfo.toNat s t))

/-- R64, R65, R101 to R113: `LZ.RUN` expands. When IN holds, at `addr` and inside the slice, a block whose token stream
packs the tokens `toks`, whose declared size is the length of what they stand for, then OUT is what they stand for,
whatever the reserved bytes are and whatever follows the block. -/
def Obligations.RunExpandsTokens : Prop :=
  ∀ (s : State) (addr : BitVec 32) (len : BitVec 23) (reserved out : List Byte) (toks : List Instr),
    (∀ i ∈ toks, i.kind = .token ∧ i.wellFormed = true) → expandTokens toks [] = some out → out.length < 2 ^ 32 →
    reserved.length = 16 → (compressedBlock out.length reserved toks).length ≤ len.toNat →
    addr.toNat + len.toNat ≤ s.inp.len →
    (∀ j, j < (compressedBlock out.length reserved toks).length →
      s.byteAt .input (addr.toNat + j) = (compressedBlock out.length reserved toks).getD j 0) →
    ∃ t, exec (.lzRun addr len) s = .next t ∧ OnlyLzd s t ∧ Succeeded s t ∧
      t.lzd.st = .done ∧ t.lzd.outValid = true ∧ t.lzd.decl.toNat = out.length ∧ t.lzd.out.len = out.length ∧
      (∀ a, t.byteAt .output a = out.getD a 0) ∧ t.lzUsed.toNat = (compressedBlock out.length reserved toks).length

/-- R102, R103, R112, R237: the errors of the header, in the order of its steps. The slice outside IN; fewer than 4
bytes; another magic; fewer than 8 bytes; fewer than 24 bytes. No byte of the block counts as consumed: `LZ_USED` is
0. -/
def Obligations.RunHeaderErrorsInOrder : Prop :=
  ∀ (s : State) (addr : BitVec 32) (len : BitVec 23), ∃ t, exec (.lzRun addr len) s = .next t ∧
    (if s.inp.len < addr.toNat + len.toNat then RaisedAs 0x22 3 s.inp.len s t ∧ t.lzUsed = 0
     else if len.toNat < 4 then RaisedAs 0x22 3 len.toNat s t ∧ t.lzUsed = 0
     else if [s.byteAt .input addr.toNat, s.byteAt .input (addr.toNat + 1), s.byteAt .input (addr.toNat + 2),
         s.byteAt .input (addr.toNat + 3)] ≠ [0x59, 0x61, 0x7A, 0x31] then RaisedAs 0x21 2 0 s t ∧ t.lzUsed = 0
     else if len.toNat < 24 then RaisedAs 0x22 3 len.toNat s t ∧ t.lzUsed = 0
     else t.lzd.decl.toNat =
       (s.byteAt .input (addr.toNat + 4)).toNat * 2 ^ 24 + (s.byteAt .input (addr.toNat + 5)).toNat * 2 ^ 16 +
         (s.byteAt .input (addr.toNat + 6)).toNat * 2 ^ 8 + (s.byteAt .input (addr.toNat + 7)).toNat)

/-- R107: `LZ.LIT` with its byte in the slice appends the byte to OUT and moves the cursor by one; the byte stored is
at `OUT_LEN` and every other byte of OUT reads as before. (R107 speaks of state `RUN` with `OUT_LEN` below `LZ_DECL`.
That the token does the same in every other state, in which the engine takes none, is the model's choice: log entry
13.) -/
def Obligations.LiteralAppendsByte : Prop :=
  ∀ (s : State) (v : Byte), s.lzd.out.wf = true → s.lzd.src.toNat < s.lzd.stop.toNat →
    ∃ t, exec (.lzLit v) s = .next t ∧ OnlyLzd s t ∧ t.rep = s.rep ∧
      t.lzd = { s.lzd with out := t.lzd.out, src := t.lzd.src } ∧ t.lzd.src.toNat = s.lzd.src.toNat + 1 ∧
      t.lzd.out.len = s.lzd.out.len + 1 ∧
      ∀ a, t.byteAt .output a = if a = s.lzd.out.len then v else s.byteAt .output a

/-- R108, R110, R111: `LZ.REF` inside the slice, with `d + 1` bytes of output behind it and room for `n + 2`, copies
`n + 2` bytes one by one from `d + 1` behind the cursor: byte `j` of the copy is the byte `d + 1` before it, which
repeats the last `d + 1` bytes when the copy overlaps. -/
def Obligations.ReferenceCopiesBehind : Prop :=
  ∀ (s : State) (n : BitVec 4) (d : BitVec 12), n ≠ 0 → s.lzd.st = .run → s.lzd.out.wf = true →
    s.lzd.src.toNat + 2 ≤ s.lzd.stop.toNat → d.toNat + 1 ≤ s.lzd.out.len →
    s.lzd.out.len + (n.toNat + 2) ≤ s.lzd.decl.toNat →
    ∃ t, exec (.lzRef n d) s = .next t ∧ OnlyLzd s t ∧ t.rep = s.rep ∧
      t.lzd = { s.lzd with out := t.lzd.out, src := t.lzd.src, dist := d, cnt := 0 } ∧
      t.lzd.src.toNat = s.lzd.src.toNat + 2 ∧ t.lzd.out.len = s.lzd.out.len + (n.toNat + 2) ∧
      (∀ a, a < s.lzd.out.len → t.byteAt .output a = s.byteAt .output a) ∧
      (∀ j, j < n.toNat + 2 →
        t.byteAt .output (s.lzd.out.len + j) =
          s.byteAt .output (s.lzd.out.len - (d.toNat + 1) + j % (d.toNat + 1)))

/-- R108 to R111: `LZ.REFX`, the long form: three bytes of stream, `l + 0x12` bytes copied. -/
def Obligations.LongReferenceCopiesBehind : Prop :=
  ∀ (s : State) (d : BitVec 12) (l : Byte), s.lzd.st = .run → s.lzd.out.wf = true →
    s.lzd.src.toNat + 3 ≤ s.lzd.stop.toNat → d.toNat + 1 ≤ s.lzd.out.len →
    s.lzd.out.len + (l.toNat + 0x12) ≤ s.lzd.decl.toNat →
    ∃ t, exec (.lzRefx d l) s = .next t ∧ OnlyLzd s t ∧ t.rep = s.rep ∧
      t.lzd = { s.lzd with out := t.lzd.out, src := t.lzd.src, dist := d, cnt := 0 } ∧
      t.lzd.src.toNat = s.lzd.src.toNat + 3 ∧ t.lzd.out.len = s.lzd.out.len + (l.toNat + 0x12) ∧
      (∀ a, a < s.lzd.out.len → t.byteAt .output a = s.byteAt .output a) ∧
      (∀ j, j < l.toNat + 0x12 →
        t.byteAt .output (s.lzd.out.len + j) =
          s.byteAt .output (s.lzd.out.len - (d.toNat + 1) + j % (d.toNat + 1)))

/-- R105, R107 to R112: where a token raises. A byte of the token missing: `E_LZ_TRUNC` at the cursor, of which a long
reference has consumed two bytes when only its extension byte is missing; a distance beyond the output: `E_LZ_BACKREF`
just after the token; a copy beyond the declared size: `E_LZ_LENGTH` just after the token. A step inside a run whose
control byte is missing, or whose slice does not hold the token's bytes, raises `E_LZ_TRUNC` likewise. Each time OUT
is emptied and `LZ_USED` reads the same offset as `EINFO`. (That a step goes on from inside a run is the model's
choice: log entry 2. R107 to R112 speak of state `RUN`; that the three tokens raise in the same way in every other
state, in which the engine takes none, is the model's choice: log entry 13.) -/
def Obligations.TokenErrors : Prop :=
  ∀ (s : State), s.lzd.base.toNat ≤ s.lzd.src.toNat → s.lzd.src.toNat ≤ s.lzd.stop.toNat →
    s.lzd.stop.toNat < 2 ^ 33 - 3 → s.lzd.out.len ≤ s.lzd.decl.toNat →
    (∀ v : Byte, s.lzd.src.toNat = s.lzd.stop.toNat →
      ∃ t, exec (.lzLit v) s = .next t ∧ OnlyLzd s t ∧ t.lzd.st = .fail ∧ t.lzd.out = {} ∧
        RaisedAs 0x22 3 (s.lzd.src.toNat - s.lzd.base.toNat) s t ∧
        t.lzUsed.toNat = s.lzd.src.toNat - s.lzd.base.toNat) ∧
    (∀ (n : BitVec 4) (d : BitVec 12), n ≠ 0 → ∃ t, exec (.lzRef n d) s = .next t ∧ OnlyLzd s t ∧
      (s.lzd.stop.toNat < s.lzd.src.toNat + 2 → t.lzd.st = .fail ∧ t.lzd.out = {} ∧
        RaisedAs 0x22 3 (s.lzd.src.toNat - s.lzd.base.toNat) s t ∧
        t.lzUsed.toNat = s.lzd.src.toNat - s.lzd.base.toNat) ∧
      (s.lzd.src.toNat + 2 ≤ s.lzd.stop.toNat → s.lzd.out.len < d.toNat + 1 → t.lzd.st = .fail ∧ t.lzd.out = {} ∧
        RaisedAs 0x23 4 (s.lzd.src.toNat + 2 - s.lzd.base.toNat) s t ∧
        t.lzUsed.toNat = s.lzd.src.toNat + 2 - s.lzd.base.toNat) ∧
      (s.lzd.src.toNat + 2 ≤ s.lzd.stop.toNat → d.toNat + 1 ≤ s.lzd.out.len →
        s.lzd.decl.toNat < s.lzd.out.len + (n.toNat + 2) → t.lzd.st = .fail ∧ t.lzd.out = {} ∧
        RaisedAs 0x24 5 (s.lzd.src.toNat + 2 - s.lzd.base.toNat) s t ∧
        t.lzUsed.toNat = s.lzd.src.toNat + 2 - s.lzd.base.toNat)) ∧
    (∀ (d : BitVec 12) (l : Byte), ∃ t, exec (.lzRefx d l) s = .next t ∧ OnlyLzd s t ∧
      (s.lzd.stop.toNat < s.lzd.src.toNat + 2 → t.lzd.st = .fail ∧ t.lzd.out = {} ∧
        RaisedAs 0x22 3 (s.lzd.src.toNat - s.lzd.base.toNat) s t ∧
        t.lzUsed.toNat = s.lzd.src.toNat - s.lzd.base.toNat) ∧
      (s.lzd.src.toNat + 2 = s.lzd.stop.toNat → t.lzd.st = .fail ∧ t.lzd.out = {} ∧
        RaisedAs 0x22 3 (s.lzd.src.toNat + 2 - s.lzd.base.toNat) s t ∧
        t.lzUsed.toNat = s.lzd.src.toNat + 2 - s.lzd.base.toNat) ∧
      (s.lzd.src.toNat + 3 ≤ s.lzd.stop.toNat → s.lzd.out.len < d.toNat + 1 → t.lzd.st = .fail ∧ t.lzd.out = {} ∧
        RaisedAs 0x23 4 (s.lzd.src.toNat + 3 - s.lzd.base.toNat) s t ∧
        t.lzUsed.toNat = s.lzd.src.toNat + 3 - s.lzd.base.toNat) ∧
      (s.lzd.src.toNat + 3 ≤ s.lzd.stop.toNat → d.toNat + 1 ≤ s.lzd.out.len →
        s.lzd.decl.toNat < s.lzd.out.len + (l.toNat + 0x12) → t.lzd.st = .fail ∧ t.lzd.out = {} ∧
        RaisedAs 0x24 5 (s.lzd.src.toNat + 3 - s.lzd.base.toNat) s t ∧
        t.lzUsed.toNat = s.lzd.src.toNat + 3 - s.lzd.base.toNat)) ∧
    (s.esm.walk.busy = false → s.lzd.st = .run → s.lzd.out.len ≠ s.lzd.decl.toNat → s.lzd.nbits = 0 →
      s.lzd.src.toNat = s.lzd.stop.toNat →
      ∃ t, step s = .next t ∧ OnlyLzd s t ∧ t.lzd.st = .fail ∧ t.lzd.out = {} ∧
        RaisedAs 0x22 3 (s.lzd.src.toNat - s.lzd.base.toNat) s t ∧
        t.lzUsed.toNat = s.lzd.src.toNat - s.lzd.base.toNat) ∧
    ∀ (bytes : List Byte) (e : DecodeError), s.esm.walk.busy = false → s.lzd.st = .run →
      s.lzd.out.len ≠ s.lzd.decl.toNat → s.lzd.nbits ≠ 0 →
      bytes = s.inp.readList s.lzd.src.toNat (s.lzd.stop.toNat - s.lzd.src.toNat) →
      decodeToken s.lzd.ctl.msb bytes = .error e →
      ∃ t used, step s = .next t ∧ OnlyLzd s t ∧ t.lzd.st = .fail ∧ t.lzd.out = {} ∧ RaisedAs 0x22 3 used s t ∧
        t.lzUsed.toNat = used ∧
        used = (if bytes.length = 2 then s.lzd.src.toNat + 2 else s.lzd.src.toNat) - s.lzd.base.toNat

/-- R101, R104 to R111: `LZ.RUN` is its own state machine run step by step: from the state after the header, some
number of machine steps, each a token cycle, gives what the one step of `LZ.RUN` gives. (The token cycle as a step of
its own is the model's choice: log entry 2.) -/
def Obligations.RunIsIteratedTokenCycles : Prop :=
  ∀ (s : State) (addr : BitVec 32) (len : BitVec 23), s.esm.walk.busy = false →
    ∃ k t, exec (.lzRun addr len) s = .next t ∧ k ≤ len.toNat + 1 ∧
      Host.Core.run Sys2Proof.core k (lzBegin engine addr len s) = .next t

/-! ## ESM, the decoder -/

/-- R130, R140, R238: from any state, `ES.DECODE` ends with success and `ES_VALID = 1`, or with one error of ESM, the
three arrays empty and `ES_VALID = 0`. The merger is restarted either way (R139); OUT, W and TCA stay. -/
def Obligations.DecodeFillsOrEmptiesArrays : Prop :=
  ∀ (s : State) (sp : Sp) (addr : BitVec 32) (len : BitVec 23), ∃ t, exec (.esDecode sp addr len) s = .next t ∧
    OnlyEsm s t ∧ t.tl = {} ∧ t.esm.walk = {} ∧
    ((t.esm.esValid = true ∧ Succeeded s t) ∨
     (t.esm.esValid = false ∧ t.esm.face = [] ∧ t.esm.stick = [] ∧ t.esm.dpad = [] ∧
       ∃ row ∈ ([(0x31, 7), (0x32, 8), (0x33, 9), (0x34, 10)] : List (BitVec 8 × Nat)),
         RaisedAs row.1 row.2 t.rep.einfo.toNat s t))

/-- R131 to R138: when the region lies inside its space, holds its 8 leading bytes and all the records it counts, and
every record is legal, `ES.DECODE` succeeds; the counts are the big-endian counts of the region, DPAD has one entry per
record in order, and FACE and STICK have the merged entries in order. -/
def Obligations.DecodeOfLegalRegionSucceeds : Prop :=
  ∀ (s : State) (sp : Sp) (addr : BitVec 32) (len : BitVec 23),
    addr.toNat + len.toNat ≤ (s.space sp).len → 8 + 2 * regionRecords s sp addr ≤ len.toNat → RecordsLegal s sp addr →
    ∃ t, exec (.esDecode sp addr len) s = .next t ∧ OnlyEsm s t ∧ Succeeded s t ∧ t.esm.esValid = true ∧
      t.esm.cntF.toNat = regionCount s sp addr 0 ∧ t.esm.cntS.toNat = regionCount s sp addr 2 ∧
      t.esm.cntD.toNat = regionCount s sp addr 4 ∧
      t.esm.face =
        ((List.range (regionCount s sp addr 0)).map fun k =>
          ({ st := recordState s sp addr k, dur := BitVec.ofNat 32 (plainFrames s sp addr k) } : FaceEvent)).foldl
          pushFace [] ∧
      t.esm.stick =
        ((List.range (regionCount s sp addr 2)).map fun j =>
          let k := regionCount s sp addr 0 + j
          ({ x := BitVec.ofInt 4 (((recordState s sp addr k).toNat / 16 : Nat) - 7)
             y := BitVec.ofInt 4 (((recordState s sp addr k).toNat % 16 : Nat) - 7)
             dur := BitVec.ofNat 32 (plainFrames s sp addr k) } : StickEvent)).foldl pushStick [] ∧
      t.esm.dpad =
        (List.range (regionCount s sp addr 4)).map fun j =>
          let k := regionCount s sp addr 0 + regionCount s sp addr 2 + j
          ({ dir := BitVec.ofNat 3 ((recordState s sp addr k).toNat % 8)
             dur := BitVec.ofNat 32 (dpadFrames s sp addr k) } : DpadEvent)

/-- R141 (a): after a successful decode the durations of each array sum to the durations of the records of its stream:
merging moves frames, it neither adds nor loses any. -/
def Obligations.DecodeKeepsFrames : Prop :=
  ∀ (s t : State) (sp : Sp) (addr : BitVec 32) (len : BitVec 23), exec (.esDecode sp addr len) s = .next t →
    t.esm.esValid = true →
    totalDur (t.esm.face.map FaceEvent.dur) =
      ((List.range (regionCount s sp addr 0)).map fun k => plainFrames s sp addr k).sum ∧
    totalDur (t.esm.stick.map StickEvent.dur) =
      ((List.range (regionCount s sp addr 2)).map fun j => plainFrames s sp addr (regionCount s sp addr 0 + j)).sum ∧
    totalDur (t.esm.dpad.map DpadEvent.dur) =
      ((List.range (regionCount s sp addr 4)).map fun j =>
        dpadFrames s sp addr (regionCount s sp addr 0 + regionCount s sp addr 2 + j)).sum

/-- R141 (b): after a successful decode no two neighbouring entries of FACE have the same state and no two neighbouring
entries of STICK have the same coordinates. -/
def Obligations.DecodeMergesNeighbours : Prop :=
  ∀ (s t : State) (sp : Sp) (addr : BitVec 32) (len : BitVec 23), exec (.esDecode sp addr len) s = .next t →
    t.esm.esValid = true →
    (∀ k a b, t.esm.face[k]? = some a → t.esm.face[k + 1]? = some b → a.st ≠ b.st) ∧
    ∀ k a b, t.esm.stick[k]? = some a → t.esm.stick[k + 1]? = some b → ¬(a.x = b.x ∧ a.y = b.y)

/-- R46, R132, R140: a region outside its space raises `E_ES_TRUNC` with the length of the space, a region of fewer
than 8 bytes with its own length. A region that ends before the second byte of record `k`, all earlier records being
legal, raises it with that record's offset `8 + 2k`; the arrays are then empty and the counts are the region's. The
last clause says the same of one record. (The record as a step of its own is the model's choice: log entry 2.) -/
def Obligations.DecodeShortRegionRaises : Prop :=
  (∀ (s : State) (sp : Sp) (addr : BitVec 32) (len : BitVec 23),
    ((s.space sp).len < addr.toNat + len.toNat →
      ∃ t, exec (.esDecode sp addr len) s = .next t ∧ RaisedAs 0x31 7 (s.space sp).len s t ∧ t.esm = {}) ∧
    (addr.toNat + len.toNat ≤ (s.space sp).len → len.toNat < 8 →
      ∃ t, exec (.esDecode sp addr len) s = .next t ∧ RaisedAs 0x31 7 len.toNat s t ∧ t.esm = {}) ∧
    ∀ k, addr.toNat + len.toNat ≤ (s.space sp).len → k < regionRecords s sp addr → 8 + 2 * k ≤ len.toNat →
      len.toNat < 8 + 2 * k + 2 → RecordsLegalBelow s sp addr k →
      ∃ t, exec (.esDecode sp addr len) s = .next t ∧ OnlyEsm s t ∧ RaisedAs 0x31 7 (8 + 2 * k) s t ∧ t.tl = {} ∧
        t.esm = { cntF := t.esm.cntF, cntS := t.esm.cntS, cntD := t.esm.cntD } ∧
        t.esm.cntF.toNat = regionCount s sp addr 0 ∧ t.esm.cntS.toNat = regionCount s sp addr 2 ∧
        t.esm.cntD.toNat = regionCount s sp addr 4) ∧
  ∀ (s : State) (stream : Stream), s.esm.walk.busy = true → esStreamAt s.esm = some stream →
    s.esm.walk.len.toNat < s.esm.walk.p + 2 →
    ∃ t, step s = .next t ∧ OnlyEsm s t ∧ RaisedAs 0x31 7 s.esm.walk.p s t ∧ t.tl = s.tl ∧
      t.esm = { s.esm with face := [], stick := [], dpad := [], esValid := false, walk := {} }

/-- R134, R135: the meaning of a face record is the face record rule under the engine's configuration. Under every
configuration the rule adds the frames of a legal byte: to the last entry when that has the same state, else as a new
entry; a byte outside `FACE_LEGAL` raises `E_ES_FACE(p)` and empties the arrays. (`FACE_LEGAL` is open, so the clauses
are stated for every set it may be.) (The duration of a merged entry is a sum of 32 bits. The spec shows that it fits
for what a decode can hold; that it wraps in a built state where it does not is the model's: log entry 12. That a
record has a meaning of its own is log entries 4 and 13.) -/
def Obligations.FaceRecordAddsFrames : Prop :=
  ∀ (s : State) (b0 b1 : Byte), exec (.evFace b0 b1) s = .next (esFaceRecord engine b0 b1 s) ∧
    ∀ (c : Config) (t : State), esFaceRecord c b0 b1 s = t →
      OnlyEsm s t ∧ t.tl = s.tl ∧
      (c.faceLegal b0 = true →
        t.rep = s.rep ∧
        t.esm = { s.esm with face := t.esm.face, walk := { s.esm.walk with p := s.esm.walk.p + 2 } } ∧
        (∀ front last, s.esm.face = front ++ [last] → last.st = b0 →
          t.esm.face = front ++ [{ st := b0, dur := last.dur + BitVec.ofNat 32 b1.toNat }]) ∧
        ((∀ front last, s.esm.face = front ++ [last] → last.st ≠ b0) →
          t.esm.face = s.esm.face ++ [{ st := b0, dur := BitVec.ofNat 32 b1.toNat }])) ∧
      (c.faceLegal b0 = false →
        RaisedAs 0x32 8 s.esm.walk.p s t ∧
        t.esm = { s.esm with face := [], stick := [], dpad := [], esValid := false, walk := {} })

/-- R68, R136, R137: a stick record, `x` in the high nibble of its first byte, with both nibbles below 15 adds its
frames at `(x - 7, y - 7)`, merged with the last entry when that has the same coordinates; a nibble 15 raises
`E_ES_STICK(p)` and empties the arrays. (The duration of a merged entry is a sum of 32 bits. The spec shows that it
fits for what a decode can hold; that it wraps in a built state where it does not is the model's: log entry 12. That a
record has a meaning of its own is log entries 4 and 13.) -/
def Obligations.StickRecordAddsFrames : Prop :=
  ∀ (s : State) (x y : BitVec 4) (b1 : Byte), encode (.evStick x y b1) = .record .stick (x ++ y) b1 ∧
    ∃ t, exec (.evStick x y b1) s = .next t ∧ OnlyEsm s t ∧ t.tl = s.tl ∧
    (x.toNat < 15 → y.toNat < 15 →
      ∃ e : StickEvent, e.x.toInt = (x.toNat : Int) - 7 ∧ e.y.toInt = (y.toNat : Int) - 7 ∧ e.dur.toNat = b1.toNat ∧
        t.rep = s.rep ∧
        t.esm = { s.esm with stick := t.esm.stick, walk := { s.esm.walk with p := s.esm.walk.p + 2 } } ∧
        (∀ front last, s.esm.stick = front ++ [last] → last.x = e.x → last.y = e.y →
          t.esm.stick = front ++ [{ last with dur := last.dur + e.dur }]) ∧
        ((∀ front last, s.esm.stick = front ++ [last] → ¬(last.x = e.x ∧ last.y = e.y)) →
          t.esm.stick = s.esm.stick ++ [e])) ∧
    (x.toNat = 15 ∨ y.toNat = 15 →
      RaisedAs 0x33 9 s.esm.walk.p s t ∧
      t.esm = { s.esm with face := [], stick := [], dpad := [], esValid := false, walk := {} })

/-- R68, R138: a dpad record `eeeeiddd tttttttt` adds one entry, never merged: direction `d`, `e * 256 + t` frames,
the ignored bit ignored. (That a record has a meaning of its own, moves the offset `p` as a part of the state, and
does so outside a decode too, where the engine takes none, is the model's choice: log entries 4 and 13.) -/
def Obligations.DpadRecordAddsEntry : Prop :=
  ∀ (s : State) (e : BitVec 4) (i : BitVec 1) (d : BitVec 3) (b1 : Byte),
    encode (.evDpad e i d b1) = .record .dpad (e ++ i ++ d) b1 ∧
    ∃ t, exec (.evDpad e i d b1) s = .next t ∧ OnlyEsm s t ∧ t.tl = s.tl ∧ t.rep = s.rep ∧
      t.esm = { s.esm with dpad := t.esm.dpad, walk := { s.esm.walk with p := s.esm.walk.p + 2 } } ∧
      ∃ entry : DpadEvent, t.esm.dpad = s.esm.dpad ++ [entry] ∧ entry.dir = d ∧
        entry.dur.toNat = e.toNat * 256 + b1.toNat

/-- R132: `ES.DECODE` is its own record loop run step by step: from the state after the counts are read, some number
of machine steps, each a record, gives what the one step of `ES.DECODE` gives. (The record as a step of its own is the
model's choice: log entry 2.) -/
def Obligations.DecodeIsIteratedRecords : Prop :=
  ∀ (s : State) (sp : Sp) (addr : BitVec 32) (len : BitVec 23),
    ∃ k t, exec (.esDecode sp addr len) s = .next t ∧
      Host.Core.run Sys2Proof.core k (esBegin sp addr len s) = .next t

/-! ## ESM, the merger -/

/-- R151: `TL.RESTART`, with its encoding. With decoded streams it puts every cursor, entry register, counter and flag of
the merger at 0, from any point of a walk; the arrays are not touched. With none it raises `E_TL_NOSTREAMS(0)` and
changes nothing else. -/
def Obligations.RestartRewinds : Prop :=
  encode .tlRestart = .command 0x3100000000000000 ∧
  ∀ s : State,
    (s.esm.esValid = true → ∃ t, exec .tlRestart s = .next t ∧
      (∀ cur ∈ [t.tl.curF, t.tl.curS, t.tl.curD], cur.idx = 0 ∧ cur.used = 0) ∧
      t.tl.face = 0 ∧ t.tl.x = 0 ∧ t.tl.y = 0 ∧ t.tl.dpad = 0 ∧ t.tl.dur = 0 ∧ t.tl.valid = false ∧
      t.tl.ended = false ∧ t.tl.neutral = false ∧ t.tl.count = 0 ∧ t.tl.total = 0 ∧ Succeeded s t ∧
      OnlyMerger s t) ∧
    (s.esm.esValid = false → ∃ t, exec .tlRestart s = .next t ∧ RaisedAs 0x35 11 0 s t ∧ OnlyReport s t)

/-- R152: with no streams decoded `TL.NEXT` raises `E_TL_NOSTREAMS(0)` and changes nothing else. -/
def Obligations.NoStreamsRaises : Prop :=
  ∀ s : State, s.esm.esValid = false →
    ∃ t, exec .tlNext s = .next t ∧ RaisedAs 0x35 11 0 s t ∧ OnlyReport s t

/-- R152, R153 step 2: with all three streams exhausted `TL.NEXT` sets `TL_DONE`, clears `TL_VALID` and leaves the rest of
the merger as it is. (The spec calls a stream exhausted when its index equals its entry count. That one whose index lies
beyond it, which no run reaches, counts as exhausted too is the model's reading: log entry 11.) -/
def Obligations.NextAtEndSetsDone : Prop :=
  ∀ s : State, s.esm.esValid = true → s.esm.face.length ≤ s.tl.curF.idx.toNat →
    s.esm.stick.length ≤ s.tl.curS.idx.toNat → s.esm.dpad.length ≤ s.tl.curD.idx.toNat →
    ∃ t, exec .tlNext s = .next t ∧ Succeeded s t ∧ OnlyMerger s t ∧
      t.tl = { s.tl with valid := false, ended := true }

/-- R153, R154, R155: with some stream not exhausted and the cursors inside their entries, `TL.NEXT` emits one entry.
Its duration is the smallest count of remaining frames; its states are the current ones, neutral for an exhausted
stream; every cursor moves by that duration, to the next entry where the current one is used up; the counters and
flags follow. (`TL_COUNT` and `TL_TOTAL` are sums of 32 bits. The spec shows that they fit on every walk; that they
wrap in a built state where they do not is the model's: log entry 12.) -/
def Obligations.NextMergesOneEntry : Prop :=
  ∀ s : State, s.esm.esValid = true → StreamsSound s.esm → MergerSound s →
    (s.tl.curF.idx.toNat < s.esm.face.length ∨ s.tl.curS.idx.toNat < s.esm.stick.length ∨
      s.tl.curD.idx.toNat < s.esm.dpad.length) →
    ∃ t m, exec .tlNext s = .next t ∧ Succeeded s t ∧ OnlyMerger s t ∧ t.tl.dur.toNat = m ∧
      (∀ e, s.esm.face[s.tl.curF.idx.toNat]? = some e → m ≤ e.dur.toNat - s.tl.curF.used.toNat) ∧
      (∀ e, s.esm.stick[s.tl.curS.idx.toNat]? = some e → m ≤ e.dur.toNat - s.tl.curS.used.toNat) ∧
      (∀ e, s.esm.dpad[s.tl.curD.idx.toNat]? = some e → m ≤ e.dur.toNat - s.tl.curD.used.toNat) ∧
      ((∃ e, s.esm.face[s.tl.curF.idx.toNat]? = some e ∧ m = e.dur.toNat - s.tl.curF.used.toNat) ∨
       (∃ e, s.esm.stick[s.tl.curS.idx.toNat]? = some e ∧ m = e.dur.toNat - s.tl.curS.used.toNat) ∨
       (∃ e, s.esm.dpad[s.tl.curD.idx.toNat]? = some e ∧ m = e.dur.toNat - s.tl.curD.used.toNat)) ∧
      t.tl.face = (match s.esm.face[s.tl.curF.idx.toNat]? with | some e => e.st | none => 0) ∧
      t.tl.x = (match s.esm.stick[s.tl.curS.idx.toNat]? with | some e => e.x | none => 0) ∧
      t.tl.y = (match s.esm.stick[s.tl.curS.idx.toNat]? with | some e => e.y | none => 0) ∧
      t.tl.dpad = (match s.esm.dpad[s.tl.curD.idx.toNat]? with | some e => e.dir | none => 0) ∧
      (∀ row ∈ [(s.tl.curF, t.tl.curF, s.esm.face.map FaceEvent.dur), (s.tl.curS, t.tl.curS,
          s.esm.stick.map StickEvent.dur), (s.tl.curD, t.tl.curD, s.esm.dpad.map DpadEvent.dur)],
        match row.2.2[row.1.idx.toNat]? with
        | none => row.2.1 = row.1
        | some n =>
          if row.1.used.toNat + m = n.toNat then row.2.1.idx.toNat = row.1.idx.toNat + 1 ∧ row.2.1.used = 0
          else row.2.1.idx = row.1.idx ∧ row.2.1.used.toNat = row.1.used.toNat + m) ∧
      t.tl.count = s.tl.count + 1 ∧ t.tl.total = s.tl.total + BitVec.ofNat 32 m ∧ t.tl.valid = true ∧
      t.tl.ended = false ∧
      (t.tl.neutral = true ↔ s.tl.neutral = true ∨ s.esm.face.length ≤ s.tl.curF.idx.toNat ∨
        s.esm.stick.length ≤ s.tl.curS.idx.toNat ∨ s.esm.dpad.length ≤ s.tl.curD.idx.toNat)

/-- R157, R158: a walk from a restart over arrays whose sums fit 32 bits ends. The number of entries is between the
longest array and the three lengths together, and `TL_TOTAL` is then the largest of the three sums. With
decoded streams the walk is that of the command: `TL.NEXT` run `j` times gives what `j` merge steps give. -/
def Obligations.WalkTotalIsLargestSum : Prop :=
  ∀ s : State, StreamsSound s.esm → s.tl = {} →
    totalDur (s.esm.face.map FaceEvent.dur) < 2 ^ 32 → totalDur (s.esm.stick.map StickEvent.dur) < 2 ^ 32 →
    totalDur (s.esm.dpad.map DpadEvent.dur) < 2 ^ 32 →
    ∃ k, max s.esm.face.length (max s.esm.stick.length s.esm.dpad.length) ≤ k ∧
      k ≤ s.esm.face.length + s.esm.stick.length + s.esm.dpad.length ∧
      (∀ j, 0 < j → j ≤ k → (mergeSteps engine j s).tl.valid = true) ∧
      (mergeSteps engine (k + 1) s).tl.ended = true ∧ (mergeSteps engine (k + 1) s).tl.count.toNat = k ∧
      (mergeSteps engine (k + 1) s).tl.total.toNat =
        max (totalDur (s.esm.face.map FaceEvent.dur))
          (max (totalDur (s.esm.stick.map StickEvent.dur)) (totalDur (s.esm.dpad.map DpadEvent.dur))) ∧
      (s.esm.esValid = true → ∀ j, execTimes .tlNext j s = .next (mergeSteps engine j s))

/-- R69, R150, R157, R158: `TL.ALL` with decoded streams whose sums fit 32 bits, from any point of a walk, is `TL.RESTART`
and a number of `TL.NEXT`, and gives the whole timeline: as many entries as `TL_COUNT` says; entry `j` is what the entry
registers read after the restart and `j + 1` merge steps, while `TL_VALID = 1`; the durations read add up to `TL_TOTAL`,
the largest of the three sums. (That the repetition is given up after `NF + NS + ND + 1` commands, which these streams
never need, is the model's: log entry 16.) -/
def Obligations.AllReadsWholeTimeline : Prop :=
  ∀ s : State, s.esm.esValid = true → StreamsSound s.esm →
    totalDur (s.esm.face.map FaceEvent.dur) < 2 ^ 32 → totalDur (s.esm.stick.map StickEvent.dur) < 2 ^ 32 →
    totalDur (s.esm.dpad.map DpadEvent.dur) < 2 ^ 32 →
    ∃ t u entries, exec .tlRestart s = .next t ∧ tlAll s = some (entries, u) ∧ OnlyMerger s u ∧ Succeeded s u ∧
      execList (pseudoAll (entries.length + 1)) s = .next u ∧ u = mergeSteps engine (entries.length + 1) t ∧
      u.tl.ended = true ∧ u.tl.count.toNat = entries.length ∧
      (∀ j, j < entries.length → (mergeSteps engine (j + 1) t).tl.valid = true ∧
        (mergeSteps engine (j + 1) t).tl.ended = false ∧
        entries[j]? = some ([0x28, 0x29, 0x2A, 0x2B, 0x2C].map (mergeSteps engine (j + 1) t).readCSR)) ∧
      (entries.map fun e => (e.getD 4 0).toNat).sum = u.tl.total.toNat ∧
      u.tl.total.toNat =
        max (totalDur (s.esm.face.map FaceEvent.dur))
          (max (totalDur (s.esm.stick.map StickEvent.dur)) (totalDur (s.esm.dpad.map DpadEvent.dur)))

/-- R158: under `TL_STOP = FIRST` a walk from a restart ends with `TL_TOTAL` the smallest of the three sums, and no
neutral state is ever used. -/
def Obligations.FirstStopTotalIsSmallestSum : Prop :=
  ∀ (c : Config) (s : State), c.tlStop = .first → StreamsSound s.esm → s.tl = {} →
    totalDur (s.esm.face.map FaceEvent.dur) < 2 ^ 32 → totalDur (s.esm.stick.map StickEvent.dur) < 2 ^ 32 →
    totalDur (s.esm.dpad.map DpadEvent.dur) < 2 ^ 32 →
    ∃ k, (mergeSteps c k s).tl.ended = true ∧ (mergeSteps c k s).tl.neutral = false ∧
      (mergeSteps c k s).tl.total.toNat =
        min (totalDur (s.esm.face.map FaceEvent.dur))
          (min (totalDur (s.esm.stick.map StickEvent.dur)) (totalDur (s.esm.dpad.map DpadEvent.dur)))

/-! ## TCA -/

/-- R7, R171: the conversion is the floor of the exact product of the pattern's value and the scale, for every finite
pattern. -/
def Obligations.ConversionIsFloorOfProduct : Prop :=
  ∀ (fbits : BitVec 32) (scale : Nat), fbits.toNat / 2 ^ 23 % 2 ^ 8 ≠ 0xFF →
    floorScaled fbits scale = ⌊fval fbits * (scale : ℚ)⌋

/-- R174: `TC.CLR`, with its encoding, clears TCA: its state is the reset state. -/
def Obligations.ClearZeroesCorrector : Prop :=
  encode .tcClr = .command 0x4000000000000000 ∧
  ∀ s : State, ∃ t, exec .tcClr s = .next t ∧ t.tca.acc = 0 ∧ t.tca.cy = false ∧ t.tca.tMin = 0 ∧ t.tca.tSec = 0 ∧
    t.tca.tRem = 0 ∧ t.tca.tDelta = 0 ∧ t.tca.rangeRem = false ∧ t.tca.rangeDelta = false ∧ t.tca = State.reset.tca ∧
    Succeeded s t ∧ OnlyTca s t

/-- R171, R173, R175: `TC.FIN` on a finite correction whose sums fit 64 bits writes the display minutes and seconds, the
converted correction and the remainder; `ACC` and `CY` stay. -/
def Obligations.FinishAddsCorrection : Prop :=
  ∀ (s : State) (min sec : BitVec 7) (ms : BitVec 10) (fbits : BitVec 32) (raw : Int),
    fbits.toNat / 2 ^ 23 % 2 ^ 8 ≠ 0xFF → raw = ⌊fval fbits * 10 ^ 9⌋ → -(2 ^ 63) ≤ raw → raw < 2 ^ 63 →
    -(2 ^ 63) ≤ ms.toNat * 10 ^ 9 + raw → ms.toNat * 10 ^ 9 + raw < 2 ^ 63 →
    ∃ t, exec (.tcFin min sec ms fbits) s = .next t ∧ t.tca.tMin = min ∧ t.tca.tSec = sec ∧
      t.tca.tDelta.toInt = raw ∧ t.tca.tRem.toInt = ms.toNat * 10 ^ 9 + raw ∧
      (t.tca.rangeRem = true ↔ ms.toNat * 10 ^ 9 + raw < 0 ∨ 10 ^ 12 ≤ ms.toNat * 10 ^ 9 + raw) ∧
      t.tca.rangeDelta = false ∧ t.tca.acc = s.tca.acc ∧ t.tca.cy = s.tca.cy ∧ Succeeded s t ∧ OnlyTca s t

/-- R171, R173, R176: `TC.LAP` on a finite correction whose sums all fit 64 bits. `d1` is the raw delta less `ACC`;
when it exceeds `TC_WRAP` one `TC_WRAP` is subtracted and `CY` toggles; the accepted delta goes to `T_DELTA`, into
`ACC` and into the remainder. It rests on the spec's own reading of the carry logic (R177, decision D29). -/
def Obligations.LapAcceptsDelta : Prop :=
  ∀ (s : State) (min sec : BitVec 7) (ms : BitVec 10) (fbits : BitVec 32) (raw d1 d : Int),
    fbits.toNat / 2 ^ 23 % 2 ^ 8 ≠ 0xFF → raw = ⌊fval fbits * 10 ^ 9⌋ → d1 = raw - s.tca.acc.toInt →
    d = (if 10 ^ 9 < d1 then d1 - 10 ^ 9 else d1) → -(2 ^ 63) ≤ raw → raw < 2 ^ 63 → -(2 ^ 63) ≤ d1 → d1 < 2 ^ 63 →
    -(2 ^ 63) ≤ s.tca.acc.toInt + d → s.tca.acc.toInt + d < 2 ^ 63 → -(2 ^ 63) ≤ ms.toNat * 10 ^ 9 + d →
    ms.toNat * 10 ^ 9 + d < 2 ^ 63 →
    ∃ t, exec (.tcLap min sec ms fbits) s = .next t ∧ t.tca.tMin = min ∧ t.tca.tSec = sec ∧
      t.tca.tDelta.toInt = d ∧ t.tca.acc.toInt = s.tca.acc.toInt + d ∧ t.tca.tRem.toInt = ms.toNat * 10 ^ 9 + d ∧
      t.tca.cy = (if 10 ^ 9 < d1 then !s.tca.cy else s.tca.cy) ∧
      (t.tca.rangeRem = true ↔ ms.toNat * 10 ^ 9 + d < 0 ∨ 10 ^ 12 ≤ ms.toNat * 10 ^ 9 + d) ∧
      (t.tca.rangeDelta = true ↔ d < 0 ∨ 10 ^ 9 ≤ d) ∧ Succeeded s t ∧ OnlyTca s t

/-- R178, first sentence: after every successful `TC.LAP`, `ACC` is that lap's raw delta, less one `TC_WRAP` if that
lap triggered, and `CY` has changed exactly when it triggered. It rests on the spec's own reading of the carry logic
(R177, decision D29), which the source leaves open. -/
def Obligations.AccumulatorClosedForm : Prop :=
  ∀ (s t : State) (min sec : BitVec 7) (ms : BitVec 10) (fbits : BitVec 32),
    exec (.tcLap min sec ms fbits) s = .next t → t.rep.err = 0 →
    t.tca.acc.toInt =
      ⌊fval fbits * 10 ^ 9⌋ - (if 10 ^ 9 < ⌊fval fbits * 10 ^ 9⌋ - s.tca.acc.toInt then 10 ^ 9 else 0) ∧
    (t.tca.cy ≠ s.tca.cy ↔ 10 ^ 9 < ⌊fval fbits * 10 ^ 9⌋ - s.tca.acc.toInt)

/-- R171, R173, R175, R176, R237: an infinity or a NaN raises `E_TC_NONFINITE(fbits)`; a finite correction one of whose
sums does not fit 64 bits raises `E_TC_OVERFLOW(fbits)`; on either nothing but the error registers changes. -/
def Obligations.CorrectionErrorsChangeNothing : Prop :=
  ∀ (s : State) (min sec : BitVec 7) (ms : BitVec 10) (fbits : BitVec 32),
    (fbits.toNat / 2 ^ 23 % 2 ^ 8 = 0xFF →
      (∃ t, exec (.tcFin min sec ms fbits) s = .next t ∧ RaisedAs 0x41 12 fbits.toNat s t ∧ OnlyReport s t) ∧
      ∃ t, exec (.tcLap min sec ms fbits) s = .next t ∧ RaisedAs 0x41 12 fbits.toNat s t ∧ OnlyReport s t) ∧
    (fbits.toNat / 2 ^ 23 % 2 ^ 8 ≠ 0xFF →
      (¬(-(2 ^ 63) ≤ ⌊fval fbits * 10 ^ 9⌋ ∧ ⌊fval fbits * 10 ^ 9⌋ < 2 ^ 63) ∨
        2 ^ 63 ≤ ms.toNat * 10 ^ 9 + ⌊fval fbits * 10 ^ 9⌋ →
        ∃ t, exec (.tcFin min sec ms fbits) s = .next t ∧ RaisedAs 0x42 13 fbits.toNat s t ∧ OnlyReport s t) ∧
      (¬(-(2 ^ 63) ≤ ⌊fval fbits * 10 ^ 9⌋ ∧ ⌊fval fbits * 10 ^ 9⌋ < 2 ^ 63) ∨
        ¬(-(2 ^ 63) ≤ ⌊fval fbits * 10 ^ 9⌋ - s.tca.acc.toInt ∧ ⌊fval fbits * 10 ^ 9⌋ - s.tca.acc.toInt < 2 ^ 63) ∨
        2 ^ 63 ≤ ms.toNat * 10 ^ 9 + (⌊fval fbits * 10 ^ 9⌋ - s.tca.acc.toInt) -
          (if 10 ^ 9 < ⌊fval fbits * 10 ^ 9⌋ - s.tca.acc.toInt then 10 ^ 9 else 0) →
        ∃ t, exec (.tcLap min sec ms fbits) s = .next t ∧ RaisedAs 0x42 13 fbits.toNat s t ∧ OnlyReport s t))

/-! ## The whole machine -/

/-- R66, R240: every command on every state has one defined result: a next state. (For a token or a record outside a run
or a decode, and for a term no encoding admits, of which the spec does not speak, that is the model's choice: log entry
13.) -/
def Obligations.EveryInstructionAnswersNext : Prop :=
  ∀ (i : Instr) (s : State), ∃ t, exec i s = .next t

/-- R230, R231, R232: after any command but `SYS.RESET`, either it succeeded, with `ERR = 0x00` and `EINFO` and `STICKY`
as they were, or it raised one listed error: `ERR` is its code and `STICKY` gains its bit and loses none. -/
def Obligations.CommandsReportByTable : Prop :=
  ∀ (i : Instr) (s t : State), i.kind = .command → i ≠ .sysReset → exec i s = .next t →
    Succeeded s t ∨
      ∃ row ∈ errorTable, t.rep.err = row.1 ∧ t.rep.sticky = s.rep.sticky ||| (1#16 <<< row.2)

/-- R24, R246, R266: no instruction writes IN. -/
def Obligations.InputIsNeverWritten : Prop :=
  ∀ (i : Instr) (s t : State), exec i s = .next t → t.inp = s.inp ∧ ∀ a, t.byteAt .input a = s.byteAt .input a

/-- R11, R15, R18, R20, R23: which commands write which state. `W` is written by `BF.LOAD` and the shifts only, `RES` by
the four reads only, OUT and the LZD registers by `LZ.RUN` only, the arrays by `ES.DECODE` only, the merger by
`TL.RESTART`, `TL.NEXT` and `ES.DECODE` only, `ACC` and `CY` by `TC.LAP` and `TC.CLR` only; `SYS.RESET` apart. -/
def Obligations.CommandsWriteTheirOwnUnit : Prop :=
  ∀ (i : Instr) (s t : State), i.kind = .command → i.mnemonic ≠ "SYS.RESET" → exec i s = .next t →
    (i.mnemonic ∉ ["BF.LOAD", "BF.SHL", "BF.SHR"] → t.bfx.w = s.bfx.w) ∧
    (i.mnemonic ≠ "BF.LOAD" → t.bfx.wn = s.bfx.wn) ∧
    (i.mnemonic ∉ ["BF.BIT", "BF.BYTE", "BF.WORD", "BF.FIELD"] → t.bfx.res = s.bfx.res) ∧
    (i.mnemonic ≠ "LZ.RUN" → t.lzd = s.lzd ∧ ∀ a, t.byteAt .output a = s.byteAt .output a) ∧
    (i.mnemonic ≠ "ES.DECODE" → t.esm = s.esm) ∧
    (i.mnemonic ∉ ["ES.DECODE", "TL.RESTART", "TL.NEXT"] → t.tl = s.tl) ∧
    (i.mnemonic ∉ ["TC.CLR", "TC.LAP"] → t.tca.acc = s.tca.acc ∧ t.tca.cy = s.tca.cy) ∧
    (i.mnemonic ∉ ["TC.CLR", "TC.FIN", "TC.LAP"] → t.tca = s.tca) ∧ t.host = s.host

/-- R131, R269 (a): after a failed `LZ.RUN`, `ES.DECODE` of OUT raises `E_ES_TRUNC(0)`, whatever its operands, and
`TL.NEXT` after that raises `E_TL_NOSTREAMS`. -/
def Obligations.FailedRunLeavesNothingToDecode : Prop :=
  ∀ (s t : State) (addr a : BitVec 32) (len n : BitVec 23), exec (.lzRun addr len) s = .next t → t.rep.err ≠ 0 →
    ∃ u v, exec (.esDecode .output a n) t = .next u ∧ RaisedAs 0x31 7 0 t u ∧ u.esm.esValid = false ∧
      exec .tlNext u = .next v ∧ RaisedAs 0x35 11 0 u v

/-- R17, R26, R45, R270: a command is one step: a step from between commands ends between commands. (The step is the
model's: log entries 1 and 2.) -/
def Obligations.StepsEndBetweenCommands : Prop :=
  ∀ s t : State, Settled s → step s = .next t → Settled t

/-- R14, R16 to R24, R46, R115, R232: the invariant `Settled` and `Sound`, what holds between commands, is kept by
every step. (No rule gives the canonical form of the two spaces, log entry 14, nor the locals of a decode as state,
cleared between commands, log entry 4; and the step that takes the host's queue is the model's: log entries 1 and 2.) -/
def Obligations.StepKeepsSound : Prop :=
  ∀ s t : State, Settled s → Sound s → step s = .next t → Settled t ∧ Sound t

/-- R260: the state after reset is between commands and meets the invariants. (The canonical form of the spaces and
the cleared locals of a decode are the model's: log entries 14 and 4.) -/
def Obligations.ResetIsSound : Prop := Settled State.reset ∧ Sound State.reset

/-- R266: a step between commands never stops the machine, unless the host loads more than `IN_MAX` bytes. (The fault
on such a load is the model's choice: log entry 10.) -/
def Obligations.StepStopsOnlyOnOversizedLoad : Prop :=
  ∀ s : State, Settled s →
    (∀ bytes rest, s.host.pending = .loadIN bytes :: rest → bytes.length ≤ 2 ^ 32 - 1) → ∃ t, step s = .next t
end

