-- ==== Sys2Proof/Laws/State.lean ====
section
/-! SUPPORT. What each named update of the state does to each field of it: one lemma per field per update, true by
computation, so that no later proof unfolds an update. -/

namespace Sys2Proof.Machine

open Sys2Proof

/-! ## `raise` -/

@[simp] theorem raise_inp (e : ErrCode) (n : Nat) (s : State) : (raise e n s).inp = s.inp := rfl
@[simp] theorem raise_bfx (e : ErrCode) (n : Nat) (s : State) : (raise e n s).bfx = s.bfx := rfl
@[simp] theorem raise_lzd (e : ErrCode) (n : Nat) (s : State) : (raise e n s).lzd = s.lzd := rfl
@[simp] theorem raise_esm (e : ErrCode) (n : Nat) (s : State) : (raise e n s).esm = s.esm := rfl
@[simp] theorem raise_tl (e : ErrCode) (n : Nat) (s : State) : (raise e n s).tl = s.tl := rfl
@[simp] theorem raise_tca (e : ErrCode) (n : Nat) (s : State) : (raise e n s).tca = s.tca := rfl
@[simp] theorem raise_rep (e : ErrCode) (n : Nat) (s : State) : (raise e n s).rep = s.rep.raised e n := rfl
@[simp] theorem raise_host (e : ErrCode) (n : Nat) (s : State) : (raise e n s).host = s.host := rfl

/-! ## `succeed` -/

@[simp] theorem succeed_inp (s : State) : (succeed s).inp = s.inp := rfl
@[simp] theorem succeed_bfx (s : State) : (succeed s).bfx = s.bfx := rfl
@[simp] theorem succeed_lzd (s : State) : (succeed s).lzd = s.lzd := rfl
@[simp] theorem succeed_esm (s : State) : (succeed s).esm = s.esm := rfl
@[simp] theorem succeed_tl (s : State) : (succeed s).tl = s.tl := rfl
@[simp] theorem succeed_tca (s : State) : (succeed s).tca = s.tca := rfl
@[simp] theorem succeed_rep (s : State) : (succeed s).rep = { s.rep with err := 0x00 } := rfl
@[simp] theorem succeed_host (s : State) : (succeed s).host = s.host := rfl

/-! ## `hardReset` -/

@[simp] theorem hardReset_inp (s : State) : (hardReset s).inp = {} := rfl
@[simp] theorem hardReset_bfx (s : State) : (hardReset s).bfx = {} := rfl
@[simp] theorem hardReset_lzd (s : State) : (hardReset s).lzd = {} := rfl
@[simp] theorem hardReset_esm (s : State) : (hardReset s).esm = {} := rfl
@[simp] theorem hardReset_tl (s : State) : (hardReset s).tl = {} := rfl
@[simp] theorem hardReset_tca (s : State) : (hardReset s).tca = {} := rfl
@[simp] theorem hardReset_rep (s : State) : (hardReset s).rep = {} := rfl
@[simp] theorem hardReset_host (s : State) : (hardReset s).host = s.host := rfl

/-! ## `softReset` -/

@[simp] theorem softReset_inp (s : State) : (softReset s).inp = s.inp := rfl
@[simp] theorem softReset_bfx (s : State) : (softReset s).bfx = {} := rfl
@[simp] theorem softReset_lzd (s : State) : (softReset s).lzd = {} := rfl
@[simp] theorem softReset_esm (s : State) : (softReset s).esm = {} := rfl
@[simp] theorem softReset_tl (s : State) : (softReset s).tl = {} := rfl
@[simp] theorem softReset_tca (s : State) : (softReset s).tca = {} := rfl
@[simp] theorem softReset_rep (s : State) : (softReset s).rep = {} := rfl
@[simp] theorem softReset_host (s : State) : (softReset s).host = s.host := rfl

/-! ## `writeRes` -/

@[simp] theorem writeRes_inp (v : BitVec 32) (s : State) : (writeRes v s).inp = s.inp := rfl
@[simp] theorem writeRes_bfx (v : BitVec 32) (s : State) : (writeRes v s).bfx = { s.bfx with res := v } := rfl
@[simp] theorem writeRes_lzd (v : BitVec 32) (s : State) : (writeRes v s).lzd = s.lzd := rfl
@[simp] theorem writeRes_esm (v : BitVec 32) (s : State) : (writeRes v s).esm = s.esm := rfl
@[simp] theorem writeRes_tl (v : BitVec 32) (s : State) : (writeRes v s).tl = s.tl := rfl
@[simp] theorem writeRes_tca (v : BitVec 32) (s : State) : (writeRes v s).tca = s.tca := rfl
@[simp] theorem writeRes_rep (v : BitVec 32) (s : State) : (writeRes v s).rep = { s.rep with err := 0x00 } := rfl
@[simp] theorem writeRes_host (v : BitVec 32) (s : State) : (writeRes v s).host = s.host := rfl

/-! ## `writeW` -/

@[simp] theorem writeW_inp (v : BitVec 32) (s : State) : (writeW v s).inp = s.inp := rfl
@[simp] theorem writeW_bfx (v : BitVec 32) (s : State) : (writeW v s).bfx = { s.bfx with w := v } := rfl
@[simp] theorem writeW_lzd (v : BitVec 32) (s : State) : (writeW v s).lzd = s.lzd := rfl
@[simp] theorem writeW_esm (v : BitVec 32) (s : State) : (writeW v s).esm = s.esm := rfl
@[simp] theorem writeW_tl (v : BitVec 32) (s : State) : (writeW v s).tl = s.tl := rfl
@[simp] theorem writeW_tca (v : BitVec 32) (s : State) : (writeW v s).tca = s.tca := rfl
@[simp] theorem writeW_rep (v : BitVec 32) (s : State) : (writeW v s).rep = { s.rep with err := 0x00 } := rfl
@[simp] theorem writeW_host (v : BitVec 32) (s : State) : (writeW v s).host = s.host := rfl

/-! ## `lzFail` -/

@[simp] theorem lzFail_inp (e : ErrCode) (n : Nat) (s : State) : (lzFail e n s).inp = s.inp := rfl
@[simp] theorem lzFail_bfx (e : ErrCode) (n : Nat) (s : State) : (lzFail e n s).bfx = s.bfx := rfl
@[simp] theorem lzFail_lzd (e : ErrCode) (n : Nat) (s : State) :
    (lzFail e n s).lzd = { s.lzd with st := .fail, out := {}, outValid := false } := rfl
@[simp] theorem lzFail_esm (e : ErrCode) (n : Nat) (s : State) : (lzFail e n s).esm = s.esm := rfl
@[simp] theorem lzFail_tl (e : ErrCode) (n : Nat) (s : State) : (lzFail e n s).tl = s.tl := rfl
@[simp] theorem lzFail_tca (e : ErrCode) (n : Nat) (s : State) : (lzFail e n s).tca = s.tca := rfl
@[simp] theorem lzFail_rep (e : ErrCode) (n : Nat) (s : State) : (lzFail e n s).rep = s.rep.raised e n := rfl
@[simp] theorem lzFail_host (e : ErrCode) (n : Nat) (s : State) : (lzFail e n s).host = s.host := rfl

/-! ## `lzFailHere` -/

@[simp] theorem lzFailHere_inp (e : ErrCode) (s : State) : (lzFailHere e s).inp = s.inp := rfl
@[simp] theorem lzFailHere_bfx (e : ErrCode) (s : State) : (lzFailHere e s).bfx = s.bfx := rfl
@[simp] theorem lzFailHere_lzd (e : ErrCode) (s : State) :
    (lzFailHere e s).lzd = { s.lzd with st := .fail, out := {}, outValid := false } := rfl
@[simp] theorem lzFailHere_esm (e : ErrCode) (s : State) : (lzFailHere e s).esm = s.esm := rfl
@[simp] theorem lzFailHere_tl (e : ErrCode) (s : State) : (lzFailHere e s).tl = s.tl := rfl
@[simp] theorem lzFailHere_tca (e : ErrCode) (s : State) : (lzFailHere e s).tca = s.tca := rfl
@[simp] theorem lzFailHere_rep (e : ErrCode) (s : State) : (lzFailHere e s).rep = s.rep.raised e s.lzUsed.toNat := rfl
@[simp] theorem lzFailHere_host (e : ErrCode) (s : State) : (lzFailHere e s).host = s.host := rfl

/-! ## `lzSucceed` -/

@[simp] theorem lzSucceed_inp (s : State) : (lzSucceed s).inp = s.inp := rfl
@[simp] theorem lzSucceed_bfx (s : State) : (lzSucceed s).bfx = s.bfx := rfl
@[simp] theorem lzSucceed_lzd (s : State) : (lzSucceed s).lzd = { s.lzd with st := .done, outValid := true } := rfl
@[simp] theorem lzSucceed_esm (s : State) : (lzSucceed s).esm = s.esm := rfl
@[simp] theorem lzSucceed_tl (s : State) : (lzSucceed s).tl = s.tl := rfl
@[simp] theorem lzSucceed_tca (s : State) : (lzSucceed s).tca = s.tca := rfl
@[simp] theorem lzSucceed_rep (s : State) : (lzSucceed s).rep = { s.rep with err := 0x00 } := rfl
@[simp] theorem lzSucceed_host (s : State) : (lzSucceed s).host = s.host := rfl

/-! ## `lzStart` -/

@[simp] theorem lzStart_inp (addr : BitVec 32) (len : BitVec 23) (s : State) : (lzStart addr len s).inp = s.inp := rfl
@[simp] theorem lzStart_bfx (addr : BitVec 32) (len : BitVec 23) (s : State) : (lzStart addr len s).bfx = s.bfx := rfl
@[simp] theorem lzStart_lzd (addr : BitVec 32) (len : BitVec 23) (s : State) :
    (lzStart addr len s).lzd = 
      { st := .hdr, base := addr, stop := BitVec.ofNat 33 (addr.toNat + len.toNat), src := addr.zeroExtend 33 } := rfl
@[simp] theorem lzStart_esm (addr : BitVec 32) (len : BitVec 23) (s : State) : (lzStart addr len s).esm = s.esm := rfl
@[simp] theorem lzStart_tl (addr : BitVec 32) (len : BitVec 23) (s : State) : (lzStart addr len s).tl = s.tl := rfl
@[simp] theorem lzStart_tca (addr : BitVec 32) (len : BitVec 23) (s : State) : (lzStart addr len s).tca = s.tca := rfl
@[simp] theorem lzStart_rep (addr : BitVec 32) (len : BitVec 23) (s : State) : (lzStart addr len s).rep = s.rep := rfl
@[simp] theorem lzStart_host (addr : BitVec 32) (len : BitVec 23) (s : State) :
    (lzStart addr len s).host = s.host := rfl

/-! ## `lzTakeBit` -/

@[simp] theorem lzTakeBit_inp (s : State) : (lzTakeBit s).inp = s.inp := rfl
@[simp] theorem lzTakeBit_bfx (s : State) : (lzTakeBit s).bfx = s.bfx := rfl
@[simp] theorem lzTakeBit_lzd (s : State) :
    (lzTakeBit s).lzd = { s.lzd with ctl := s.lzd.ctl <<< 1, nbits := s.lzd.nbits - 1 } := rfl
@[simp] theorem lzTakeBit_esm (s : State) : (lzTakeBit s).esm = s.esm := rfl
@[simp] theorem lzTakeBit_tl (s : State) : (lzTakeBit s).tl = s.tl := rfl
@[simp] theorem lzTakeBit_tca (s : State) : (lzTakeBit s).tca = s.tca := rfl
@[simp] theorem lzTakeBit_rep (s : State) : (lzTakeBit s).rep = s.rep := rfl
@[simp] theorem lzTakeBit_host (s : State) : (lzTakeBit s).host = s.host := rfl

/-! ## `lzCopyByte` -/

@[simp] theorem lzCopyByte_inp (s : State) : (lzCopyByte s).inp = s.inp := rfl
@[simp] theorem lzCopyByte_bfx (s : State) : (lzCopyByte s).bfx = s.bfx := rfl
@[simp] theorem lzCopyByte_lzd (s : State) :
    (lzCopyByte s).lzd = 
      { s.lzd with
        out := s.lzd.out.append (s.lzd.out.read (s.lzd.out.len - s.lzd.dist.toNat - 1))
        cnt := s.lzd.cnt - 1 } := rfl
@[simp] theorem lzCopyByte_esm (s : State) : (lzCopyByte s).esm = s.esm := rfl
@[simp] theorem lzCopyByte_tl (s : State) : (lzCopyByte s).tl = s.tl := rfl
@[simp] theorem lzCopyByte_tca (s : State) : (lzCopyByte s).tca = s.tca := rfl
@[simp] theorem lzCopyByte_rep (s : State) : (lzCopyByte s).rep = s.rep := rfl
@[simp] theorem lzCopyByte_host (s : State) : (lzCopyByte s).host = s.host := rfl

/-! ## `esFail` -/

@[simp] theorem esFail_inp (e : ErrCode) (n : Nat) (s : State) : (esFail e n s).inp = s.inp := rfl
@[simp] theorem esFail_bfx (e : ErrCode) (n : Nat) (s : State) : (esFail e n s).bfx = s.bfx := rfl
@[simp] theorem esFail_lzd (e : ErrCode) (n : Nat) (s : State) : (esFail e n s).lzd = s.lzd := rfl
@[simp] theorem esFail_esm (e : ErrCode) (n : Nat) (s : State) :
    (esFail e n s).esm = 
      { s.esm with face := [], stick := [], dpad := [], esValid := false, walk := {} } := rfl
@[simp] theorem esFail_tl (e : ErrCode) (n : Nat) (s : State) : (esFail e n s).tl = s.tl := rfl
@[simp] theorem esFail_tca (e : ErrCode) (n : Nat) (s : State) : (esFail e n s).tca = s.tca := rfl
@[simp] theorem esFail_rep (e : ErrCode) (n : Nat) (s : State) : (esFail e n s).rep = s.rep.raised e n := rfl
@[simp] theorem esFail_host (e : ErrCode) (n : Nat) (s : State) : (esFail e n s).host = s.host := rfl

/-! ## `esSucceed` -/

@[simp] theorem esSucceed_inp (s : State) : (esSucceed s).inp = s.inp := rfl
@[simp] theorem esSucceed_bfx (s : State) : (esSucceed s).bfx = s.bfx := rfl
@[simp] theorem esSucceed_lzd (s : State) : (esSucceed s).lzd = s.lzd := rfl
@[simp] theorem esSucceed_esm (s : State) : (esSucceed s).esm = { s.esm with esValid := true, walk := {} } := rfl
@[simp] theorem esSucceed_tl (s : State) : (esSucceed s).tl = s.tl := rfl
@[simp] theorem esSucceed_tca (s : State) : (esSucceed s).tca = s.tca := rfl
@[simp] theorem esSucceed_rep (s : State) : (esSucceed s).rep = { s.rep with err := 0x00 } := rfl
@[simp] theorem esSucceed_host (s : State) : (esSucceed s).host = s.host := rfl

/-! ## `tcClear` -/

@[simp] theorem tcClear_inp (s : State) : (tcClear s).inp = s.inp := rfl
@[simp] theorem tcClear_bfx (s : State) : (tcClear s).bfx = s.bfx := rfl
@[simp] theorem tcClear_lzd (s : State) : (tcClear s).lzd = s.lzd := rfl
@[simp] theorem tcClear_esm (s : State) : (tcClear s).esm = s.esm := rfl
@[simp] theorem tcClear_tl (s : State) : (tcClear s).tl = s.tl := rfl
@[simp] theorem tcClear_tca (s : State) : (tcClear s).tca = {} := rfl
@[simp] theorem tcClear_rep (s : State) : (tcClear s).rep = { s.rep with err := 0x00 } := rfl
@[simp] theorem tcClear_host (s : State) : (tcClear s).host = s.host := rfl

/-! ## `takeAction` -/

@[simp] theorem takeAction_inp (rest : List HostAction) (s : State) : (takeAction rest s).inp = s.inp := rfl
@[simp] theorem takeAction_bfx (rest : List HostAction) (s : State) : (takeAction rest s).bfx = s.bfx := rfl
@[simp] theorem takeAction_lzd (rest : List HostAction) (s : State) : (takeAction rest s).lzd = s.lzd := rfl
@[simp] theorem takeAction_esm (rest : List HostAction) (s : State) : (takeAction rest s).esm = s.esm := rfl
@[simp] theorem takeAction_tl (rest : List HostAction) (s : State) : (takeAction rest s).tl = s.tl := rfl
@[simp] theorem takeAction_tca (rest : List HostAction) (s : State) : (takeAction rest s).tca = s.tca := rfl
@[simp] theorem takeAction_rep (rest : List HostAction) (s : State) : (takeAction rest s).rep = s.rep := rfl
@[simp] theorem takeAction_host (rest : List HostAction) (s : State) :
    (takeAction rest s).host = { s.host with pending := rest } := rfl

/-! ## `answered` -/

@[simp] theorem answered_inp (v : Answer) (s : State) : (answered v s).inp = s.inp := rfl
@[simp] theorem answered_bfx (v : Answer) (s : State) : (answered v s).bfx = s.bfx := rfl
@[simp] theorem answered_lzd (v : Answer) (s : State) : (answered v s).lzd = s.lzd := rfl
@[simp] theorem answered_esm (v : Answer) (s : State) : (answered v s).esm = s.esm := rfl
@[simp] theorem answered_tl (v : Answer) (s : State) : (answered v s).tl = s.tl := rfl
@[simp] theorem answered_tca (v : Answer) (s : State) : (answered v s).tca = s.tca := rfl
@[simp] theorem answered_rep (v : Answer) (s : State) : (answered v s).rep = s.rep := rfl
@[simp] theorem answered_host (v : Answer) (s : State) : (answered v s).host = { s.host with answer := v } := rfl

/-! ## Updates that depend on a test -/

@[simp] theorem lzRefill_inp (s : State) : (lzRefill s).inp = s.inp := by unfold lzRefill; split <;> rfl
@[simp] theorem lzRefill_bfx (s : State) : (lzRefill s).bfx = s.bfx := by unfold lzRefill; split <;> rfl
@[simp] theorem lzRefill_esm (s : State) : (lzRefill s).esm = s.esm := by unfold lzRefill; split <;> rfl
@[simp] theorem lzRefill_tl (s : State) : (lzRefill s).tl = s.tl := by unfold lzRefill; split <;> rfl
@[simp] theorem lzRefill_tca (s : State) : (lzRefill s).tca = s.tca := by unfold lzRefill; split <;> rfl
@[simp] theorem lzRefill_rep (s : State) : (lzRefill s).rep = s.rep := by unfold lzRefill; split <;> rfl
@[simp] theorem lzRefill_host (s : State) : (lzRefill s).host = s.host := by unfold lzRefill; split <;> rfl

/-! ## Error registers -/

@[simp] theorem raised_err (r : Report) (e : ErrCode) (n : Nat) : (r.raised e n).err = errCode e := rfl
@[simp] theorem raised_einfo (r : Report) (e : ErrCode) (n : Nat) : (r.raised e n).einfo = BitVec.ofNat 32 n := rfl
@[simp] theorem raised_sticky (r : Report) (e : ErrCode) (n : Nat) :
    (r.raised e n).sticky = r.sticky ||| (1#16 <<< stickyBit e) := rfl

/-! ## Spaces -/

@[simp] theorem space_input (s : State) : s.space .input = s.inp := rfl
@[simp] theorem space_output (s : State) : s.space .output = s.lzd.out := rfl
@[simp] theorem append_len (m : Space) (v : Byte) : (m.append v).len = m.len + 1 := rfl
@[simp] theorem ofBytes_len (bytes : List Byte) : (Space.ofBytes bytes).len = bytes.length := rfl

/-! ## Merging step of `ES.DECODE` -/

@[simp] theorem esAdvance_cntF (m : Esm) : (esAdvance m).cntF = m.cntF := rfl
@[simp] theorem esAdvance_cntS (m : Esm) : (esAdvance m).cntS = m.cntS := rfl
@[simp] theorem esAdvance_cntD (m : Esm) : (esAdvance m).cntD = m.cntD := rfl
@[simp] theorem esAdvance_face (m : Esm) : (esAdvance m).face = m.face := rfl
@[simp] theorem esAdvance_stick (m : Esm) : (esAdvance m).stick = m.stick := rfl
@[simp] theorem esAdvance_dpad (m : Esm) : (esAdvance m).dpad = m.dpad := rfl
@[simp] theorem esAdvance_esValid (m : Esm) : (esAdvance m).esValid = m.esValid := rfl
@[simp] theorem esAdvance_walk (m : Esm) : (esAdvance m).walk = { m.walk with p := m.walk.p + 2 } := rfl

end Sys2Proof.Machine
end

