-- ==== Sys2Proof/Laws/Memory.lean ====
section
/-! SUPPORT. The laws of the byte spaces: a read after a write, and the canonical form, which every operation keeps. -/

namespace Sys2Proof.Machine

open Sys2Proof

/-! ## The list of cells -/

theorem cellsRead_below {cells : List Host.Cell} {lo hi a : Nat} (h : cellsWf cells lo hi) (ha : a < lo) :
    cellsRead cells a = blankByte := by
  induction cells generalizing lo with
  | nil => rfl
  | cons c rest ih =>
    obtain ⟨k, v⟩ := c
    simp only [cellsWf, Bool.and_eq_true, decide_eq_true_eq] at h
    simp only [cellsRead]
    rw [if_neg (by omega)]
    exact ih h.2 (by omega)

theorem cellsWf_weaken {cells : List Host.Cell} {lo hi lo' hi' : Nat} (h : cellsWf cells lo hi) (hl : lo' ≤ lo)
    (hh : hi ≤ hi') : cellsWf cells lo' hi' := by
  induction cells generalizing lo lo' with
  | nil => rfl
  | cons c rest ih =>
    obtain ⟨k, v⟩ := c
    simp only [cellsWf, Bool.and_eq_true, decide_eq_true_eq] at h ⊢
    exact ⟨⟨⟨by omega, by omega⟩, h.1.2⟩, ih h.2 (Nat.le_refl _)⟩

/-- A read after a write: the value written at that offset, every other offset as before. -/
theorem cellsRead_write {cells : List Host.Cell} {lo hi : Nat} (h : cellsWf cells lo hi) (a b : Nat) (v : Byte) :
    cellsRead (cellsWrite cells a v) b = if b = a then v else cellsRead cells b := by
  induction cells generalizing lo with
  | nil =>
    simp only [cellsWrite]
    split <;> split <;> simp_all [cellsRead]
    all_goals omega
  | cons c rest ih =>
    obtain ⟨k, u⟩ := c
    simp only [cellsWf, Bool.and_eq_true, decide_eq_true_eq] at h
    have below : ∀ x, x ≤ k → cellsRead rest x = blankByte := fun x hx => cellsRead_below h.2 (by omega)
    simp only [cellsWrite]
    by_cases hk : k < a
    · rw [if_pos hk]
      simp only [cellsRead, ih h.2]
      by_cases hb : b = a
      · subst hb; rw [if_neg (by omega), if_pos rfl]; simp
      · simp [hb]
    · rw [if_neg hk]
      by_cases hka : k = a
      · subst hka
        rw [if_pos rfl]
        by_cases hb : b = k
        · subst hb
          by_cases hv : v = blankByte
          · simp [hv, below]
          · simp [hv, cellsRead]
        · by_cases hv : v = blankByte
          · simp [hv, hb, cellsRead, Ne.symm hb]
          · simp [hv, hb, cellsRead, Ne.symm hb]
      · rw [if_neg hka]
        by_cases hb : b = a
        · subst hb
          by_cases hv : v = blankByte
          · simp [hv, cellsRead, hka, below b (by omega)]
          · simp [hv, cellsRead]
        · by_cases hv : v = blankByte
          · simp [hv, hb, cellsRead]
          · simp [hv, hb, cellsRead, Ne.symm hb]

/-- A write keeps the canonical form. -/
theorem cellsWrite_wf {cells : List Host.Cell} {lo hi a : Nat} (h : cellsWf cells lo hi) (hlo : lo ≤ a) (hhi : a < hi)
    (v : Byte) : cellsWf (cellsWrite cells a v) lo hi := by
  induction cells generalizing lo with
  | nil =>
    simp only [cellsWrite]
    split <;> simp_all [cellsWf]
  | cons c rest ih =>
    obtain ⟨k, u⟩ := c
    simp only [cellsWf, Bool.and_eq_true, decide_eq_true_eq] at h
    obtain ⟨⟨⟨h1, h2⟩, h3⟩, h4⟩ := h
    simp only [cellsWrite]
    by_cases hk : k < a
    · rw [if_pos hk]
      simp only [cellsWf, Bool.and_eq_true, decide_eq_true_eq]
      exact ⟨⟨⟨h1, h2⟩, h3⟩, ih h4 (by omega)⟩
    · rw [if_neg hk]
      by_cases hka : k = a
      · subst hka
        rw [if_pos rfl]
        by_cases hv : v = blankByte
        · rw [if_pos hv]; exact cellsWf_weaken h4 (by omega) (Nat.le_refl _)
        · rw [if_neg hv]
          simp only [cellsWf, Bool.and_eq_true, decide_eq_true_eq, bne_iff_ne, ne_eq]
          exact ⟨⟨⟨h1, h2⟩, hv⟩, h4⟩
      · rw [if_neg hka]
        by_cases hv : v = blankByte
        · rw [if_pos hv]
          simp only [cellsWf, Bool.and_eq_true, decide_eq_true_eq]
          exact ⟨⟨⟨h1, h2⟩, h3⟩, h4⟩
        · rw [if_neg hv]
          simp only [cellsWf, Bool.and_eq_true, decide_eq_true_eq, bne_iff_ne, ne_eq]
          refine ⟨⟨⟨hlo, hhi⟩, hv⟩, ⟨⟨by omega, h2⟩, ?_⟩, h4⟩
          simpa using h3

/-! ## Spaces -/

theorem read_beyond (m : Space) {a : Nat} (h : m.len ≤ a) : m.read a = blankByte := by
  simp [Space.read, Nat.not_lt.mpr h]

@[simp] theorem read_empty (a : Nat) : ({} : Space).read a = blankByte := by simp [Space.read]

@[simp] theorem wf_empty : ({} : Space).wf = true := rfl

/-- The write of `MemWrite(OUT, OUT_LEN, 1, v)`: the byte at the old length is `v`, every other byte is as before. -/
theorem read_append {m : Space} (h : m.wf) (v : Byte) (a : Nat) :
    (m.append v).read a = if a = m.len then v else m.read a := by
  simp only [Space.read, Space.append, cellsRead_write h]
  by_cases ha : a = m.len
  · simp [ha]
  · simp only [ha, if_false]
    by_cases hl : a < m.len
    · rw [if_pos (by omega), if_pos hl]
    · rw [if_neg (by omega), if_neg hl]

/-- Appending keeps the canonical form. -/
theorem append_wf {m : Space} (h : m.wf) (v : Byte) : (m.append v).wf :=
  cellsWrite_wf (cellsWf_weaken h (Nat.le_refl _) (Nat.le_succ _)) (Nat.zero_le _) (Nat.lt_succ_self _) v

theorem cellsOf_wf (bytes : List Byte) (a : Nat) : cellsWf (cellsOf a bytes) a (a + bytes.length) := by
  induction bytes generalizing a with
  | nil => rfl
  | cons v rest ih =>
    simp only [cellsOf, List.length_cons]
    split
    · exact cellsWf_weaken (ih (a + 1)) (by omega) (by omega)
    · rename_i hv
      simp only [cellsWf, Bool.and_eq_true, decide_eq_true_eq, bne_iff_ne, ne_eq]
      exact ⟨⟨⟨Nat.le_refl _, by omega⟩, hv⟩, cellsWf_weaken (ih (a + 1)) (Nat.le_refl _) (by omega)⟩

/-- What the host loads is in canonical form. -/
theorem ofBytes_wf (bytes : List Byte) : (Space.ofBytes bytes).wf := by
  have h := cellsOf_wf bytes 0
  rw [Nat.zero_add] at h
  exact h

theorem cellsRead_cellsOf (bytes : List Byte) (a b : Nat) :
    cellsRead (cellsOf a bytes) b = if a ≤ b then bytes.getD (b - a) blankByte else blankByte := by
  induction bytes generalizing a with
  | nil => simp [cellsOf, cellsRead]
  | cons v rest ih =>
    have hd : ∀ n, (v :: rest).getD (n + 1) blankByte = rest.getD n blankByte := fun _ => rfl
    have h0 : (v :: rest).getD 0 blankByte = v := rfl
    simp only [cellsOf]
    by_cases hv : v = blankByte
    · rw [if_pos hv, ih]
      rcases Nat.lt_trichotomy a b with h | h | h
      · obtain ⟨n, rfl⟩ : ∃ n, b = a + 1 + n := ⟨b - (a + 1), by omega⟩
        rw [if_pos (by omega), if_pos (by omega), show a + 1 + n - a = n + 1 by omega, hd]
        congr 1; omega
      · subst h; rw [if_neg (by omega), if_pos (Nat.le_refl _), Nat.sub_self, h0, hv]
      · rw [if_neg (by omega), if_neg (by omega)]
    · rw [if_neg hv]
      simp only [cellsRead]
      rcases Nat.lt_trichotomy a b with h | h | h
      · obtain ⟨n, rfl⟩ : ∃ n, b = a + 1 + n := ⟨b - (a + 1), by omega⟩
        rw [if_neg (by omega), ih, if_pos (by omega), if_pos (by omega), show a + 1 + n - a = n + 1 by omega, hd]
        congr 1; omega
      · subst h; rw [if_pos rfl, if_pos (Nat.le_refl _), Nat.sub_self, h0]
      · rw [if_neg (by omega), ih, if_neg (by omega), if_neg (by omega)]

/-- What the host loads reads back byte by byte. -/
theorem read_ofBytes (bytes : List Byte) (a : Nat) : (Space.ofBytes bytes).read a = bytes.getD a blankByte := by
  simp only [Space.read, Space.ofBytes, cellsRead_cellsOf, Nat.zero_le, if_true, Nat.sub_zero]
  split
  · rfl
  · rename_i h
    simp [List.getD, List.getElem?_eq_none (Nat.not_lt.mp h)]

@[simp] theorem readList_length (m : Space) (a n : Nat) : (m.readList a n).length = n := by
  induction n generalizing a with
  | zero => rfl
  | succ n ih => simp [Space.readList, ih]

theorem readList_getD (m : Space) (a n j : Nat) (h : j < n) (d : Byte) : (m.readList a n).getD j d = m.read (a + j) := by
  induction n generalizing a j with
  | zero => omega
  | succ n ih =>
    cases j with
    | zero => rfl
    | succ j =>
      have := ih (a + 1) j (by omega)
      simp only [Space.readList, List.getD_cons_succ, this]
      congr 1; omega

/-! ## Extensionality: equal bytes and length are equal data -/

theorem cells_ext {c d : List Host.Cell} {lo hi : Nat} (hc : cellsWf c lo hi) (hd : cellsWf d lo hi)
    (h : ∀ a, cellsRead c a = cellsRead d a) : c = d := by
  induction c generalizing d lo with
  | nil =>
    cases d with
    | nil => rfl
    | cons e rest =>
      obtain ⟨k, v⟩ := e
      simp only [cellsWf, Bool.and_eq_true, bne_iff_ne, ne_eq] at hd
      have := h k
      simp [cellsRead] at this
      exact absurd this.symm hd.1.2
  | cons x xs ih =>
    obtain ⟨k, v⟩ := x
    simp only [cellsWf, Bool.and_eq_true, bne_iff_ne, ne_eq, decide_eq_true_eq] at hc
    cases d with
    | nil =>
      have := h k
      simp [cellsRead] at this
      exact absurd this hc.1.2
    | cons e rest =>
      obtain ⟨j, u⟩ := e
      simp only [cellsWf, Bool.and_eq_true, bne_iff_ne, ne_eq, decide_eq_true_eq] at hd
      have hkj : k = j := by
        rcases Nat.lt_trichotomy k j with hlt | heq | hgt
        · have e1 := h k
          simp only [cellsRead, if_true] at e1
          rw [if_neg (by omega), cellsRead_below hd.2 (by omega)] at e1
          exact absurd e1 hc.1.2
        · exact heq
        · have e1 := h j
          simp only [cellsRead, if_true] at e1
          rw [if_neg (by omega), cellsRead_below hc.2 (by omega)] at e1
          exact absurd e1.symm hd.1.2
      subst hkj
      have hv : v = u := by simpa [cellsRead] using h k
      subst hv
      congr 1
      refine ih hc.2 hd.2 fun a => ?_
      have e1 := h a
      simp only [cellsRead] at e1
      by_cases ha : k = a
      · subst ha; rw [cellsRead_below hc.2 (by omega), cellsRead_below hd.2 (by omega)]
      · simpa [ha] using e1

/-- Two spaces in canonical form with the same length and the same bytes are the same data. -/
theorem space_ext {m n : Space} (hm : m.wf) (hn : n.wf) (hl : m.len = n.len) (h : ∀ a, m.read a = n.read a) : m = n := by
  obtain ⟨cm, lm⟩ := m
  obtain ⟨cn, ln⟩ := n
  simp only at hl
  subst hl
  congr 1
  refine cells_ext hm hn fun a => ?_
  by_cases ha : a < lm
  · have := h a
    simpa [Space.read, ha] using this
  · have beyond : ∀ {c : List Host.Cell} {lo : Nat}, cellsWf c lo lm → cellsRead c a = blankByte := by
      intro c
      induction c with
      | nil => intros; rfl
      | cons x xs ih =>
        intro lo hw
        obtain ⟨k, v⟩ := x
        simp only [cellsWf, Bool.and_eq_true, decide_eq_true_eq] at hw
        simp only [cellsRead]
        rw [if_neg (by omega)]
        exact ih hw.2
    rw [beyond hm, beyond hn]

end Sys2Proof.Machine
end

