-- ==== Sys2Proof/Laws/Operands.lean ====
section
/-! SUPPORT. What each operand form is as a number (spec/40_bitfield.md, spec/42_event_streams.md,
spec/44_time_correction.md). One lemma per operation: cite it, do not unfold the operation. -/

namespace Sys2Proof.Machine

open Sys2Proof

/-! ## Big-endian values -/

theorem bigEndian_foldl (bytes : List Byte) (acc : Nat) :
    bytes.foldl (fun acc b => acc * 256 + b.toNat) acc = acc * 256 ^ bytes.length + bigEndian bytes := by
  induction bytes generalizing acc with
  | nil => simp [bigEndian]
  | cons v rest ih =>
    have h : bigEndian (v :: rest) = (0 * 256 + v.toNat) * 256 ^ rest.length + bigEndian rest := ih _
    rw [List.foldl_cons, ih, h, List.length_cons, Nat.pow_succ]
    ring

theorem bigEndian_nil : bigEndian [] = 0 := rfl

theorem bigEndian_cons (v : Byte) (rest : List Byte) :
    bigEndian (v :: rest) = v.toNat * 256 ^ rest.length + bigEndian rest := by
  rw [bigEndian, List.foldl_cons, bigEndian_foldl]
  simp

/-- `n` bytes make a value below `256 ^ n`. -/
theorem bigEndian_lt (bytes : List Byte) : bigEndian bytes < 256 ^ bytes.length := by
  induction bytes with
  | nil => decide
  | cons v rest ih =>
    rw [bigEndian_cons, List.length_cons, Nat.pow_succ]
    have := v.isLt
    nlinarith [Nat.zero_le (bigEndian rest)]

/-- The value of `n` bytes of a space, byte by byte. -/
theorem bigEndian_readList (m : Space) (a n : Nat) :
    bigEndian (m.readList a n) = ∑ j ∈ Finset.range n, (m.read (a + j)).toNat * 2 ^ (8 * (n - 1 - j)) := by
  induction n generalizing a with
  | zero => rfl
  | succ n ih =>
    rw [Space.readList, bigEndian_cons, readList_length, ih, Finset.sum_range_succ', Nat.add_comm]
    congr 1
    · refine Finset.sum_congr rfl fun j _ => ?_
      rw [show a + 1 + j = a + (j + 1) by omega, show n + 1 - 1 - (j + 1) = n - 1 - j by omega]
    · rw [show (256 : Nat) = 2 ^ 8 by rfl, ← Nat.pow_mul]
      rfl

/-- A normalised word holds the value of its bytes. -/
theorem normWord_toNat (bytes : List Byte) (h : bytes.length ≤ 4) : (normWord bytes).toNat = bigEndian bytes := by
  have := bigEndian_lt bytes
  have h4 : 256 ^ bytes.length ≤ 256 ^ 4 := Nat.pow_le_pow_right (by decide) h
  rw [normWord, BitVec.toNat_ofNat, Nat.mod_eq_of_lt (by omega)]

/-- Byte `j` of a byte list, as a digit of its value. -/
theorem bigEndian_digit (bytes : List Byte) (j : Nat) (h : j < bytes.length) :
    bigEndian bytes / 256 ^ (bytes.length - 1 - j) % 256 = (bytes.getD j 0).toNat := by
  induction bytes generalizing j with
  | nil => simp at h
  | cons v rest ih =>
    rw [bigEndian_cons, List.length_cons]
    have hl := bigEndian_lt rest
    have hv := v.isLt
    cases j with
    | zero =>
      rw [show rest.length + 1 - 1 - 0 = rest.length by omega, Nat.add_comm,
        Nat.add_mul_div_right _ _ (Nat.pow_pos (by decide)), Nat.div_eq_of_lt hl, Nat.zero_add, Nat.mod_eq_of_lt hv]
      rfl
    | succ j =>
      have hj : j < rest.length := by simpa using h
      rw [show rest.length + 1 - 1 - (j + 1) = rest.length - 1 - j by omega]
      have e : 256 ^ rest.length = 256 ^ (j + 1) * 256 ^ (rest.length - 1 - j) := by
        rw [← Nat.pow_add]; congr 1; omega
      rw [e, ← Nat.mul_assoc, Nat.add_comm, Nat.add_mul_div_right _ _ (Nat.pow_pos (by decide)), Nat.pow_succ,
        ← Nat.mul_assoc, Nat.add_mul_mod_self_right, ih j hj]
      rfl

/-! ## Chunks, fields and shifts of `W` -/

theorem and_low (x : BitVec 32) (k : Nat) (hk : k < 32) : (x &&& BitVec.ofNat 32 (2 ^ k - 1)).toNat = x.toNat % 2 ^ k := by
  have : 2 ^ k < 2 ^ 32 := Nat.pow_lt_pow_right (by decide) hk
  rw [BitVec.toNat_and, BitVec.toNat_ofNat, Nat.mod_eq_of_lt (by omega), Nat.and_two_pow_sub_one_eq_mod]

theorem bitOf_toNat (w : BitVec 32) (idx : Nat) :
    (bitOf w idx).toNat = if idx < 32 then w.toNat / 2 ^ idx % 2 else 0 := by
  unfold bitOf
  split
  · have := and_low (w >>> idx) 1 (by decide)
    rw [BitVec.toNat_ushiftRight, Nat.shiftRight_eq_div_pow] at this
    exact this
  · rfl

theorem byteOfWord_toNat (w : BitVec 32) (idx : Nat) :
    (byteOfWord w idx).toNat = if idx < 4 then w.toNat / 2 ^ (24 - 8 * idx) % 2 ^ 8 else 0 := by
  unfold byteOfWord
  split
  · have := and_low (w >>> (24 - 8 * idx)) 8 (by decide)
    rw [BitVec.toNat_ushiftRight, Nat.shiftRight_eq_div_pow] at this
    exact this
  · rfl

theorem halfOfWord_toNat (w : BitVec 32) (idx : Nat) :
    (halfOfWord w idx).toNat = if idx = 0 then w.toNat / 2 ^ 16 else if idx = 1 then w.toNat % 2 ^ 16 else 0 := by
  unfold halfOfWord
  split
  · rw [BitVec.toNat_ushiftRight, Nat.shiftRight_eq_div_pow]
  · split
    · exact and_low w 16 (by decide)
    · rfl

theorem byteOfSource_toNat (w : BitVec 32) (wn idx : Nat) :
    (byteOfSource w wn idx).toNat = if idx < wn then w.toNat / 2 ^ (8 * (wn - 1 - idx)) % 2 ^ 8 else 0 := by
  unfold byteOfSource
  split
  · have := and_low (w >>> (8 * (wn - 1 - idx))) 8 (by decide)
    rw [BitVec.toNat_ushiftRight, Nat.shiftRight_eq_div_pow] at this
    exact this
  · rfl

theorem shiftLeft_toNat (w : BitVec 32) (d : Nat) :
    (shiftLeft w d).toNat = if d < 32 then w.toNat * 2 ^ d % 2 ^ 32 else 0 := by
  unfold shiftLeft
  split
  · rw [BitVec.toNat_shiftLeft, Nat.shiftLeft_eq]
  · rfl

theorem shiftRight_toNat (w : BitVec 32) (d : Nat) :
    (shiftRight w d).toNat = if d < 32 then w.toNat / 2 ^ d else 0 := by
  unfold shiftRight
  split
  · rw [BitVec.toNat_ushiftRight, Nat.shiftRight_eq_div_pow]
  · rfl

theorem fieldOf_toNat (w : BitVec 32) (lo wid : Nat) :
    (fieldOf w lo wid).toNat =
      if wid < 32 then (if lo < 32 then w.toNat / 2 ^ lo else 0) % 2 ^ wid
      else if lo < 32 then w.toNat / 2 ^ lo else 0 := by
  unfold fieldOf
  simp only
  split
  · rename_i h
    have : 2 ^ wid < 2 ^ 32 := Nat.pow_lt_pow_right (by decide) h
    have h2 := Nat.mod_lt (shiftRight w lo).toNat (Nat.pow_pos (n := wid) (show 0 < 2 by decide))
    rw [BitVec.toNat_ofNat, Nat.mod_eq_of_lt (by omega), shiftRight_toNat]
  · exact shiftRight_toNat w lo

/-! ## Record fields -/

theorem rawX_append (c : Config) (x y : BitVec 4) : rawX c (x ++ y) = if c.stickXHigh then x else y := by
  unfold rawX
  rw [show (x ++ y).extractLsb' 4 4 = x from BitVec.extractLsb'_append_eq_left,
    show (x ++ y).extractLsb' 0 4 = y from BitVec.extractLsb'_append_eq_right]

theorem rawY_append (c : Config) (x y : BitVec 4) : rawY c (x ++ y) = if c.stickXHigh then y else x := by
  unfold rawY
  rw [show (x ++ y).extractLsb' 4 4 = x from BitVec.extractLsb'_append_eq_left,
    show (x ++ y).extractLsb' 0 4 = y from BitVec.extractLsb'_append_eq_right]

/-- A raw nibble that is not 15, less the bias 7, is a number from -7 to 7. -/
theorem unbias_toInt (c : Config) (h : c.stickBias = 7) (raw : BitVec 4) (hr : raw ≠ 15) :
    (unbias c raw).toInt = (raw.toNat : Int) - 7 := by
  unfold unbias
  rw [h]
  revert hr
  revert raw
  decide

/-! ## 64-bit sums -/

theorem fits64_iff (v : Int) : fits64 v = true ↔ -(2 ^ 63) ≤ v ∧ v < 2 ^ 63 := by
  unfold fits64
  rw [Bool.and_eq_true, decide_eq_true_eq, decide_eq_true_eq]
  omega

/-- A sum that fits is stored exactly. -/
theorem ofInt64_toInt {v : Int} (h : fits64 v = true) : (BitVec.ofInt 64 v).toInt = v := by
  rw [fits64_iff] at h
  rw [BitVec.toInt_ofInt]
  exact Int.bmod_eq_of_le (by omega) (by omega)

theorem isFinite_iff (fbits : BitVec 32) : isFinite fbits = true ↔ fbits.toNat / 2 ^ 23 % 2 ^ 8 ≠ 0xFF := by
  unfold isFinite
  rw [bne_iff_ne, ne_eq, ne_eq, not_iff_not, ← BitVec.toNat_inj, BitVec.extractLsb'_toNat, Nat.shiftRight_eq_div_pow]
  rfl

end Sys2Proof.Machine
end

