-- ==== Sys2Proof/Laws/Decompressor.lean ====
section
/-! SUPPORT. What the parts of the decompressor can do (spec/41_lz_decompressor.md): the copy, the three tokens, the token
cycle and the loop. One lemma per operation says all of it: cite it, do not unfold the operation. -/

namespace Sys2Proof.Machine

open Sys2Proof

/-! ## A space grown by a copy from behind its end -/

/-- The space after `k` bytes were appended, each the byte `dist + 1` before the end (R111 steps 2 and 3). -/
def Space.copied (m : Space) (dist : Nat) : Nat → Space
  | 0 => m
  | k + 1 => (m.append (m.read (m.len - dist - 1))).copied dist k

@[simp] theorem copied_len (m : Space) (dist k : Nat) : (m.copied dist k).len = m.len + k := by
  induction k generalizing m with
  | zero => rfl
  | succ k ih => rw [Space.copied, ih, append_len]; omega

theorem copied_wf {m : Space} (h : m.wf) (dist k : Nat) : (m.copied dist k).wf := by
  induction k generalizing m with
  | zero => exact h
  | succ k ih => exact ih (append_wf h _)

/-- What the space held before the copy is as it was. -/
theorem read_copied_below {m : Space} (h : m.wf) (dist k : Nat) {a : Nat} (ha : a < m.len) :
    (m.copied dist k).read a = m.read a := by
  induction k generalizing m with
  | zero => rfl
  | succ k ih =>
    rw [Space.copied, ih (append_wf h _) (by rw [append_len]; omega), read_append h, if_neg (by omega)]

/-- Every byte of the copy is the byte `dist + 1` before it. -/
theorem read_copied_step {m : Space} (h : m.wf) (dist k : Nat) (hd : dist + 1 ≤ m.len) {j : Nat} (hj : j < k) :
    (m.copied dist k).read (m.len + j) = (m.copied dist k).read (m.len + j - (dist + 1)) := by
  induction k generalizing m j with
  | zero => omega
  | succ k ih =>
    have hw := append_wf h (m.read (m.len - dist - 1))
    rw [Space.copied]
    cases j with
    | zero =>
      rw [read_copied_below hw _ _ (by rw [append_len]; omega),
        read_copied_below hw _ _ (by rw [append_len]; omega), read_append h, read_append h,
        if_pos (Nat.add_zero _), if_neg (by omega)]
      congr 1
    | succ j =>
      have := ih hw (by rw [append_len]; omega) (j := j) (by omega)
      rw [append_len] at this
      rw [show m.len + (j + 1) = m.len + 1 + j by omega]
      exact this

/-- Byte `j` of the copy repeats the last `dist + 1` bytes in order: the overlapping copy (R111). -/
theorem read_copied {m : Space} (h : m.wf) (dist k : Nat) (hd : dist + 1 ≤ m.len) {j : Nat} (hj : j < k) :
    (m.copied dist k).read (m.len + j) = m.read (m.len - (dist + 1) + j % (dist + 1)) := by
  induction j using Nat.strong_induction_on with
  | _ j ih =>
    rw [read_copied_step h dist k hd hj]
    by_cases hlt : j < dist + 1
    · rw [Nat.mod_eq_of_lt hlt, read_copied_below h _ _ (by omega)]
      congr 1; omega
    · rw [show m.len + j - (dist + 1) = m.len + (j - (dist + 1)) by omega, ih _ (by omega) (by omega)]
      congr 2
      exact (Nat.mod_eq_sub_mod (by omega)).symm

/-! ## The copy loop (R111) -/

/-- The whole of what the copy loop does: with room for all its bytes it appends them and is back in `RUN`; otherwise it
fails when the output has its declared size. -/
theorem lzCopy_eq (k : Nat) (s : State) (h : s.lzd.out.len ≤ s.lzd.decl.toNat) :
    lzCopy k s =
      if s.lzd.out.len + k ≤ s.lzd.decl.toNat then
        { s with
          lzd :=
            { s.lzd with
              st := .run, out := s.lzd.out.copied s.lzd.dist.toNat k, cnt := s.lzd.cnt - BitVec.ofNat 9 k } }
      else
        lzFailHere .lzLength
          { s with
            lzd := { s.lzd with cnt := s.lzd.cnt - BitVec.ofNat 9 (s.lzd.decl.toNat - s.lzd.out.len) } } := by
  induction k generalizing s with
  | zero =>
    rw [if_pos (by omega), lzCopy, Space.copied, show BitVec.ofNat 9 0 = 0#9 by rfl, BitVec.sub_zero]
  | succ k ih =>
    rw [lzCopy]
    split
    · rename_i he
      rw [if_neg (by omega), he, Nat.sub_self, show BitVec.ofNat 9 0 = 0#9 by rfl, BitVec.sub_zero]
    · rename_i hne
      have step : ∀ n : Nat, s.lzd.cnt - 1 - BitVec.ofNat 9 n = s.lzd.cnt - BitVec.ofNat 9 (n + 1) := fun n => by
        rw [BitVec.ofNat_add, BitVec.add_comm, BitVec.sub_sub]; rfl
      rw [ih _ (by simp only [lzCopyByte_lzd, append_len]; omega)]
      simp only [lzCopyByte_lzd, append_len, step]
      by_cases hk : s.lzd.out.len + 1 + k ≤ s.lzd.decl.toNat
      · rw [if_pos hk, if_pos (by omega)]
        rfl
      · rw [if_neg hk, if_neg (by omega), show s.lzd.decl.toNat - (s.lzd.out.len + 1) + 1 =
          s.lzd.decl.toNat - s.lzd.out.len by omega]
        rfl

/-! ## What one turn of the machine can do -/

/-- Nothing outside LZD and the error registers changed, and the slice is the same. -/
structure LzFrame (s t : State) : Prop where
  inp : t.inp = s.inp
  bfx : t.bfx = s.bfx
  esm : t.esm = s.esm
  tl : t.tl = s.tl
  tca : t.tca = s.tca
  host : t.host = s.host
  base : t.lzd.base = s.lzd.base
  stop : t.lzd.stop = s.lzd.stop

theorem LzFrame.refl (s : State) : LzFrame s s := ⟨rfl, rfl, rfl, rfl, rfl, rfl, rfl, rfl⟩

theorem LzFrame.trans {s t u : State} (h : LzFrame s t) (k : LzFrame t u) : LzFrame s u :=
  ⟨k.inp.trans h.inp, k.bfx.trans h.bfx, k.esm.trans h.esm, k.tl.trans h.tl, k.tca.trans h.tca, k.host.trans h.host,
    k.base.trans h.base, k.stop.trans h.stop⟩

/-- The cursor lies in the slice and the output has not passed its size. -/
structure LzInside (s : State) : Prop where
  lower : s.lzd.base.toNat ≤ s.lzd.src.toNat
  upper : s.lzd.src.toNat ≤ s.lzd.stop.toNat
  size : s.lzd.out.len ≤ s.lzd.decl.toNat
  form : s.lzd.out.wf = true

/-- The errors a token cycle raises (R112). -/
def lzTokenErrors : List ErrCode := [.lzTrunc, .lzBackref, .lzLength]

/-- The failure of a token or of a token cycle: OUT is empty, the cursor still lies in the slice, and `EINFO` is the
cursor's distance from the slice's start. -/
structure LzFailed (s t : State) : Prop where
  st : t.lzd.st = .fail
  out : t.lzd.out = {}
  outValid : t.lzd.outValid = false
  lower : t.lzd.base.toNat ≤ t.lzd.src.toNat
  upper : t.lzd.src.toNat ≤ t.lzd.stop.toNat
  rep : ∃ e ∈ lzTokenErrors, t.rep = s.rep.raised e t.lzUsed.toNat

/-- `LZ_USED` is the distance of the cursor from the start of the slice. -/
theorem lzUsed_toNat {s : State} (h : s.lzd.base.toNat ≤ s.lzd.src.toNat) :
    s.lzUsed.toNat = s.lzd.src.toNat - s.lzd.base.toNat := by
  have hs := s.lzd.src.isLt
  have hb := s.lzd.base.isLt
  have hz : (BitVec.zeroExtend 33 s.lzd.base).toNat = s.lzd.base.toNat := by
    rw [BitVec.toNat_setWidth, Nat.mod_eq_of_lt (by omega)]
  rw [State.lzUsed, BitVec.toNat_sub, hz]
  omega

/-- A token that was taken: the machine runs on, the cursor has moved, the output has not passed its size, and the error
registers and the control bits are as before. -/
structure LzTaken (s t : State) : Prop where
  st : t.lzd.st = .run
  inside : LzInside t
  moved : s.lzd.src.toNat < t.lzd.src.toNat
  rep : t.rep = s.rep
  outValid : t.lzd.outValid = s.lzd.outValid

theorem lzFailHere_failed {e : ErrCode} (he : e ∈ lzTokenErrors) {s t : State} (hr : t.rep = s.rep)
    (hl : t.lzd.base.toNat ≤ t.lzd.src.toNat) (hu : t.lzd.src.toNat ≤ t.lzd.stop.toNat) :
    LzFailed s (lzFailHere e t) :=
  ⟨rfl, rfl, rfl, hl, hu, e, he, by rw [lzFailHere_rep, hr]; rfl⟩

/-- After a failure here `LZ_USED` and `EINFO` are the cursor's distance from the start of the slice (R112). -/
theorem lzFailHere_used (e : ErrCode) {s : State} (h : s.lzd.base.toNat ≤ s.lzd.src.toNat) :
    (lzFailHere e s).lzUsed.toNat = s.lzd.src.toNat - s.lzd.base.toNat ∧
      (lzFailHere e s).rep = s.rep.raised e (s.lzd.src.toNat - s.lzd.base.toNat) :=
  ⟨lzUsed_toNat h, by rw [lzFailHere_rep, lzUsed_toNat h]⟩

theorem lzFailHere_frame (e : ErrCode) (s : State) : LzFrame s (lzFailHere e s) :=
  ⟨rfl, rfl, rfl, rfl, rfl, rfl, rfl, rfl⟩

/-- Back-reference and copy: back in `RUN` with the output grown, or failed. -/
theorem lzBackref_cases (s : State) (hi : LzInside s) :
    LzFrame s (lzBackref s) ∧
      (((lzBackref s).lzd.st = .run ∧ LzInside (lzBackref s) ∧ (lzBackref s).lzd.src = s.lzd.src ∧
          (lzBackref s).rep = s.rep ∧ (lzBackref s).lzd.outValid = s.lzd.outValid) ∨
        LzFailed s (lzBackref s)) := by
  unfold lzBackref
  split
  · exact ⟨lzFailHere_frame _ _, .inr (lzFailHere_failed (by decide) rfl hi.lower hi.upper)⟩
  · rw [show lzCopy s.lzd.cnt.toNat { s with lzd := { s.lzd with st := .copy } } = _ from lzCopy_eq _ _ hi.size]
    split
    · rename_i h
      refine ⟨⟨rfl, rfl, rfl, rfl, rfl, rfl, rfl, rfl⟩, .inl ⟨rfl, ⟨hi.lower, hi.upper, ?_, copied_wf hi.form _ _⟩, rfl, rfl, rfl⟩⟩
      simpa only [copied_len] using h
    · exact ⟨⟨rfl, rfl, rfl, rfl, rfl, rfl, rfl, rfl⟩, .inr (lzFailHere_failed (by decide) rfl hi.lower hi.upper)⟩

/-- The cursor moved by `n` bytes that the slice has. -/
theorem src_add {s : State} {n : Nat} (hn : n < 2 ^ 33) (h : s.lzd.src.toNat + n ≤ s.lzd.stop.toNat) :
    (s.lzd.src + BitVec.ofNat 33 n).toNat = s.lzd.src.toNat + n := by
  have := s.lzd.stop.isLt
  rw [BitVec.toNat_add, BitVec.toNat_ofNat, Nat.mod_eq_of_lt hn, Nat.mod_eq_of_lt (by omega)]

/-- `LZ.LIT`: with its byte in the slice and the output below its size it is taken; without its byte it fails. -/
theorem lzLit_cases (v : Byte) (s : State) (hs : s.lzd.st = .run) (hi : LzInside s)
    (hd : s.lzd.out.len < s.lzd.decl.toNat) :
    LzFrame s (lzLit v s) ∧ (LzTaken s (lzLit v s) ∨ LzFailed s (lzLit v s)) := by
  unfold lzLit
  split
  · exact ⟨lzFailHere_frame _ _, .inr (lzFailHere_failed (by decide) rfl hi.lower hi.upper)⟩
  · rename_i h
    have e := src_add (s := s) (n := 1) (by decide) (by omega)
    have e' : (s.lzd.src + 1).toNat = s.lzd.src.toNat + 1 := e
    have hl := hi.lower
    refine ⟨⟨rfl, rfl, rfl, rfl, rfl, rfl, rfl, rfl⟩, .inl ⟨hs, ⟨?_, ?_, hd, append_wf hi.form _⟩, ?_, rfl, rfl⟩⟩
    · show s.lzd.base.toNat ≤ (s.lzd.src + 1).toNat
      omega
    · show (s.lzd.src + 1).toNat ≤ s.lzd.stop.toNat
      omega
    · show s.lzd.src.toNat < (s.lzd.src + 1).toNat
      omega

/-- What `lzBackref` does to a state whose cursor already stands behind the token. -/
theorem lzBackref_token {s u : State} (hf : LzFrame s u) (hr : u.rep = s.rep) (hv : u.lzd.outValid = s.lzd.outValid)
    (hi : LzInside u) (hm : s.lzd.src.toNat < u.lzd.src.toNat) :
    LzFrame s (lzBackref u) ∧ (LzTaken s (lzBackref u) ∨ LzFailed s (lzBackref u)) := by
  obtain ⟨f, ⟨h1, h2, h3, h4, h5⟩ | h⟩ := lzBackref_cases u hi
  · exact ⟨hf.trans f, .inl ⟨h1, h2, by rw [h3]; exact hm, h4.trans hr, h5.trans hv⟩⟩
  · exact ⟨hf.trans f, .inr ⟨h.st, h.out, h.outValid, h.lower, h.upper, hr ▸ h.rep⟩⟩

/-- `LZ.REF`: taken or failed. -/
theorem lzRef_cases (c : Config) (n : BitVec 4) (d : BitVec 12) (s : State) (hi : LzInside s) :
    LzFrame s (lzRef c n d s) ∧ (LzTaken s (lzRef c n d s) ∨ LzFailed s (lzRef c n d s)) := by
  unfold lzRef
  split
  · exact ⟨lzFailHere_frame _ _, .inr (lzFailHere_failed (by decide) rfl hi.lower hi.upper)⟩
  · rename_i h
    have e : (s.lzd.src + 2).toNat = s.lzd.src.toNat + 2 := src_add (n := 2) (by decide) (by omega)
    have hl := hi.lower
    refine lzBackref_token ⟨rfl, rfl, rfl, rfl, rfl, rfl, rfl, rfl⟩ rfl rfl ⟨?_, ?_, hi.size, hi.form⟩ ?_
    · show s.lzd.base.toNat ≤ (s.lzd.src + 2).toNat
      omega
    · show (s.lzd.src + 2).toNat ≤ s.lzd.stop.toNat
      omega
    · show s.lzd.src.toNat < (s.lzd.src + 2).toNat
      omega

/-- `LZ.REFX`: taken or failed. -/
theorem lzRefx_cases (c : Config) (d : BitVec 12) (l : Byte) (s : State) (hi : LzInside s) :
    LzFrame s (lzRefx c d l s) ∧ (LzTaken s (lzRefx c d l s) ∨ LzFailed s (lzRefx c d l s)) := by
  have hl := hi.lower
  unfold lzRefx
  split
  · exact ⟨lzFailHere_frame _ _, .inr (lzFailHere_failed (by decide) rfl hi.lower hi.upper)⟩
  · rename_i h
    have e : (s.lzd.src + 2).toNat = s.lzd.src.toNat + 2 := src_add (n := 2) (by decide) (by omega)
    simp only
    split
    · refine ⟨⟨rfl, rfl, rfl, rfl, rfl, rfl, rfl, rfl⟩, .inr (lzFailHere_failed (by decide) rfl ?_ ?_)⟩
      · show s.lzd.base.toNat ≤ (s.lzd.src + 2).toNat
        omega
      · show (s.lzd.src + 2).toNat ≤ s.lzd.stop.toNat
        omega
    · rename_i h3
      have e3 : (s.lzd.src + 2 + 1).toNat = s.lzd.src.toNat + 3 := by
        rw [BitVec.add_assoc]
        exact src_add (n := 3) (by decide) (by omega)
      refine lzBackref_token ⟨rfl, rfl, rfl, rfl, rfl, rfl, rfl, rfl⟩ rfl rfl ⟨?_, ?_, hi.size, hi.form⟩ ?_
      · show s.lzd.base.toNat ≤ (s.lzd.src + 2 + 1).toNat
        omega
      · show (s.lzd.src + 2 + 1).toNat ≤ s.lzd.stop.toNat
        omega
      · show s.lzd.src.toNat < (s.lzd.src + 2 + 1).toNat
        omega

/-- The token a control bit selects: taken or failed. -/
theorem lzToken_cases (c : Config) (bit : Bool) (b1 b2 b3 : Byte) (s : State) (hs : s.lzd.st = .run) (hi : LzInside s)
    (hd : s.lzd.out.len < s.lzd.decl.toNat) :
    LzFrame s (lzToken c bit b1 b2 b3 s) ∧
      (LzTaken s (lzToken c bit b1 b2 b3 s) ∨ LzFailed s (lzToken c bit b1 b2 b3 s)) := by
  unfold lzToken
  split
  · exact lzLit_cases _ _ hs hi hd
  · split
    · exact lzRefx_cases _ _ _ _ hi
    · exact lzRef_cases _ _ _ _ hi

/-! ## The token cycle and the loop -/

/-- The success of a run (R113). -/
structure LzDone (s t : State) : Prop where
  st : t.lzd.st = .done
  outValid : t.lzd.outValid = true
  size : t.lzd.out.len = t.lzd.decl.toNat
  form : t.lzd.out.wf = true
  lower : t.lzd.base.toNat ≤ t.lzd.src.toNat
  upper : t.lzd.src.toNat ≤ t.lzd.stop.toNat
  rep : t.rep = { s.rep with err := 0x00 }

/-- The control byte fetch leaves the run inside its slice: a byte is fetched only where the slice has one. -/
theorem lzRefill_inside (s : State) (hi : LzInside s) (h : ¬(s.lzd.nbits = 0 ∧ s.lzd.stop.toNat ≤ s.lzd.src.toNat)) :
    LzFrame s (lzRefill s) ∧ LzInside (lzRefill s) ∧ (lzRefill s).lzd.st = s.lzd.st ∧
      (lzRefill s).lzd.decl = s.lzd.decl ∧ (lzRefill s).lzd.out = s.lzd.out ∧
      (lzRefill s).lzd.outValid = s.lzd.outValid ∧ s.lzd.src.toNat ≤ (lzRefill s).lzd.src.toNat := by
  unfold lzRefill
  split
  · rename_i h0
    have hlt : ¬ s.lzd.stop.toNat ≤ s.lzd.src.toNat := fun hle => h ⟨h0, hle⟩
    have e : (s.lzd.src + 1).toNat = s.lzd.src.toNat + 1 := src_add (n := 1) (by decide) (by omega)
    have hl := hi.lower
    refine ⟨⟨rfl, rfl, rfl, rfl, rfl, rfl, rfl, rfl⟩, ⟨?_, ?_, hi.size, hi.form⟩, rfl, rfl, rfl, rfl, ?_⟩
    · show s.lzd.base.toNat ≤ (s.lzd.src + 1).toNat
      omega
    · show (s.lzd.src + 1).toNat ≤ s.lzd.stop.toNat
      omega
    · show s.lzd.src.toNat ≤ (s.lzd.src + 1).toNat
      omega
  · exact ⟨LzFrame.refl s, hi, rfl, rfl, rfl, rfl, Nat.le_refl _⟩

/-- One token cycle of a run: it goes on with the cursor moved, or it ended with success, or it ended with an error. -/
theorem lzCycle_cases (c : Config) (s : State) (hs : s.lzd.st = .run) (hi : LzInside s) :
    LzFrame s (lzCycle c s) ∧ (LzTaken s (lzCycle c s) ∨ LzDone s (lzCycle c s) ∨ LzFailed s (lzCycle c s)) := by
  unfold lzCycle lzFetch
  by_cases h1 : s.lzd.out.len = s.lzd.decl.toNat
  · simp only [h1, if_true]
    exact ⟨⟨rfl, rfl, rfl, rfl, rfl, rfl, rfl, rfl⟩, .inr (.inl ⟨rfl, rfl, h1, hi.form, hi.lower, hi.upper, rfl⟩)⟩
  · simp only [h1, if_false]
    by_cases h2 : s.lzd.nbits = 0 ∧ s.lzd.stop.toNat ≤ s.lzd.src.toNat
    · simp only [h2, and_self, if_true]
      exact ⟨lzFailHere_frame _ _, .inr (.inr (lzFailHere_failed (by decide) rfl hi.lower hi.upper))⟩
    · simp only [h2, if_false]
      have hlt : s.lzd.out.len < s.lzd.decl.toNat := by have := hi.size; omega
      obtain ⟨hf, hin, hst, hdecl, hout, hv, hm⟩ := lzRefill_inside s hi h2
      obtain ⟨f, h⟩ := lzToken_cases c (lzRefill s).lzd.ctl.msb (lzPeek (lzTakeBit (lzRefill s)) 0)
        (lzPeek (lzTakeBit (lzRefill s)) 1) (lzPeek (lzTakeBit (lzRefill s)) 2) (lzTakeBit (lzRefill s))
        (hst.trans hs) ⟨hin.lower, hin.upper, hin.size, hin.form⟩
        (by simp only [lzTakeBit_lzd, hout, hdecl]; exact hlt)
      have hf' : LzFrame s (lzTakeBit (lzRefill s)) :=
        hf.trans ⟨rfl, rfl, rfl, rfl, rfl, rfl, rfl, rfl⟩
      refine ⟨hf'.trans f, h.imp (fun h => ?_) (fun h => .inr ?_)⟩
      · exact ⟨h.st, h.inside, Nat.lt_of_le_of_lt hm h.moved, by rw [h.rep, lzTakeBit_rep, lzRefill_rep],
          h.outValid.trans hv⟩
      · refine ⟨h.st, h.out, h.outValid, h.lower, h.upper, ?_⟩
        have := h.rep
        rwa [lzTakeBit_rep, lzRefill_rep] at this

/-- A run that has ended is left alone by the loop. -/
theorem lzLoop_ended (c : Config) (k : Nat) (s : State) (h : s.lzd.st ≠ .run) : lzLoop c k s = s := by
  cases k with
  | zero => rfl
  | succ k => rw [lzLoop, if_neg h]

/-- The loop ends the run when it may take more cycles than there are bytes left in the slice (R114). -/
theorem lzLoop_ends (c : Config) (k : Nat) (s : State) (hs : s.lzd.st = .run) (hi : LzInside s)
    (hk : s.lzd.stop.toNat - s.lzd.src.toNat < k) :
    LzFrame s (lzLoop c k s) ∧ (LzDone s (lzLoop c k s) ∨ LzFailed s (lzLoop c k s)) := by
  induction k generalizing s with
  | zero => omega
  | succ k ih =>
    rw [lzLoop, if_pos hs]
    obtain ⟨f, h | h | h⟩ := lzCycle_cases c s hs hi
    · have hm := h.moved
      have hu := h.inside.upper
      rw [f.stop] at hu
      obtain ⟨g, d⟩ := ih _ h.st h.inside (by rw [f.stop]; omega)
      refine ⟨f.trans g, d.imp (fun d => ?_) (fun d => ?_)⟩
      · exact ⟨d.st, d.outValid, d.size, d.form, d.lower, d.upper, h.rep ▸ d.rep⟩
      · exact ⟨d.st, d.out, d.outValid, d.lower, d.upper, h.rep ▸ d.rep⟩
    · rw [lzLoop_ended c k _ (by rw [h.st]; decide)]
      exact ⟨f, .inl h⟩
    · rw [lzLoop_ended c k _ (by rw [h.st]; decide)]
      exact ⟨f, .inr h⟩

/-! ## Start and header (R102, R103) -/

/-- The slice's end, as a number: it does not wrap. -/
theorem lzStart_stop (addr : BitVec 32) (len : BitVec 23) :
    (BitVec.ofNat 33 (addr.toNat + len.toNat)).toNat = addr.toNat + len.toNat := by
  rw [BitVec.toNat_ofNat, Nat.mod_eq_of_lt (by have := addr.isLt; have := len.isLt; omega)]

/-- A run that start and header let through stands just behind the header with nothing written. -/
structure LzBegun (c : Config) (addr : BitVec 32) (s t : State) : Prop where
  st : t.lzd.st = .run
  src : t.lzd.src.toNat = addr.toNat + c.lzBodyOffset
  upper : t.lzd.src.toNat ≤ t.lzd.stop.toNat
  decl : t.lzd.decl.toNat = bigEndian (s.inp.readList (addr.toNat + 4) 4)
  out : t.lzd.out = {}
  ctl : t.lzd.ctl = 0
  nbits : t.lzd.nbits = 0
  outValid : t.lzd.outValid = false
  rep : t.rep = s.rep

/-- A run that start or header ended: the cursor has not moved. -/
structure LzUnbegun (addr : BitVec 32) (t : State) : Prop where
  st : t.lzd.st = .fail
  src : t.lzd.src.toNat = addr.toNat
  out : t.lzd.out = {}
  outValid : t.lzd.outValid = false

/-- Start and header in one equation on the error registers: which test fails first, with which error. -/
theorem lzBegin_cases (c : Config) (addr : BitVec 32) (len : BitVec 23) (s : State) (hc : c.lzBodyOffset < 2 ^ 23) :
    let t := lzBegin c addr len s
    t.inp = s.inp ∧ t.bfx = s.bfx ∧ t.esm = s.esm ∧ t.tl = s.tl ∧ t.tca = s.tca ∧ t.host = s.host ∧
      t.lzd.base = addr ∧ t.lzd.stop.toNat = addr.toNat + len.toNat ∧
      (if s.inp.len < addr.toNat + len.toNat then LzUnbegun addr t ∧ t.rep = s.rep.raised .lzTrunc s.inp.len
       else if len.toNat < 4 then LzUnbegun addr t ∧ t.rep = s.rep.raised .lzTrunc len.toNat
       else if s.inp.readList addr.toNat 4 ≠ c.lzMagic.toList then LzUnbegun addr t ∧ t.rep = s.rep.raised .lzMagic 0
       else if len.toNat < 8 then LzUnbegun addr t ∧ t.rep = s.rep.raised .lzTrunc len.toNat
       else if len.toNat < c.lzBodyOffset then
         LzUnbegun addr t ∧ t.rep = s.rep.raised .lzTrunc len.toNat ∧
           t.lzd.decl.toNat = bigEndian (s.inp.readList (addr.toNat + 4) 4)
       else if c.outMax < bigEndian (s.inp.readList (addr.toNat + 4) 4) then
         LzUnbegun addr t ∧ t.rep = s.rep.raised .lzTooBig (bigEndian (s.inp.readList (addr.toNat + 4) 4)) ∧
           t.lzd.decl.toNat = bigEndian (s.inp.readList (addr.toNat + 4) 4)
       else LzBegun c addr s t) := by
  intro t
  have hstop := lzStart_stop addr len
  have hsrc : (addr.zeroExtend 33).toNat = addr.toNat := by
    exact BitVec.toNat_setWidth_of_le (by decide)
  have hlen : lzSliceLen (lzStart addr len s) = len.toNat := by
    simp only [lzSliceLen, lzStart_lzd, hstop]
    omega
  have hdecl : bigEndian (s.inp.readList (addr.toNat + 4) 4) < 2 ^ 32 := by
    have := bigEndian_lt (s.inp.readList (addr.toNat + 4) 4)
    rw [readList_length] at this
    omega
  have hd : (BitVec.ofNat 32 (bigEndian (s.inp.readList (addr.toNat + 4) 4))).toNat =
      bigEndian (s.inp.readList (addr.toNat + 4) 4) := by rw [BitVec.toNat_ofNat, Nat.mod_eq_of_lt hdecl]
  have hbody : (BitVec.ofNat 33 (addr.toNat + c.lzBodyOffset)).toNat = addr.toNat + c.lzBodyOffset := by
    rw [BitVec.toNat_ofNat, Nat.mod_eq_of_lt (by have := addr.isLt; omega)]
  have ht : t = lzBegin c addr len s := rfl
  clear_value t
  unfold lzBegin at ht
  simp only [lzStart_lzd, hstop] at ht
  split at ht
  · subst ht
    refine ⟨rfl, rfl, rfl, rfl, rfl, rfl, rfl, hstop, ?_⟩
    rename_i h
    rw [if_pos h]
    exact ⟨⟨rfl, hsrc, rfl, rfl⟩, rfl⟩
  · rename_i h0
    rw [if_neg h0]
    unfold lzHeader at ht
    simp only [hlen, lzStart_lzd, lzStart_inp] at ht
    split at ht
    · subst ht
      rename_i h
      rw [if_pos h]
      exact ⟨rfl, rfl, rfl, rfl, rfl, rfl, rfl, hstop, ⟨rfl, hsrc, rfl, rfl⟩, rfl⟩
    · rename_i h1
      rw [if_neg h1]
      split at ht
      · subst ht
        rename_i h
        rw [if_pos h]
        exact ⟨rfl, rfl, rfl, rfl, rfl, rfl, rfl, hstop, ⟨rfl, hsrc, rfl, rfl⟩, rfl⟩
      · rename_i h2
        rw [if_neg h2]
        split at ht
        · subst ht
          rename_i h
          rw [if_pos h]
          exact ⟨rfl, rfl, rfl, rfl, rfl, rfl, rfl, hstop, ⟨rfl, hsrc, rfl, rfl⟩, rfl⟩
        · rename_i h3
          rw [if_neg h3]
          split at ht
          · subst ht
            rename_i h
            rw [if_pos h]
            exact ⟨rfl, rfl, rfl, rfl, rfl, rfl, rfl, hstop, ⟨rfl, hsrc, rfl, rfl⟩, rfl, hd⟩
          · rename_i h4
            rw [if_neg h4]
            by_cases h : c.outMax < bigEndian (s.inp.readList (addr.toNat + 4) 4)
            · replace ht := ht.trans (if_pos h)
              subst ht
              rw [if_pos h]
              exact ⟨rfl, rfl, rfl, rfl, rfl, rfl, rfl, hstop, ⟨rfl, hsrc, rfl, rfl⟩, rfl, hd⟩
            · replace ht := ht.trans (if_neg h)
              subst ht
              rw [if_neg h]
              refine ⟨rfl, rfl, rfl, rfl, rfl, rfl, rfl, hstop, rfl, hbody, ?_, hd, rfl, rfl, rfl, rfl, rfl⟩
              show (BitVec.ofNat 33 (addr.toNat + c.lzBodyOffset)).toNat ≤
                (BitVec.ofNat 33 (addr.toNat + len.toNat)).toNat
              omega

end Sys2Proof.Machine
end

