-- ==== Sys2Proof/Laws/Encoding.lean ====
section
/-! SUPPORT. The fields of a concatenation: what the decoder reads from each word the encoder writes. -/

namespace Sys2Proof

/-! ## The three fields of a command word (spec/30_encoding.md R60) -/

theorem getLsbD_command (op : BitVec 8) (a : BitVec 24) (b : BitVec 32) (k : Nat) :
    (command op a b).getLsbD k =
      if k < 32 then b.getLsbD k else if k < 56 then a.getLsbD (k - 32) else op.getLsbD (k - 56) := by
  refine (BitVec.getLsbD_append (x := op ++ a) (y := b)).trans ?_
  split
  · rfl
  · rw [BitVec.getLsbD_append]
    by_cases h : k < 56
    · rw [if_pos (by omega), if_pos h]
    · rw [if_neg (by omega), if_neg h, show k - 32 - 24 = k - 56 by omega]

theorem opField_command (op : BitVec 8) (a : BitVec 24) (b : BitVec 32) : opField (command op a b) = op := by
  refine BitVec.eq_of_getLsbD_eq fun k hk => ?_
  simp only [opField, BitVec.getLsbD_extractLsb', getLsbD_command, hk, decide_true, Bool.true_and]
  rw [if_neg (by omega), if_neg (by omega), Nat.add_sub_cancel_left]

theorem aField_command (op : BitVec 8) (a : BitVec 24) (b : BitVec 32) : aField (command op a b) = a := by
  refine BitVec.eq_of_getLsbD_eq fun k hk => ?_
  simp only [aField, BitVec.getLsbD_extractLsb', getLsbD_command, hk, decide_true, Bool.true_and]
  rw [if_neg (by omega), if_pos (by omega), Nat.add_sub_cancel_left]

theorem bField_command (op : BitVec 8) (a : BitVec 24) (b : BitVec 32) : bField (command op a b) = b :=
  BitVec.extractLsb'_append_eq_right

/-- A command word is its three fields. -/
theorem command_fields (cmd : Command) : command (opField cmd) (aField cmd) (bField cmd) = cmd := by
  refine BitVec.eq_of_getLsbD_eq fun k hk => ?_
  rw [getLsbD_command]
  simp only [opField, aField, bField, BitVec.getLsbD_extractLsb']
  by_cases h : k < 32
  · simp [h]
  · by_cases h' : k < 56
    · simp [h, h', show k - 32 < 24 by omega, show 32 + (k - 32) = k by omega]
    · simp [h, h', show k - 56 < 8 by omega, show 56 + (k - 56) = k by omega]

theorem command_inj {op op' : BitVec 8} {a a' : BitVec 24} {b b' : BitVec 32} (h : command op a b = command op' a' b') :
    op = op' ∧ a = a' ∧ b = b' :=
  ⟨by rw [← opField_command op a b, h, opField_command], by rw [← aField_command op a b, h, aField_command],
    by rw [← bField_command op a b, h, bField_command]⟩

/-! ## Three fields in one operand -/

/-- The middle field of three. -/
theorem extract_middle {u v w : Nat} (x : BitVec u) (y : BitVec v) (z : BitVec w) :
    (x ++ y ++ z).extractLsb' w v = y := by
  refine BitVec.eq_of_getLsbD_eq fun k hk => ?_
  rw [BitVec.getLsbD_extractLsb', BitVec.getLsbD_append, if_neg (by omega), BitVec.getLsbD_append, if_pos (by omega)]
  simp [hk]

/-- The top field of three; `n` is where it starts. -/
theorem extract_top {u v w n : Nat} (x : BitVec u) (y : BitVec v) (z : BitVec w) (h : n = w + v) :
    (x ++ y ++ z).extractLsb' n u = x := by
  subst h
  refine BitVec.eq_of_getLsbD_eq fun k hk => ?_
  rw [BitVec.getLsbD_extractLsb', BitVec.getLsbD_append, if_neg (by omega), BitVec.getLsbD_append, if_neg (by omega)]
  simp [hk, show w + v + k - w - v = k by omega]

/-- A value split in two and put together again. -/
theorem append_extract {u w n : Nat} (x : BitVec n) (h : n = u + w) :
    (x.extractLsb' w u ++ x.extractLsb' 0 w) = x.cast h := by
  subst h
  refine BitVec.eq_of_getLsbD_eq fun k hk => ?_
  rw [BitVec.getLsbD_append]
  simp only [BitVec.getLsbD_extractLsb', BitVec.getLsbD_cast]
  by_cases hw : k < w
  · simp [hw]
  · simp [hw, show k - w < u by omega, show w + (k - w) = k by omega]

theorem spaceOf_spaceBit (s : Sp) : spaceOf (spaceBit s) = s := by cases s <;> rfl

theorem spaceBit_spaceOf (b : BitVec 1) : spaceBit (spaceOf b) = b := by
  rcases BitVec.eq_zero_or_eq_one b with h | h <;> subst h <;> rfl

end Sys2Proof
end

