-- ==== Sys2Proof/Laws/Events.lean ====
section
/-! SUPPORT. What the parts of the event-stream decoder can do (spec/42_event_streams.md): merging, the three records,
one turn of the record loops, and the loop. One lemma per operation: cite it, do not unfold the operation. -/

namespace Sys2Proof.Machine

open Sys2Proof

/-! ## Merging (R135, R137) -/

/-- A face entry meets the last entry of FACE. -/
theorem pushFace_append (front : List FaceEvent) (a e : FaceEvent) :
    pushFace (front ++ [a]) e =
      if a.st = e.st then front ++ [{ a with dur := a.dur + e.dur }] else front ++ [a, e] := by
  induction front with
  | nil =>
    simp only [List.nil_append, pushFace]
  | cons x xs ih =>
    obtain ⟨y, ys, h⟩ : ∃ y ys, xs ++ [a] = y :: ys := by
      cases xs with
      | nil => exact ⟨_, _, rfl⟩
      | cons y ys => exact ⟨_, _, rfl⟩
    rw [List.cons_append, h, pushFace, ← h, ih]
    split <;> rfl

/-- A stick entry meets the last entry of STICK. -/
theorem pushStick_append (front : List StickEvent) (a e : StickEvent) :
    pushStick (front ++ [a]) e =
      if a.x = e.x ∧ a.y = e.y then front ++ [{ a with dur := a.dur + e.dur }] else front ++ [a, e] := by
  induction front with
  | nil =>
    simp only [List.nil_append, pushStick]
  | cons x xs ih =>
    obtain ⟨y, ys, h⟩ : ∃ y ys, xs ++ [a] = y :: ys := by
      cases xs with
      | nil => exact ⟨_, _, rfl⟩
      | cons y ys => exact ⟨_, _, rfl⟩
    rw [List.cons_append, h, pushStick, ← h, ih]
    split <;> rfl

/-- An array is empty or has a last entry. -/
theorem nil_or_append {α : Type} (l : List α) : l = [] ∨ ∃ front last, l = front ++ [last] := by
  rcases List.eq_nil_or_concat l with h | ⟨front, last, h⟩
  · exact .inl h
  · exact .inr ⟨front, last, by rw [h, List.concat_eq_append]⟩

/-- Merging adds at most one entry. -/
theorem pushFace_length (l : List FaceEvent) (e : FaceEvent) : (pushFace l e).length ≤ l.length + 1 := by
  rcases nil_or_append l with rfl | ⟨front, a, rfl⟩
  · simp [pushFace]
  · rw [pushFace_append]
    split <;> simp

theorem pushStick_length (l : List StickEvent) (e : StickEvent) : (pushStick l e).length ≤ l.length + 1 := by
  rcases nil_or_append l with rfl | ⟨front, a, rfl⟩
  · simp [pushStick]
  · rw [pushStick_append]
    split <;> simp

/-- An entry of STICK after a push has coordinates that were there before or are the pushed entry's. -/
theorem pushStick_mem {l : List StickEvent} {e a : StickEvent} (h : a ∈ pushStick l e) :
    (∃ b ∈ l, a.x = b.x ∧ a.y = b.y) ∨ (a.x = e.x ∧ a.y = e.y) := by
  rcases nil_or_append l with rfl | ⟨front, b, rfl⟩
  · simp only [pushStick, List.mem_singleton] at h
    exact .inr (by rw [h]; exact ⟨rfl, rfl⟩)
  · rw [pushStick_append] at h
    split at h
    · rcases List.mem_append.mp h with h | h
      · exact .inl ⟨a, List.mem_append_left _ h, rfl, rfl⟩
      · rw [List.mem_singleton] at h
        exact .inl ⟨b, List.mem_append_right _ (List.mem_singleton.mpr rfl), by rw [h], by rw [h]⟩
    · rcases List.mem_append.mp h with h | h
      · exact .inl ⟨a, List.mem_append_left _ h, rfl, rfl⟩
      · rcases List.mem_cons.mp h with h | h
        · exact .inl ⟨b, List.mem_append_right _ (List.mem_singleton.mpr rfl), by rw [h], by rw [h]⟩
        · rw [List.mem_singleton] at h
          exact .inr (by rw [h]; exact ⟨rfl, rfl⟩)

/-! ## What one turn of the record loops can do -/

/-- Nothing outside ESM's decoder and the error registers changed, and the region and its counts are the same. -/
structure EsFrame (s t : State) : Prop where
  inp : t.inp = s.inp
  bfx : t.bfx = s.bfx
  lzd : t.lzd = s.lzd
  tl : t.tl = s.tl
  tca : t.tca = s.tca
  host : t.host = s.host
  cntF : t.esm.cntF = s.esm.cntF
  cntS : t.esm.cntS = s.esm.cntS
  cntD : t.esm.cntD = s.esm.cntD

theorem EsFrame.trans {s t u : State} (h : EsFrame s t) (k : EsFrame t u) : EsFrame s u :=
  ⟨k.inp.trans h.inp, k.bfx.trans h.bfx, k.lzd.trans h.lzd, k.tl.trans h.tl, k.tca.trans h.tca, k.host.trans h.host,
    k.cntF.trans h.cntF, k.cntS.trans h.cntS, k.cntD.trans h.cntD⟩

/-- The errors a decode raises (R140). -/
def esErrors : List ErrCode := [.esTrunc, .esFace, .esStick, .esDpad]

/-- A decode that failed (R140): the arrays are empty. -/
structure EsFailed (s t : State) : Prop where
  face : t.esm.face = []
  stick : t.esm.stick = []
  dpad : t.esm.dpad = []
  esValid : t.esm.esValid = false
  walk : t.esm.walk = {}
  rep : ∃ e ∈ esErrors, ∃ info, t.rep = s.rep.raised e info

/-- A record that was taken: `p` has moved by 2, and the three arrays are what the record's rule makes of them. -/
structure EsTaken (c : Config) (stream : Stream) (b0 b1 : Byte) (s t : State) : Prop where
  walk : t.esm.walk = { s.esm.walk with p := s.esm.walk.p + 2 }
  esValid : t.esm.esValid = s.esm.esValid
  rep : t.rep = s.rep
  face : t.esm.face =
    if stream = .face then pushFace s.esm.face { st := b0, dur := b1.zeroExtend 32 } else s.esm.face
  stick : t.esm.stick =
    if stream = .stick then
      pushStick s.esm.stick { x := unbias c (rawX c b0), y := unbias c (rawY c b0), dur := b1.zeroExtend 32 }
    else s.esm.stick
  dpad : t.esm.dpad =
    if stream = .dpad then s.esm.dpad ++ [{ dir := dpadDir c b0, dur := dpadDur c b0 b1 }] else s.esm.dpad
  /-- The record was legal. -/
  legal : match stream with
    | .face => c.faceLegal b0 = true
    | .stick => rawX c b0 ≠ 15 ∧ rawY c b0 ≠ 15
    | .dpad => c.dpadLegal (dpadDir c b0) = true

theorem esFail_failed {e : ErrCode} (he : e ∈ esErrors) (info : Nat) (s : State) : EsFailed s (esFail e info s) :=
  ⟨rfl, rfl, rfl, rfl, rfl, e, he, info, rfl⟩

theorem esFail_frame (e : ErrCode) (info : Nat) (s : State) : EsFrame s (esFail e info s) :=
  ⟨rfl, rfl, rfl, rfl, rfl, rfl, rfl, rfl, rfl⟩

/-- A record: taken or failed. -/
theorem esRecord_cases (c : Config) (stream : Stream) (b0 b1 : Byte) (s : State) :
    EsFrame s (esRecord c stream b0 b1 s) ∧
      (EsTaken c stream b0 b1 s (esRecord c stream b0 b1 s) ∨ EsFailed s (esRecord c stream b0 b1 s)) := by
  cases stream with
  | face =>
    simp only [esRecord, esFaceRecord]
    split
    · rename_i h
      exact ⟨⟨rfl, rfl, rfl, rfl, rfl, rfl, rfl, rfl, rfl⟩, .inl ⟨rfl, rfl, rfl, rfl, rfl, rfl, h⟩⟩
    · exact ⟨esFail_frame _ _ _, .inr (esFail_failed (by decide) _ _)⟩
  | stick =>
    simp only [esRecord, esStickRecord]
    split
    · exact ⟨esFail_frame _ _ _, .inr (esFail_failed (by decide) _ _)⟩
    · rename_i h
      exact ⟨⟨rfl, rfl, rfl, rfl, rfl, rfl, rfl, rfl, rfl⟩, .inl ⟨rfl, rfl, rfl, rfl, rfl, rfl, not_or.mp h⟩⟩
  | dpad =>
    simp only [esRecord, esDpadRecord]
    split
    · rename_i h
      exact ⟨⟨rfl, rfl, rfl, rfl, rfl, rfl, rfl, rfl, rfl⟩, .inl ⟨rfl, rfl, rfl, rfl, rfl, rfl, h⟩⟩
    · exact ⟨esFail_frame _ _ _, .inr (esFail_failed (by decide) _ _)⟩

/-- One turn of the record loops: the decode ended with success when all records are taken, or with `E_ES_TRUNC(p)` when
the next one is not inside the region, or it is the record's rule on the next two bytes. -/
theorem esCycle_eq (c : Config) (s : State) :
    esCycle c s =
      match esStreamAt s.esm with
      | none => esSucceed s
      | some stream =>
        if s.esm.walk.len.toNat < s.esm.walk.p + 2 then esFail .esTrunc s.esm.walk.p s
        else esRecord c stream (esByte s s.esm.walk.p) (esByte s (s.esm.walk.p + 1)) s := by
  unfold esCycle esFetch
  simp only
  cases esStreamAt s.esm with
  | none => rfl
  | some stream =>
    by_cases h : s.esm.walk.len.toNat < s.esm.walk.p + 2
    · simp only [h, if_true]
    · simp only [h, if_false]

/-- The records are those of the three streams one after another (spec/30_encoding.md R67). -/
theorem esStreamAt_eq (m : Esm) (k : Nat) (h : m.walk.p = 8 + 2 * k) :
    esStreamAt m =
      if k < m.cntF.toNat then some .face
      else if k < m.cntF.toNat + m.cntS.toNat then some .stick
      else if k < esRecords m then some .dpad
      else none := by
  unfold esStreamAt
  rw [h, show (8 + 2 * k - 8) / 2 = k by omega]

/-- All records are taken when as many are taken as were counted. -/
theorem esStreamAt_none (m : Esm) (k : Nat) (h : m.walk.p = 8 + 2 * k) : esStreamAt m = none ↔ esRecords m ≤ k := by
  rw [esStreamAt_eq m k h]
  unfold esRecords
  split
  · simp; omega
  · split
    · simp; omega
    · split
      · simp; omega
      · simp; omega

/-- A decode that has ended is left alone by the loop. -/
theorem esLoop_ended (c : Config) (k : Nat) (s : State) (h : s.esm.walk.busy = false) : esLoop c k s = s := by
  cases k with
  | zero => rfl
  | succ k => rw [esLoop, if_neg (by rw [h]; decide)]

/-- The loop ends the decode when it may take one turn more than there are records left. `keep` says that `inv` is kept
by every record taken; it then holds of the state whose arrays a successful decode leaves, and of the state in which a
turn failed. -/
theorem esLoop_ends (c : Config) (inv : State → Prop)
    (keep : ∀ (s t : State) (stream : Stream), inv s → esStreamAt s.esm = some stream →
      s.esm.walk.p + 2 ≤ s.esm.walk.len.toNat → EsFrame s t →
      EsTaken c stream (esByte s s.esm.walk.p) (esByte s (s.esm.walk.p + 1)) s t → inv t)
    (n k : Nat) (s : State) (hb : s.esm.walk.busy = true) (hp : s.esm.walk.p = 8 + 2 * k) (hk : k ≤ esRecords s.esm)
    (hn : esRecords s.esm < n + k) (hi : inv s) :
    EsFrame s (esLoop c n s) ∧
      ((∃ u, inv u ∧ u.esm.walk = { s.esm.walk with p := 8 + 2 * esRecords s.esm } ∧ EsFrame s u ∧ u.rep = s.rep ∧
          esLoop c n s = esSucceed u) ∨
        ∃ u j stream, inv u ∧ u.esm.walk = { s.esm.walk with p := 8 + 2 * j } ∧ j < esRecords s.esm ∧ EsFrame s u ∧
          u.rep = s.rep ∧ esStreamAt u.esm = some stream ∧ esLoop c n s = esCycle c u ∧
          EsFailed s (esLoop c n s)) := by
  induction n generalizing s k with
  | zero => omega
  | succ n ih =>
    have hs : EsFrame s s := ⟨rfl, rfl, rfl, rfl, rfl, rfl, rfl, rfl, rfl⟩
    rw [esLoop, if_pos hb]
    have hcyc := esCycle_eq c s
    cases hst : esStreamAt s.esm with
    | none =>
      have hle := (esStreamAt_none _ _ hp).mp hst
      simp only [hst] at hcyc
      rw [hcyc, esLoop_ended _ _ _ (by rfl)]
      refine ⟨⟨rfl, rfl, rfl, rfl, rfl, rfl, rfl, rfl, rfl⟩, .inl ⟨s, hi, ?_, hs, rfl, rfl⟩⟩
      rw [show esRecords s.esm = k by omega, ← hp]
    | some stream =>
      have hlt : k < esRecords s.esm := by
        refine Nat.lt_of_not_le fun h => ?_
        rw [(esStreamAt_none _ _ hp).mpr h] at hst
        cases hst
      by_cases hlen : s.esm.walk.len.toNat < s.esm.walk.p + 2
      · simp only [hst, hlen, if_true] at hcyc
        rw [esLoop_ended _ _ _ (by rw [hcyc]; rfl)]
        refine ⟨hcyc ▸ esFail_frame _ _ _, .inr ⟨s, k, stream, hi, by rw [← hp], hlt, hs, rfl, hst, rfl, ?_⟩⟩
        exact hcyc ▸ esFail_failed (by decide) _ _
      · simp only [hst, hlen, if_false] at hcyc
        rw [hcyc]
        obtain ⟨f, h | h⟩ := esRecord_cases c stream (esByte s s.esm.walk.p) (esByte s (s.esm.walk.p + 1)) s
        · generalize esRecord c stream (esByte s s.esm.walk.p) (esByte s (s.esm.walk.p + 1)) s = t at f h
          have hr : esRecords t.esm = esRecords s.esm := by
            rw [esRecords, esRecords, f.cntF, f.cntS, f.cntD]
          have hw := h.walk
          obtain ⟨g, h'⟩ := ih (k + 1) t (by rw [hw]; exact hb) (by rw [hw]; simp only [hp]; omega) (by omega)
            (by omega) (keep s t stream hi hst (by omega) f h)
          refine ⟨f.trans g, ?_⟩
          obtain ⟨u, h1, h2, h3, h4, h5⟩ | ⟨u, j, st, h1, h2, h3, h4, h5, h6, h7, h'⟩ := h'
          · exact .inl ⟨u, h1, by rw [h2, hw, hr], f.trans h3, h4.trans h.rep, h5⟩
          · exact .inr ⟨u, j, st, h1, by rw [h2, hw], hr ▸ h3, f.trans h4, h5.trans h.rep, h6, h7,
              h'.face, h'.stick, h'.dpad, h'.esValid, h'.walk, h.rep ▸ h'.rep⟩
        · rw [esLoop_ended _ _ _ (by rw [h.walk])]
          exact ⟨f, .inr ⟨s, k, stream, hi, by rw [← hp], hlt, hs, rfl, hst, hcyc.symm, h⟩⟩

/-! ## Begin (R132 steps 1 to 5, R133) -/

/-- A 16-bit big-endian count, as a number. -/
theorem count_toNat (m : Space) (a : Nat) :
    (BitVec.ofNat 16 (bigEndian (m.readList a 2))).toNat = (m.read a).toNat * 256 + (m.read (a + 1)).toNat := by
  have h := (m.read a).isLt
  have h' := (m.read (a + 1)).isLt
  have e : bigEndian (m.readList a 2) = (m.read a).toNat * 256 + (m.read (a + 1)).toNat := by
    simp only [Space.readList, bigEndian_cons, bigEndian_nil, List.length_cons, List.length_nil]
    omega
  rw [e, BitVec.toNat_ofNat, Nat.mod_eq_of_lt (by omega)]

/-- The decode has read its counts: everything of ESM is cleared but the counts and the region's locals. -/
structure EsBegun (sp : Sp) (addr : BitVec 32) (len : BitVec 23) (s t : State) : Prop where
  walk : t.esm.walk = { busy := true, sp := sp, addr := addr, len := len, p := 8 }
  cntF : t.esm.cntF.toNat = (s.byteAt sp addr.toNat).toNat * 256 + (s.byteAt sp (addr.toNat + 1)).toNat
  cntS : t.esm.cntS.toNat = (s.byteAt sp (addr.toNat + 2)).toNat * 256 + (s.byteAt sp (addr.toNat + 3)).toNat
  cntD : t.esm.cntD.toNat = (s.byteAt sp (addr.toNat + 4)).toNat * 256 + (s.byteAt sp (addr.toNat + 5)).toNat
  face : t.esm.face = []
  stick : t.esm.stick = []
  dpad : t.esm.dpad = []
  esValid : t.esm.esValid = false
  rep : t.rep = s.rep

/-- The first five steps: which test fails, with which error; the merger is restarted either way (R139). -/
theorem esBegin_cases (sp : Sp) (addr : BitVec 32) (len : BitVec 23) (s : State) :
    let t := esBegin sp addr len s
    t.inp = s.inp ∧ t.bfx = s.bfx ∧ t.lzd = s.lzd ∧ t.tl = {} ∧ t.tca = s.tca ∧ t.host = s.host ∧
      (if (s.space sp).len < addr.toNat + len.toNat then t.esm = {} ∧ t.rep = s.rep.raised .esTrunc (s.space sp).len
       else if len.toNat < 8 then t.esm = {} ∧ t.rep = s.rep.raised .esTrunc len.toNat
       else EsBegun sp addr len s t) := by
  intro t
  have ht : t = esBegin sp addr len s := rfl
  clear_value t
  unfold esBegin at ht
  simp only at ht
  split at ht
  · subst ht
    rename_i h
    rw [if_pos h]
    exact ⟨rfl, rfl, rfl, rfl, rfl, rfl, rfl, rfl⟩
  · rename_i h
    rw [if_neg h]
    split at ht
    · subst ht
      rename_i h
      rw [if_pos h]
      exact ⟨rfl, rfl, rfl, rfl, rfl, rfl, rfl, rfl⟩
    · subst ht
      rename_i h
      rw [if_neg h]
      exact ⟨rfl, rfl, rfl, rfl, rfl, rfl, rfl, count_toNat _ _, count_toNat _ _, count_toNat _ _, rfl, rfl, rfl, rfl, rfl⟩

end Sys2Proof.Machine
end

