-- ==== Sys2Proof/Laws/PerInstr.lean ====
section
/-! SUPPORT. For every instruction: its encoding has the form its row of spec/opcode_table.json gives. The rows are
written here a second time, as patterns, so that the encoder is held against the table and not against the decoder. -/

namespace Sys2Proof.Laws

open Sys2Proof

/-- What a row of the opcode table says of an encoding. -/
inductive EncodingForm.Row where
  /-- A command row: `match` and `mask` (spec/30_encoding.md R63). -/
  | command (pattern mask : Command)
  /-- A token row: the control bit, and the number of bytes, which the first byte's top nibble must select (R65). -/
  | token (bit : Bool) (length : Nat)
  /-- A record row: the stream it stands in (R68). -/
  | record (stream : Stream)

/-- The row of an instruction. -/
def EncodingForm.row : Instr → EncodingForm.Row
  | .sysNop => .command 0x0000000000000000 0xFFFFFFFFFFFFFFFF
  | .sysReset => .command 0x0100000000000000 0xFFFFFFFFFFFFFFFF
  | .bfLoad _ _ _ => .command 0x1000000000000000 0xFF7FFFF800000000
  | .bfBit _ => .command 0x1100000000000000 0xFFFFFFFF00000000
  | .bfByte _ => .command 0x1200000000000000 0xFFFFFFFF00000000
  | .bfWord _ => .command 0x1300000000000000 0xFFFFFFFF00000000
  | .bfShl _ => .command 0x1400000000000000 0xFFFFFFFF00000000
  | .bfShr _ => .command 0x1500000000000000 0xFFFFFFFF00000000
  | .bfField _ _ => .command 0x1600000000000000 0xFFFF0000FFFFFFFF
  | .lzRun _ _ => .command 0x2000000000000000 0xFF80000000000000
  | .esDecode _ _ _ => .command 0x3000000000000000 0xFF00000000000000
  | .tlRestart => .command 0x3100000000000000 0xFFFFFFFFFFFFFFFF
  | .tlNext => .command 0x3200000000000000 0xFFFFFFFFFFFFFFFF
  | .tcClr => .command 0x4000000000000000 0xFFFFFFFFFFFFFFFF
  | .tcFin _ _ _ _ => .command 0x4100000000000000 0xFF00000000000000
  | .tcLap _ _ _ _ => .command 0x4200000000000000 0xFF00000000000000
  | .lzLit _ => .token true 1
  | .lzRef _ _ => .token false 2
  | .lzRefx _ _ => .token false 3
  | .evFace _ _ => .record .face
  | .evStick _ _ _ => .record .stick
  | .evDpad _ _ _ _ => .record .dpad

/-- An encoding has the form of a row. -/
def EncodingForm.fits (r : EncodingForm.Row) (e : Encoded) : Prop :=
  match r with
  | .command pattern mask => ∃ cmd, e = .command cmd ∧ cmd &&& mask = pattern
  | .token bit length => ∃ b1 rest, e = .token bit (b1 :: rest) ∧ rest.length + 1 = length ∧ tokenLength bit b1 = length
  | .record stream => ∃ b0 b1, e = .record stream b0 b1

/-- The encoding of a well-formed instruction has the form of the instruction's row. -/
def EncodingForm.Statement (i : Instr) : Prop :=
  i.wellFormed = true → EncodingForm.fits (EncodingForm.row i) (encode i)

/-- A mask over the three fields of a command word acts on each field. -/
theorem EncodingForm.command_and (op mop : BitVec 8) (a ma : BitVec 24) (b mb : BitVec 32) :
    command op a b &&& command mop ma mb = command (op &&& mop) (a &&& ma) (b &&& mb) :=
  BitVec.and_append.trans (congrArg (fun x : BitVec 32 => x ++ (b &&& mb)) BitVec.and_append)

/-- A command row holds when the mask and the pattern are given field by field. -/
theorem EncodingForm.fits_command {pattern mask : Command} {op mop pop : BitVec 8} {a ma pa : BitVec 24}
    {b mb pb : BitVec 32} (hm : mask = command mop ma mb) (hp : pattern = command pop pa pb) (ho : op &&& mop = pop)
    (ha : a &&& ma = pa) (hb : b &&& mb = pb) :
    EncodingForm.fits (.command pattern mask) (.command (command op a b)) :=
  ⟨_, rfl, by rw [hm, hp, EncodingForm.command_and, ho, ha, hb]⟩

theorem EncodingForm.sysNop : EncodingForm.Statement .sysNop :=
  fun _ => EncodingForm.fits_command (mop := 0xFF) (ma := 0xFFFFFF) (mb := 0xFFFFFFFF) (pop := 0x00) (pa := 0) (pb := 0)
    (by decide) (by decide) (by decide) (by simp) (by simp)

theorem EncodingForm.sysReset : EncodingForm.Statement .sysReset :=
  fun _ => EncodingForm.fits_command (mop := 0xFF) (ma := 0xFFFFFF) (mb := 0xFFFFFFFF) (pop := 0x01) (pa := 0) (pb := 0)
    (by decide) (by decide) (by decide) (by simp) (by simp)

theorem EncodingForm.bfLoad (s : Sp) (n : BitVec 3) (addr : BitVec 32) : EncodingForm.Statement (.bfLoad s n addr) :=
  fun _ => EncodingForm.fits_command (mop := 0xFF) (ma := 0x7FFFF8) (mb := 0) (pop := 0x10) (pa := 0) (pb := 0)
    (by decide) (by decide) (by decide) (by rw [show (0x7FFFF8 : BitVec 24) = 0#1 ++ 0xFFFFF#20 ++ 0#3 by decide, BitVec.and_append, BitVec.and_append]; simp) (by simp)

theorem EncodingForm.bfBit (idx : BitVec 32) : EncodingForm.Statement (.bfBit idx) :=
  fun _ => EncodingForm.fits_command (mop := 0xFF) (ma := 0xFFFFFF) (mb := 0) (pop := 0x11) (pa := 0) (pb := 0)
    (by decide) (by decide) (by decide) (by simp) (by simp)

theorem EncodingForm.bfByte (idx : BitVec 32) : EncodingForm.Statement (.bfByte idx) :=
  fun _ => EncodingForm.fits_command (mop := 0xFF) (ma := 0xFFFFFF) (mb := 0) (pop := 0x12) (pa := 0) (pb := 0)
    (by decide) (by decide) (by decide) (by simp) (by simp)

theorem EncodingForm.bfWord (idx : BitVec 32) : EncodingForm.Statement (.bfWord idx) :=
  fun _ => EncodingForm.fits_command (mop := 0xFF) (ma := 0xFFFFFF) (mb := 0) (pop := 0x13) (pa := 0) (pb := 0)
    (by decide) (by decide) (by decide) (by simp) (by simp)

theorem EncodingForm.bfShl (d : BitVec 32) : EncodingForm.Statement (.bfShl d) :=
  fun _ => EncodingForm.fits_command (mop := 0xFF) (ma := 0xFFFFFF) (mb := 0) (pop := 0x14) (pa := 0) (pb := 0)
    (by decide) (by decide) (by decide) (by simp) (by simp)

theorem EncodingForm.bfShr (d : BitVec 32) : EncodingForm.Statement (.bfShr d) :=
  fun _ => EncodingForm.fits_command (mop := 0xFF) (ma := 0xFFFFFF) (mb := 0) (pop := 0x15) (pa := 0) (pb := 0)
    (by decide) (by decide) (by decide) (by simp) (by simp)

theorem EncodingForm.bfField (lo wid : BitVec 8) : EncodingForm.Statement (.bfField lo wid) :=
  fun _ => EncodingForm.fits_command (mop := 0xFF) (ma := 0xFF0000) (mb := 0xFFFFFFFF) (pop := 0x16) (pa := 0) (pb := 0)
    (by decide) (by decide) (by decide) (by rw [show (0xFF0000 : BitVec 24) = 0xFF#8 ++ 0#8 ++ 0#8 by decide, BitVec.and_append, BitVec.and_append]; simp) (by simp)

theorem EncodingForm.lzRun (addr : BitVec 32) (len : BitVec 23) : EncodingForm.Statement (.lzRun addr len) :=
  fun _ => EncodingForm.fits_command (mop := 0xFF) (ma := 0x800000) (mb := 0) (pop := 0x20) (pa := 0) (pb := 0)
    (by decide) (by decide) (by decide) (by rw [show (0x800000 : BitVec 24) = 1#1 ++ 0#23 by decide, BitVec.and_append]; simp) (by simp)

theorem EncodingForm.esDecode (s : Sp) (addr : BitVec 32) (len : BitVec 23) : EncodingForm.Statement (.esDecode s addr len) :=
  fun _ => EncodingForm.fits_command (mop := 0xFF) (ma := 0) (mb := 0) (pop := 0x30) (pa := 0) (pb := 0)
    (by decide) (by decide) (by decide) (by simp) (by simp)

theorem EncodingForm.tlRestart : EncodingForm.Statement .tlRestart :=
  fun _ => EncodingForm.fits_command (mop := 0xFF) (ma := 0xFFFFFF) (mb := 0xFFFFFFFF) (pop := 0x31) (pa := 0) (pb := 0)
    (by decide) (by decide) (by decide) (by simp) (by simp)

theorem EncodingForm.tlNext : EncodingForm.Statement .tlNext :=
  fun _ => EncodingForm.fits_command (mop := 0xFF) (ma := 0xFFFFFF) (mb := 0xFFFFFFFF) (pop := 0x32) (pa := 0) (pb := 0)
    (by decide) (by decide) (by decide) (by simp) (by simp)

theorem EncodingForm.tcClr : EncodingForm.Statement .tcClr :=
  fun _ => EncodingForm.fits_command (mop := 0xFF) (ma := 0xFFFFFF) (mb := 0xFFFFFFFF) (pop := 0x40) (pa := 0) (pb := 0)
    (by decide) (by decide) (by decide) (by simp) (by simp)

theorem EncodingForm.tcFin (min sec : BitVec 7) (ms : BitVec 10) (fbits : BitVec 32) : EncodingForm.Statement (.tcFin min sec ms fbits) :=
  fun _ => EncodingForm.fits_command (mop := 0xFF) (ma := 0) (mb := 0) (pop := 0x41) (pa := 0) (pb := 0)
    (by decide) (by decide) (by decide) (by simp) (by simp)

theorem EncodingForm.tcLap (min sec : BitVec 7) (ms : BitVec 10) (fbits : BitVec 32) : EncodingForm.Statement (.tcLap min sec ms fbits) :=
  fun _ => EncodingForm.fits_command (mop := 0xFF) (ma := 0) (mb := 0) (pop := 0x42) (pa := 0) (pb := 0)
    (by decide) (by decide) (by decide) (by simp) (by simp)

theorem EncodingForm.lzLit (v : Byte) : EncodingForm.Statement (.lzLit v) :=
  fun _ => ⟨v, [], rfl, rfl, rfl⟩

theorem EncodingForm.lzRef (n : BitVec 4) (d : BitVec 12) : EncodingForm.Statement (.lzRef n d) := by
  intro h
  refine ⟨n ++ d.extractLsb' 8 4, [d.extractLsb' 0 8], rfl, rfl, ?_⟩
  have hn : n ≠ 0 := by simpa [Instr.wellFormed] using h
  have ht : (n ++ d.extractLsb' 8 4).extractLsb' 4 4 = n := BitVec.extractLsb'_append_eq_left
  simp only [tokenLength, ht]
  rw [if_neg Bool.false_ne_true, if_neg hn]

theorem EncodingForm.lzRefx (d : BitVec 12) (l : Byte) : EncodingForm.Statement (.lzRefx d l) := by
  intro _
  refine ⟨0#4 ++ d.extractLsb' 8 4, [d.extractLsb' 0 8, l], rfl, rfl, ?_⟩
  have ht : (0#4 ++ d.extractLsb' 8 4).extractLsb' 4 4 = 0#4 := BitVec.extractLsb'_append_eq_left
  simp only [tokenLength, ht]
  simp

theorem EncodingForm.evFace (s t : Byte) : EncodingForm.Statement (.evFace s t) := fun _ => ⟨_, _, rfl⟩

theorem EncodingForm.evStick (x y : BitVec 4) (t : Byte) : EncodingForm.Statement (.evStick x y t) :=
  fun _ => ⟨_, _, rfl⟩

theorem EncodingForm.evDpad (e : BitVec 4) (i : BitVec 1) (d : BitVec 3) (t : Byte) :
    EncodingForm.Statement (.evDpad e i d t) :=
  fun _ => ⟨_, _, rfl⟩

end Sys2Proof.Laws
end

