-- ==== Sys2Proof/Laws/Pseudo.lean ====
section
/-! SUPPORT. What the pseudo-command `TL.ALL` comes to (Machine/Pseudo.lean), command by command. -/

namespace Sys2Proof.Machine

open Sys2Proof

@[simp] theorem execList_nil (s : State) : execList [] s = .next s := rfl

/-- A command that answers a next state is followed by the rest of the sequence there. -/
theorem execList_cons {i : Instr} {s t : State} (rest : List Instr) (h : exec i s = .next t) :
    execList (i :: rest) s = execList rest t := by
  rw [execList, h]

/-- A flag appended to a word is its lowest bit. -/
theorem getLsbD_append_flag {w : Nat} (x : BitVec w) (b : Bool) (k : Nat) :
    (x ++ flagBit b).getLsbD k = if k = 0 then b else x.getLsbD (k - 1) := by
  rw [BitVec.getLsbD_append]
  cases k with
  | zero => cases b <;> rfl
  | succ k => simp

/-- What the host reads as `TL_DONE` is the flag. -/
@[simp] theorem readDone_eq (s : State) : s.readDone = s.tl.ended := by
  show (s.statusWord.setWidth 64).getLsbD 3 = s.tl.ended
  rw [BitVec.getLsbD_setWidth]
  refine (congrArg (_ && ·) ((getLsbD_append_flag _ _ 3).trans ((getLsbD_append_flag _ _ 2).trans
    ((getLsbD_append_flag _ _ 1).trans (getLsbD_append_flag _ _ 0))))).trans ?_
  rfl

/-- With decoded streams `TL.NEXT` is a merge step. -/
theorem exec_tlNext {s : State} (h : s.esm.esValid = true) : exec .tlNext s = .next (mergeStep engine s) := by
  show Host.Outcome.next (tlNext engine s) = _
  rw [tlNext, if_pos h]

/-- One repetition with decoded streams: the end of the timeline, or one entry read and the repetitions after it. -/
theorem tlAllLoop_succ {s : State} (h : s.esm.esValid = true) (k : Nat) :
    tlAllLoop (k + 1) s =
      if (mergeStep engine s).tl.ended then some ([], mergeStep engine s)
      else (tlAllLoop k (mergeStep engine s)).map fun r => ((mergeStep engine s).readEntry :: r.1, r.2) := by
  rw [tlAllLoop, exec_tlNext h]
  simp only [readDone_eq]

end Sys2Proof.Machine
end

