-- ==== Sys2Proof/Laws/Step.lean ====
section
/-! SUPPORT. What a step comes to, between commands and inside one (Machine/Fetch.lean, Machine/Step.lean). -/

namespace Sys2Proof.Machine

open Sys2Proof

/-- Only commands decode from a command word. -/
theorem decodeCommand_kind {cmd : Command} {i : Instr} (h : decodeCommand cmd = .ok i) : i.kind = .command := by
  unfold decodeCommand decodeZ decodeI decodeML decodeF decodeRun decodeRegion decodeT at h
  simp only at h
  repeat' split at h
  all_goals first
    | (injection h with h; subst h; rfl)
    | cases h

/-- Between commands the engine takes the host's next action. -/
theorem fetch_settled {s : State} (h : Settled s) (c : Config) : fetch c s = fetchHost c s := by
  obtain ⟨hst, hw⟩ := h
  unfold fetch
  rw [hw]
  rcases hst with h | h | h <;> rw [h] <;> rfl

/-- Inside a decode the next turn is the decode's. -/
theorem fetch_busy {s : State} (h : s.esm.walk.busy = true) (c : Config) : fetch c s = fetchRecord s := by
  unfold fetch
  rw [if_pos h]

/-- Inside a run the next turn is the run's. -/
theorem fetch_run {s : State} (h : s.esm.walk.busy = false) (hr : s.lzd.st = .run) (c : Config) :
    fetch c s = fetchToken s := by
  unfold fetch
  rw [if_neg (by rw [h]; decide), hr]

/-- A token's meaning is the rule its control bit and nibble select (spec/41_lz_decompressor.md R106, R108). -/
theorem exec_tokenOf (bit : Bool) (b1 b2 b3 : Byte) (s : State) :
    exec (tokenOf bit b1 b2 b3) s = .next (lzToken engine bit b1 b2 b3 s) := by
  unfold tokenOf lzToken
  cases bit with
  | true => rfl
  | false =>
    simp only [Bool.false_eq_true, if_false]
    split <;> rfl

/-- A record's meaning is the rule of its stream on its two bytes. -/
theorem exec_decodeRecord (stream : Stream) (b0 b1 : Byte) (s : State) :
    exec (decodeRecord stream b0 b1) s = .next (esRecord engine stream b0 b1 s) := by
  have two : b0.extractLsb' 4 4 ++ b0.extractLsb' 0 4 = b0 := append_extract (u := 4) (w := 4) b0 rfl
  have three : b0.extractLsb' 4 4 ++ b0.extractLsb' 3 1 ++ b0.extractLsb' 0 3 = b0 := by
    refine BitVec.eq_of_getLsbD_eq fun k hk => ?_
    refine (BitVec.getLsbD_append (x := b0.extractLsb' 4 4 ++ b0.extractLsb' 3 1)).trans ?_
    rw [BitVec.getLsbD_append]
    simp only [BitVec.getLsbD_extractLsb']
    by_cases h3 : k < 3
    · simp [h3]
    · by_cases h4 : k < 4
      · obtain rfl : k = 3 := by omega
        simp
      · simp [h3, show ¬ k - 3 < 1 by omega, show k - 3 - 1 < 4 by omega, show 4 + (k - 3 - 1) = k by omega]
  cases stream with
  | face => rfl
  | stick =>
    show Host.Outcome.next (esStickRecord engine (b0.extractLsb' 4 4 ++ b0.extractLsb' 0 4) b1 s) = _
    rw [two]
    rfl
  | dpad =>
    show Host.Outcome.next
      (esDpadRecord engine (b0.extractLsb' 4 4 ++ b0.extractLsb' 3 1 ++ b0.extractLsb' 0 3) b1 s) = _
    rw [three]
    rfl

/-- A step inside a run is one token cycle of `LZ.RUN`. -/
theorem step_run {s : State} (h : s.esm.walk.busy = false) (hr : s.lzd.st = .run) :
    step s = .next (lzCycle engine s) := by
  unfold step
  rw [fetch_run h hr, fetchToken, lzCycle]
  cases lzFetch s with
  | ended t => rfl
  | token bit t => exact exec_tokenOf _ _ _ _ _

/-- A step inside a decode is one turn of the record loops of `ES.DECODE`. -/
theorem step_busy {s : State} (h : s.esm.walk.busy = true) : step s = .next (esCycle engine s) := by
  unfold step
  rw [fetch_busy h, fetchRecord, esCycle]
  cases esFetch s with
  | ended t => rfl
  | record stream b0 b1 t => exact exec_decodeRecord _ _ _ _

end Sys2Proof.Machine
end

