-- ==== Sys2Proof/Laws/TimeCorrection.lean ====
section
/-! SUPPORT. What the time commands can do (spec/44_time_correction.md): succeed with the sums of the rule, or raise and
change nothing. One lemma per operation: cite it, do not unfold the operation. -/

namespace Sys2Proof.Machine

open Sys2Proof

/-- One lap in one equation per value (R176, R178): the accepted delta and the new sum differ from `d1` and `raw` by one
`TC_WRAP` exactly when the trigger fires, and then `CY` toggles. -/
theorem lapStep_eq (c : Config) (raw acc : Int) (cy : Bool) :
    (lapStep c raw acc cy).d1 = raw - acc ∧
      (if carryTrigger c (raw - acc) = true then
         (lapStep c raw acc cy).d = raw - acc - c.tcWrap ∧ (lapStep c raw acc cy).acc = raw - c.tcWrap ∧
           (lapStep c raw acc cy).cy = !cy
       else
         (lapStep c raw acc cy).d = raw - acc ∧ (lapStep c raw acc cy).acc = raw ∧
           (lapStep c raw acc cy).cy = cy) := by
  refine ⟨rfl, ?_⟩
  split
  · rename_i h
    simp only [lapStep, h, if_true]
    exact ⟨trivial, by omega, trivial⟩
  · rename_i h
    simp only [lapStep, h]
    exact ⟨rfl, by simp only [if_false, Bool.false_eq_true]; omega, rfl⟩

/-- The trigger of the default configuration: strictly above `TC_WRAP`. -/
theorem carryTrigger_engine (d1 : Int) : carryTrigger engine d1 = true ↔ (10 : Int) ^ 9 < d1 := by
  rw [carryTrigger, if_neg (by decide), decide_eq_true_eq]
  rfl

theorem rangeRemFlag_engine (rem : Int) : rangeRemFlag engine rem = true ↔ rem < 0 ∨ (10 : Int) ^ 12 ≤ rem := by
  rw [rangeRemFlag, Bool.or_eq_true, decide_eq_true_eq, decide_eq_true_eq]
  rfl

theorem rangeDeltaFlag_engine (d : Int) : rangeDeltaFlag engine d = true ↔ d < 0 ∨ (10 : Int) ^ 9 ≤ d := by
  rw [rangeDeltaFlag, Bool.or_eq_true, decide_eq_true_eq, decide_eq_true_eq]
  rfl

/-- What TCA's part of a state is does not touch the spaces. -/
theorem onlyTca_update (s : State) (a : Tca) (r : Report) : OnlyTca s { s with tca := a, rep := r } :=
  ⟨rfl, rfl, rfl, rfl, rfl, rfl, fun sp _ => by cases sp <;> rfl, rfl, rfl⟩

/-- `TC.FIN`: the three outcomes (R171, R173, R175). -/
theorem tcFinish_cases (c : Config) (min sec : BitVec 7) (ms : BitVec 10) (fbits : BitVec 32) (s : State) :
    (isFinite fbits = false ∧ tcFinish c min sec ms fbits s = raise .tcNonFinite fbits.toNat s) ∨
      (isFinite fbits = true ∧
        ¬(fits64 (floorScaled fbits c.tcScale) = true ∧
          fits64 (remainder c ms (floorScaled fbits c.tcScale)) = true) ∧
        tcFinish c min sec ms fbits s = raise .tcOverflow fbits.toNat s) ∨
      (isFinite fbits = true ∧ fits64 (floorScaled fbits c.tcScale) = true ∧
        fits64 (remainder c ms (floorScaled fbits c.tcScale)) = true ∧
        tcFinish c min sec ms fbits s =
          succeed
            { s with
              tca :=
                { s.tca with
                  tMin := min, tSec := sec, tDelta := BitVec.ofInt 64 (floorScaled fbits c.tcScale)
                  tRem := BitVec.ofInt 64 (remainder c ms (floorScaled fbits c.tcScale))
                  rangeRem := rangeRemFlag c (remainder c ms (floorScaled fbits c.tcScale)), rangeDelta := false } }) := by
  unfold tcFinish
  cases hf : isFinite fbits with
  | false => exact .inl ⟨rfl, rfl⟩
  | true =>
    refine .inr ?_
    simp only [if_true]
    by_cases h : (fits64 (floorScaled fbits c.tcScale) &&
        fits64 (remainder c ms (floorScaled fbits c.tcScale))) = true
    · rw [if_pos h]
      rw [Bool.and_eq_true] at h
      exact .inr ⟨trivial, h.1, h.2, rfl⟩
    · rw [if_neg h]
      rw [Bool.and_eq_true] at h
      exact .inl ⟨trivial, h, rfl⟩

/-- All the sums of a lap fit 64 bits (R173). -/
def lapFits (c : Config) (ms : BitVec 10) (raw acc : Int) (cy : Bool) : Bool :=
  fits64 raw && fits64 (lapStep c raw acc cy).d1 && fits64 (lapStep c raw acc cy).d &&
    fits64 (lapStep c raw acc cy).acc && fits64 (remainder c ms (lapStep c raw acc cy).d)

/-- `TC.LAP`: the three outcomes (R171, R173, R176). -/
theorem tcLapOp_cases (c : Config) (min sec : BitVec 7) (ms : BitVec 10) (fbits : BitVec 32) (s : State) :
    (isFinite fbits = false ∧ tcLapOp c min sec ms fbits s = raise .tcNonFinite fbits.toNat s) ∨
      (isFinite fbits = true ∧ lapFits c ms (floorScaled fbits c.tcScale) s.tca.acc.toInt s.tca.cy = false ∧
        tcLapOp c min sec ms fbits s = raise .tcOverflow fbits.toNat s) ∨
      (isFinite fbits = true ∧ lapFits c ms (floorScaled fbits c.tcScale) s.tca.acc.toInt s.tca.cy = true ∧
        tcLapOp c min sec ms fbits s =
          let lap := lapStep c (floorScaled fbits c.tcScale) s.tca.acc.toInt s.tca.cy
          succeed
            { s with
              tca :=
                { tMin := min, tSec := sec, tRem := BitVec.ofInt 64 (remainder c ms lap.d)
                  tDelta := BitVec.ofInt 64 lap.d, acc := BitVec.ofInt 64 lap.acc, cy := lap.cy
                  rangeRem := rangeRemFlag c (remainder c ms lap.d), rangeDelta := rangeDeltaFlag c lap.d } }) := by
  unfold tcLapOp
  cases hf : isFinite fbits with
  | false => exact .inl ⟨rfl, rfl⟩
  | true =>
    refine .inr ?_
    rw [if_pos rfl]
    cases h : lapFits c ms (floorScaled fbits c.tcScale) s.tca.acc.toInt s.tca.cy with
    | true => exact .inr ⟨rfl, rfl, if_pos h⟩
    | false => exact .inl ⟨rfl, rfl, if_neg (by rw [lapFits] at h; rw [h]; decide)⟩

end Sys2Proof.Machine
end

