-- ==== Sys2Proof/Laws/Timeline.lean ====
section
/-! SUPPORT. What the parts of the timeline merger can do (spec/43_timeline_merger.md): the smallest remaining count, the
move of one cursor, and the merge step. One lemma per operation: cite it, do not unfold the operation. -/

namespace Sys2Proof.Machine

open Sys2Proof

/-! ## The smallest of the counts that are defined (R153 step 4) -/

theorem leastOf_some (a b : BitVec 32) : ∃ m, leastOf (some a) (some b) = some m ∧ m.toNat ≤ a.toNat ∧
    m.toNat ≤ b.toNat ∧ (m = a ∨ m = b) := by
  simp only [leastOf]
  split
  · rename_i h
    exact ⟨a, rfl, Nat.le_refl _, h, .inl rfl⟩
  · rename_i h
    exact ⟨b, rfl, by omega, Nat.le_refl _, .inr rfl⟩

/-- Nothing is the smallest only when nothing is defined; otherwise the smallest is below both and is one of them. -/
theorem leastOf_cases (a b : Option (BitVec 32)) :
    (leastOf a b = none ∧ a = none ∧ b = none) ∨
      ∃ m, leastOf a b = some m ∧ (∀ x, a = some x → m.toNat ≤ x.toNat) ∧ (∀ x, b = some x → m.toNat ≤ x.toNat) ∧
        (a = some m ∨ b = some m) := by
  cases a with
  | none =>
    cases b with
    | none => exact .inl ⟨rfl, rfl, rfl⟩
    | some b =>
      refine .inr ⟨b, rfl, fun x hx => (by cases hx), fun x hx => ?_, .inr rfl⟩
      cases hx
      exact Nat.le_refl _
  | some a =>
    cases b with
    | none =>
      refine .inr ⟨a, rfl, fun x hx => ?_, fun x hx => (by cases hx), .inl rfl⟩
      cases hx
      exact Nat.le_refl _
    | some b =>
      obtain ⟨m, h, ha, hb, hm⟩ := leastOf_some a b
      refine .inr ⟨m, h, fun x hx => ?_, fun x hx => ?_, ?_⟩
      · cases hx; exact ha
      · cases hx; exact hb
      · rcases hm with rfl | rfl
        · exact .inl rfl
        · exact .inr rfl

/-- The smallest of three counts. -/
theorem leastOf_three (a b c : Option (BitVec 32)) :
    (leastOf (leastOf a b) c = none ∧ a = none ∧ b = none ∧ c = none) ∨
      ∃ m, leastOf (leastOf a b) c = some m ∧ (∀ x, a = some x → m.toNat ≤ x.toNat) ∧
        (∀ x, b = some x → m.toNat ≤ x.toNat) ∧ (∀ x, c = some x → m.toNat ≤ x.toNat) ∧
        (a = some m ∨ b = some m ∨ c = some m) := by
  rcases leastOf_cases a b with ⟨h, rfl, rfl⟩ | ⟨n, h, ha, hb, hn⟩
  · rcases leastOf_cases (leastOf none none) c with ⟨h', _, rfl⟩ | ⟨m, h', _, hc, hm⟩
    · exact .inl ⟨h', rfl, rfl, rfl⟩
    · refine .inr ⟨m, h', fun x hx => (by cases hx), fun x hx => (by cases hx), hc, ?_⟩
      rcases hm with hm | hm
      · rw [h] at hm; cases hm
      · exact .inr (.inr hm)
  · rcases leastOf_cases (leastOf a b) c with ⟨_, h', _⟩ | ⟨m, h', hab, hc, hm⟩
    · rw [h] at h'; cases h'
    · have hle := hab n h
      refine .inr ⟨m, h', fun x hx => Nat.le_trans hle (ha x hx), fun x hx => Nat.le_trans hle (hb x hx), hc, ?_⟩
      rcases hm with hm | hm
      · rw [h] at hm
        cases hm
        exact hn.imp id .inl
      · exact .inr (.inr hm)

/-! ## One cursor over the durations of its stream -/

/-- The frames a cursor has taken: all the entries before it, and what it has taken of its entry. -/
def consumed (cur : Cursor) (durs : List (BitVec 32)) : Nat := totalDur (durs.take cur.idx.toNat) + cur.used.toNat

theorem totalDur_append (xs ys : List (BitVec 32)) : totalDur (xs ++ ys) = totalDur xs + totalDur ys := by
  simp [totalDur]

theorem totalDur_take_succ (durs : List (BitVec 32)) (i : Nat) (n : BitVec 32) (h : durs[i]? = some n) :
    totalDur (durs.take (i + 1)) = totalDur (durs.take i) + n.toNat := by
  rw [List.take_add_one, h, totalDur_append]
  simp [totalDur]

theorem totalDur_take_le (durs : List (BitVec 32)) (i : Nat) : totalDur (durs.take i) ≤ totalDur durs := by
  conv => rhs; rw [← List.take_append_drop i durs, totalDur_append]
  omega

/-- A stream is exhausted exactly when its cursor stands behind its last entry; all its frames are then taken. -/
theorem exhausted_iff {cur : Cursor} {durs : List (BitVec 32)} (h : CursorSound cur durs) :
    durs[cur.idx.toNat]? = none ↔ cur.idx.toNat = durs.length := by
  rw [List.getElem?_eq_none_iff]
  have := h.1
  omega

theorem consumed_exhausted {cur : Cursor} {durs : List (BitVec 32)} (h : CursorSound cur durs)
    (he : durs[cur.idx.toNat]? = none) : consumed cur durs = totalDur durs := by
  have hl := (exhausted_iff h).mp he
  rcases h.2 with h0 | ⟨d, hd, _⟩
  · rw [consumed, h0, hl, List.take_length]
    rfl
  · rw [he] at hd; cases hd

/-- What a cursor has taken of its entry is at most the entry; the remaining count does not wrap. -/
theorem remaining_toNat {cur : Cursor} {durs : List (BitVec 32)} {n : BitVec 32} (h : CursorSound cur durs)
    (he : durs[cur.idx.toNat]? = some n) :
    cur.used.toNat ≤ n.toNat ∧ (n - cur.used).toNat = n.toNat - cur.used.toNat := by
  have hle : cur.used.toNat ≤ n.toNat := by
    rcases h.2 with h0 | ⟨d, hd, hlt⟩
    · rw [h0]; exact Nat.zero_le _
    · rw [he] at hd; cases hd; omega
  exact ⟨hle, BitVec.toNat_sub_of_le hle⟩

/-- The move of one cursor by `m` frames, not more than its entry still has: to the next entry when the entry is used up,
else within it. Its count of frames taken rises by `m`. -/
theorem advance_cases {cur : Cursor} {durs : List (BitVec 32)} {n m : BitVec 32} (h : CursorSound cur durs)
    (he : durs[cur.idx.toNat]? = some n) (hlen : durs.length < 2 ^ 16) (hm : m.toNat ≤ n.toNat - cur.used.toNat) :
    CursorSound (advance cur (some n) m) durs ∧
      consumed (advance cur (some n) m) durs = consumed cur durs + m.toNat ∧
      (if cur.used.toNat + m.toNat = n.toNat then
         (advance cur (some n) m).idx.toNat = cur.idx.toNat + 1 ∧ (advance cur (some n) m).used = 0
       else
         (advance cur (some n) m).idx = cur.idx ∧
           (advance cur (some n) m).used.toNat = cur.used.toNat + m.toNat) := by
  obtain ⟨hle, _⟩ := remaining_toNat h he
  have hn := n.isLt
  have hlt : cur.idx.toNat < durs.length := (List.getElem?_eq_some_iff.mp he).1
  have hsum : (cur.used + m).toNat = cur.used.toNat + m.toNat := by
    rw [BitVec.toNat_add, Nat.mod_eq_of_lt (by omega)]
  have hidx : (cur.idx + 1).toNat = cur.idx.toNat + 1 := by
    rw [BitVec.toNat_add, show (1 : BitVec 16).toNat = 1 by rfl, Nat.mod_eq_of_lt (by omega)]
  by_cases hu : cur.used.toNat + m.toNat = n.toNat
  · have hu' : cur.used + m = n := BitVec.eq_of_toNat_eq (by omega)
    rw [if_pos hu]
    simp only [advance, hu', if_true]
    refine ⟨⟨by simp only [hidx]; omega, .inl rfl⟩, ?_, hidx, trivial⟩
    simp only [consumed, hidx]
    rw [totalDur_take_succ _ _ _ he, show (0 : BitVec 32).toNat = 0 by rfl]
    omega
  · have hu' : ¬cur.used + m = n := fun hc => hu (by rw [← hc, hsum])
    rw [if_neg hu]
    simp only [advance, hu', if_false]
    refine ⟨⟨h.1, .inr ⟨n, he, by simp only [hsum]; omega⟩⟩, ?_, trivial, hsum⟩
    simp only [consumed, hsum]
    omega

/-! ## The merge step (R153) -/

/-- The timeline has ended: the step only sets `TL_DONE` and clears `TL_VALID`. -/
theorem mergeStep_over (c : Config) (s : State)
    (h : tlOver c (currentFace s).isNone (currentStick s).isNone (currentDpad s).isNone = true) :
    mergeStep c s = succeed { s with tl := { s.tl with valid := false, ended := true } } := by
  simp only [mergeStep, h, if_true]

/-- Where the timeline has not ended, some stream is not exhausted. -/
theorem not_over {c : Config} {exF exS exD : Bool} (h : tlOver c exF exS exD = false) :
    exF = false ∨ exS = false ∨ exD = false := by
  unfold tlOver at h
  split at h <;> revert h <;> revert exF exS exD <;> decide

/-- One entry: `m`, the smallest of the remaining counts, is emitted and every cursor moves by it. -/
theorem mergeStep_next (c : Config) (s : State)
    (h : tlOver c (currentFace s).isNone (currentStick s).isNone (currentDpad s).isNone = false) :
    ∃ m, (∀ e, currentFace s = some e → m.toNat ≤ (e.dur - s.tl.curF.used).toNat) ∧
      (∀ e, currentStick s = some e → m.toNat ≤ (e.dur - s.tl.curS.used).toNat) ∧
      (∀ e, currentDpad s = some e → m.toNat ≤ (e.dur - s.tl.curD.used).toNat) ∧
      ((∃ e, currentFace s = some e ∧ m = e.dur - s.tl.curF.used) ∨
        (∃ e, currentStick s = some e ∧ m = e.dur - s.tl.curS.used) ∨
        ∃ e, currentDpad s = some e ∧ m = e.dur - s.tl.curD.used) ∧
      mergeStep c s =
        succeed
          { s with
            tl :=
              { curF := advance s.tl.curF ((currentFace s).map FaceEvent.dur) m
                curS := advance s.tl.curS ((currentStick s).map StickEvent.dur) m
                curD := advance s.tl.curD ((currentDpad s).map DpadEvent.dur) m
                face := ((currentFace s).map FaceEvent.st).getD c.faceNeutral
                x := ((currentStick s).map StickEvent.x).getD 0
                y := ((currentStick s).map StickEvent.y).getD 0
                dpad := ((currentDpad s).map DpadEvent.dir).getD c.dpadNeutral
                dur := m
                count := s.tl.count + 1
                total := s.tl.total + m
                valid := true
                ended := false
                neutral :=
                  s.tl.neutral || (currentFace s).isNone || (currentStick s).isNone || (currentDpad s).isNone } } := by
  have hsome := not_over h
  simp only [mergeStep, h]
  rcases leastOf_three (remaining s.tl.curF ((currentFace s).map FaceEvent.dur))
      (remaining s.tl.curS ((currentStick s).map StickEvent.dur))
      (remaining s.tl.curD ((currentDpad s).map DpadEvent.dur)) with ⟨_, hf, hs, hd⟩ | ⟨m, hm, hf, hs, hd, hone⟩
  · exfalso
    simp only [remaining, Option.map_map, Option.map_eq_none_iff] at hf hs hd
    rw [hf, hs, hd] at hsome
    simp at hsome
  · refine ⟨m, fun e he => hf _ ?_, fun e he => hs _ ?_, fun e he => hd _ ?_, ?_, ?_⟩
    · rw [he]; rfl
    · rw [he]; rfl
    · rw [he]; rfl
    · simp only [remaining, Option.map_map, Option.map_eq_some_iff, Function.comp_apply] at hone
      rcases hone with ⟨e, he, h'⟩ | ⟨e, he, h'⟩ | ⟨e, he, h'⟩
      · exact .inl ⟨e, he, h'.symm⟩
      · exact .inr (.inl ⟨e, he, h'.symm⟩)
      · exact .inr (.inr ⟨e, he, h'.symm⟩)
    · rw [hm]
      rfl

end Sys2Proof.Machine
end

