-- ==== Sys2Proof/Tests/Slice0.lean ====
section
/-! SUPPORT. The model's own tests. Expected values are those of the spec: spec/95_test_vectors.md (its row is named), or
the encoding and rule cited. Then one witness for every obligation that has hypotheses. -/

namespace Sys2Proof.Tests

open Sys2Proof Sys2Proof.Machine

/-- The next state, where there is one. -/
def after (o : Host.Outcome State Fault Refusal) : Option State :=
  match o with
  | .next t => some t
  | .fault _ => none
  | .refused _ => none

/-- Reset, then `HostLoadIN`. -/
def loaded (bytes : List Byte) : State := { State.reset with inp := Space.ofBytes bytes }

/-- Reset with the word `w` in `W`. -/
def withW (w : BitVec 32) : State := { State.reset with bfx := { w := w } }

/-! ## Well-formedness: each check refuses an ill-formed term -/

theorem test_wellFormed_load_zero_bytes : (Instr.bfLoad .input 0 0).wellFormed = false := by decide
theorem test_wellFormed_load_five_bytes : (Instr.bfLoad .input 5 0).wellFormed = false := by decide
theorem test_wellFormed_ref_zero_nibble : (Instr.lzRef 0 1).wellFormed = false := by decide

/-! ## Decoding: a word of each row, from spec/30_encoding.md R61 to R68 -/

theorem test_decode_sysNop : decode (.command 0x0000000000000000) = .ok .sysNop := by decide
theorem test_decode_sysReset : decode (.command 0x0100000000000000) = .ok .sysReset := by decide
theorem test_decode_bfLoad : decode (.command 0x1080000412345678) = .ok (.bfLoad .output 4 0x12345678) := by decide
theorem test_decode_bfBit : decode (.command 0x110000000000001D) = .ok (.bfBit 29) := by decide
theorem test_decode_bfByte : decode (.command 0x12000000FFFFFFFF) = .ok (.bfByte 0xFFFFFFFF) := by decide
theorem test_decode_bfWord : decode (.command 0x1300000000000001) = .ok (.bfWord 1) := by decide
theorem test_decode_bfShl : decode (.command 0x140000000000000A) = .ok (.bfShl 10) := by decide
theorem test_decode_bfShr : decode (.command 0x150000000000001F) = .ok (.bfShr 31) := by decide
theorem test_decode_bfField : decode (.command 0x1600070A00000000) = .ok (.bfField 10 7) := by decide
theorem test_decode_lzRun : decode (.command 0x2000001E00000005) = .ok (.lzRun 5 30) := by decide
theorem test_decode_esDecode : decode (.command 0x3080001200000000) = .ok (.esDecode .output 0 18) := by decide
theorem test_decode_tlRestart : decode (.command 0x3100000000000000) = .ok .tlRestart := by decide
theorem test_decode_tlNext : decode (.command 0x3200000000000000) = .ok .tlNext := by decide
theorem test_decode_tcClr : decode (.command 0x4000000000000000) = .ok .tcClr := by decide
theorem test_decode_tcFin : decode (.command 0x41FFFFE73F676C8B) = .ok (.tcFin 127 127 999 0x3F676C8B) := by decide
theorem test_decode_tcLap : decode (.command 0x4200661C3E800000) = .ok (.tcLap 0 25 540 0x3E800000) := by decide
theorem test_decode_lzLit : decodeToken true [0x41, 0x42] = .ok (.lzLit 0x41, [0x42]) := by decide
theorem test_decode_lzRef : decodeToken false [0x60, 0x02, 0x99] = .ok (.lzRef 6 2, [0x99]) := by decide
theorem test_decode_lzRefx : decodeToken false [0x01, 0x02, 0x03, 0x99] = .ok (.lzRefx 0x102 3, [0x99]) := by decide
theorem test_decode_evFace : decodeRecord .face 0x13 0x05 = .evFace 0x13 5 := by decide
theorem test_decode_evStick : decodeRecord .stick 0x7E 0x01 = .evStick 7 14 1 := by decide
theorem test_decode_evDpad : decodeRecord .dpad 0xFA 0x10 = .evDpad 15 1 2 0x10 := by decide

/-- Section 7 of the vectors and the illegal forms of section 2: words that are no command. -/
theorem test_decode_illegal :
    decode (.command 0x0000000000000001) = .error .mustBeZero ∧ decode (.command 0x0200000000000000) = .error .reservedOpcode ∧
    decode (.command 0xFFFFFFFFFFFFFFFF) = .error .reservedOpcode ∧ decode (.command 0x1000000500000000) = .error .byteCount ∧
    decode (.command 0x1000000C00000000) = .error .mustBeZero ∧ decode (.command 0x1100000100000000) = .error .mustBeZero ∧
    decode (.command 0x1600070100000001) = .error .mustBeZero ∧ decode (.command 0x2080001E00000000) = .error .spaceSelect ∧
    decodeToken false [0x00, 0x10] = .error .shortToken := by decide

/-- A command's bytes are big-endian (R60): the display time `02 0F 88` and the float follow the opcode. -/
theorem test_commandBytes :
    commandBytes 0x41020F883F000000 = [0x41, 0x02, 0x0F, 0x88, 0x3F, 0x00, 0x00, 0x00] := by decide

/-- The host's numbering: a command row, a token row with its control bit on top, and what is no row. -/
theorem test_decodeTableWord :
    decodeTableWord 64 0x42020F883F000000 = some (.tcLap 1 3 904 0x3F000000) ∧ decodeTableWord 24 0x006002 = some (.lzRef 6 2) ∧
    decodeTableWord 16 0x0141 = some (.lzLit 0x41) ∧ decodeTableWord 48 0 = none := by decide

/-! ## One step of each instruction -/

/-- Section 7: `SYS.NOP` clears `ERR` only (program P4 step 6). -/
theorem test_sysNop :
    after (exec .sysNop { State.reset with rep := { err := 1, einfo := 0x02000000, sticky := 0x0893 } }) =
      some { State.reset with rep := { err := 0, einfo := 0x02000000, sticky := 0x0893 } } := by decide

/-- Program P4 step 8: IN stays, `STICKY` is cleared. -/
theorem test_sysReset :
    after (exec .sysReset { loaded [1, 2] with rep := { err := 1, einfo := 7, sticky := 0x1893 }, bfx := { w := 9 } }) =
      some (loaded [1, 2]) := by decide

/-- Section 2, third load row: three bytes, zero-padded on the left. -/
theorem test_bfLoad :
    (after (exec (.bfLoad .input 3 0) (loaded [0xAB, 0xCD, 0xEF]))).map (fun t => (t.bfx.w, t.bfx.wn)) =
      some (0x00ABCDEF, 3) := by decide

/-- Section 2: `BF.LOAD 1, IN+0xFFFFFFFF` does not wrap. -/
theorem test_bfLoad_no_wrap :
    (after (exec (.bfLoad .input 1 0xFFFFFFFF) (loaded [0x12, 0x34, 0x56, 0x78]))).map (fun t => t.rep) =
      some { err := 0x11, einfo := 0xFFFFFFFF, sticky := 2 } := by decide

/-- Program P1 step 15. -/
theorem test_bfBit : (after (exec (.bfBit 29) (withW 0x20000000))).map (fun t => t.bfx.res) = some 1 := by decide

/-- Section 2, third load row: the third byte from the top is `CD`. -/
theorem test_bfByte : (after (exec (.bfByte 2) (withW 0x00ABCDEF))).map (fun t => t.bfx.res) = some 0xCD := by decide

/-- Section 2, third load row: the upper half is `00AB`. -/
theorem test_bfWord : (after (exec (.bfWord 0) (withW 0x00ABCDEF))).map (fun t => t.bfx.res) = some 0x00AB := by decide

/-- Section 2: `BF.SHL 4`, and distance 32. -/
theorem test_bfShl :
    (after (exec (.bfShl 4) (withW 0xDEADBEEF))).map (fun t => t.bfx.w) = some 0xEADBEEF0 ∧
    (after (exec (.bfShl 32) (withW 0xDEADBEEF))).map (fun t => t.bfx.w) = some 0 := by decide

/-- Section 2: `BF.SHR 4`, and distance 0xFFFFFFFF. -/
theorem test_bfShr :
    (after (exec (.bfShr 4) (withW 0xDEADBEEF))).map (fun t => t.bfx.w) = some 0x0DEADBEE ∧
    (after (exec (.bfShr 0xFFFFFFFF) (withW 0xDEADBEEF))).map (fun t => t.bfx.w) = some 0 := by decide

/-- Section 2: only four bits exist above bit 28. -/
theorem test_bfField :
    (after (exec (.bfField 28 8) (withW 0xDEADBEEF))).map (fun t => t.bfx.res) = some 0x0000000D := by decide

/-- The block of vector L1. -/
def blockL1 : List Byte :=
  [0x59, 0x61, 0x7A, 0x31, 0, 0, 0, 0x0B] ++ List.replicate 16 0 ++ [0xE0, 0x41, 0x42, 0x43, 0x60, 0x02]

/-- Vector L1: an overlapping copy. -/
theorem test_lzRun :
    (after (exec (.lzRun 0 30) (loaded blockL1))).map
        (fun t => (t.lzd.out, t.lzd.outValid, t.lzUsed.toNat, t.rep.err)) =
      some (Space.ofBytes [0x41, 0x42, 0x43, 0x41, 0x42, 0x43, 0x41, 0x42, 0x43, 0x41, 0x42], true, 30, 0) := by decide

/-- Vector L12: the second byte of a back-reference is missing; neither byte is consumed. -/
theorem test_lzRun_short_token :
    (after (exec (.lzRun 0 26)
        (loaded ([0x59, 0x61, 0x7A, 0x31, 0, 0, 0, 1] ++ List.replicate 16 0 ++ [0x00, 0x10])))).map
        (fun t => (t.lzd.st, t.lzd.out, t.rep)) =
      some (.fail, {}, { err := 0x22, einfo := 25, sticky := 8 }) := by decide

/-- Vector E9 (no face record, so nothing depends on `FACE_LEGAL`). -/
theorem test_esDecode :
    (after (exec (.esDecode .input 0 14)
        (loaded [0, 0, 0, 3, 0, 0, 0, 0, 0x77, 0x10, 0x77, 0x20, 0x78, 0x00]))).map
        (fun t => (t.esm.stick, t.esm.cntS, t.esm.esValid, t.rep.err)) =
      some ([{ x := 0, y := 0, dur := 48 }, { x := 0, y := 1, dur := 0 }], 3, true, 0) := by decide

/-- Vector E6: a Y nibble of 15. -/
theorem test_esDecode_stick :
    (after (exec (.esDecode .input 0 10) (loaded [0, 0, 0, 1, 0, 0, 0, 0, 0x7F, 0x02]))).map
        (fun t => (t.esm.stick, t.esm.cntS, t.esm.esValid, t.rep)) =
      some ([], 1, false, { err := 0x33, einfo := 8, sticky := 0x200 }) := by decide

/-- The arrays of vector T2. -/
def streamsT2 : State :=
  { State.reset with
    esm :=
      { cntF := 1, cntS := 1, cntD := 1, face := [{ st := 1, dur := 3 }], stick := [{ x := 0, y := 0, dur := 5 }]
        dpad := [{ dir := 2, dur := 4 }], esValid := true } }

/-- Vector T2, first entry: (0x01, 0, 0, 2, 3). -/
theorem test_tlNext :
    (after (exec .tlNext streamsT2)).map (fun t => (t.tl.face, t.tl.dpad, t.tl.dur, t.tl.total, t.tl.neutral)) =
      some (1, 2, 3, 3, false) := by decide

/-- Vector T2, second entry: the face stream is exhausted, so its state is neutral. -/
theorem test_tlNext_neutral :
    (after (exec .tlNext { streamsT2 with tl := { curF := { idx := 1 }, curS := { used := 3 }, curD := { used := 3 } } })).map
        (fun t => (t.tl.face, t.tl.dpad, t.tl.dur, t.tl.curD, t.tl.neutral)) =
      some (0, 2, 1, { idx := 1, used := 0 }, true) := by decide

/-- Program P2 step 8. -/
theorem test_tlRestart :
    (after (exec .tlRestart { streamsT2 with tl := { count := 3, total := 5, ended := true } })).map (fun t => t.tl) =
      some {} := by decide

/-- Program P3 step 1. -/
theorem test_tcClr :
    (after (exec .tcClr { State.reset with tca := { acc := 5, cy := true, tRem := 7 } })).map (fun t => t.tca) =
      some {} := by decide

/-- R172: the two settings it names, and a value of its own for each. -/
theorem test_tcSecUnits_is_a_parameter :
    engine.tcSecUnits = 10 ^ 12 ∧
    ({ tcMsUnits := 10 ^ 6, tcSecUnits := 10 ^ 9 } : Config).tcSecUnits = 10 ^ 9 ∧
    rangeRemFlag { tcSecUnits := 5 } 5 = true := by decide

/-- Section 6, the table of `TC.FIN`, second row: a negative correction is floored. -/
theorem test_tcFin :
    (after (exec (.tcFin 1 3 904 0xBDCCCCCD) State.reset)).map (fun t => (t.tca.tRem.toInt, t.tca.tDelta.toInt)) =
      some (903899999998, -100000002) := by decide

/-- Section 6, sequence A, third row: the carry triggers. -/
theorem test_tcLap :
    (after (exec (.tcLap 0 19 237 0x40000000) { State.reset with tca := { acc := 750000000 } })).map (fun t => t.tca) =
      some { tMin := 0, tSec := 19, tRem := 237250000000, tDelta := 250000000, acc := 1000000000, cy := true } := by decide

/-- Section 6, sequence B: `d1 = 10^9` does not trigger. -/
theorem test_tcLap_boundary :
    (after (exec (.tcLap 0 1 0 0x3F800000) State.reset)).map (fun t => (t.tca.acc, t.tca.cy, t.tca.rangeDelta)) =
      some (1000000000, false, true) := by decide

/-- Inside a run: two bytes of output `41 42`, room for more, the slice not yet read. -/
def running : State :=
  { State.reset with
    lzd := { st := .run, stop := 8, decl := 20, nbits := 8, out := Space.ofBytes [0x41, 0x42] } }

/-- R107. -/
theorem test_lzLit :
    (after (exec (.lzLit 0x43) running)).map (fun t => (t.lzd.out, t.lzd.src)) =
      some (Space.ofBytes [0x41, 0x42, 0x43], 1) := by decide

/-- R108, R111: nibble 1 copies three bytes from two behind. -/
theorem test_lzRef :
    (after (exec (.lzRef 1 1) running)).map (fun t => (t.lzd.out, t.lzd.src)) =
      some (Space.ofBytes [0x41, 0x42, 0x41, 0x42, 0x41], 2) := by decide

/-- R109: extension byte 0 copies 0x12 bytes. -/
theorem test_lzRefx :
    (after (exec (.lzRefx 0 0) running)).map (fun t => (t.lzd.out, t.lzd.src)) =
      some (Space.ofBytes (0x41 :: List.replicate 19 0x42), 3) := by decide +kernel

/-- Inside a decode, at the first record. -/
def decoding : State := { State.reset with esm := { cntF := 2, walk := { busy := true, len := 99, p := 8 } } }

/-- The default configuration with the stand-in `FACE_LEGAL` of R134. -/
def standIn : Config := { faceLegal := fun b => b.extractLsb' 4 4 == 0#4 }

/-- R135, under the stand-in of R134: vector E11, two records of one state and no frames. -/
theorem test_evFace :
    (esFaceRecord standIn 0x01 0x05 (esFaceRecord standIn 0x01 0xFF decoding)).esm.face =
      [{ st := 0x01, dur := 260 }] := by decide

/-- R136: raw nibbles 14 and 0 are 7 and -7. -/
theorem test_evStick :
    (after (exec (.evStick 14 0 1) decoding)).map (fun t => t.esm.stick) =
      some [{ x := 7, y := BitVec.ofInt 4 (-7), dur := 1 }] := by decide

/-- Vector E7: `dir = 2`, `dur = 3856`. -/
theorem test_evDpad :
    (after (exec (.evDpad 15 1 2 0x10) decoding)).map (fun t => t.esm.dpad) = some [{ dir := 2, dur := 3856 }] := by decide

/-! ## The step and the host's interface -/

/-- Reset with one action pending. -/
def pending (a : HostAction) : State := { State.reset with host := { pending := [a] } }

/-- Section 7: a reserved word. -/
theorem test_step_illegal :
    after (step (pending (.issue 0x0200000000000000))) =
      some { State.reset with rep := { err := 0x01, einfo := 0x02000000, sticky := 1 } } := by decide

/-- R25: a load, and a read of `IN` through `BF.LOAD` is a step each. -/
theorem test_step_load :
    (after (step (pending (.loadIN [0xAB])))).map (fun t => t.inp) = some (Space.ofBytes [0xAB]) := by decide

/-- R13: a signed register is sign-extended. -/
theorem test_step_readCSR :
    (after (step { pending (.readCSR 0x29) with tl := { x := 0xF } })).map (fun t => t.host.answer) =
      some (.csr 0xFFFFFFFFFFFFFFFF) := by decide

/-- A command, a token and a record placed for the next step run as that instruction. -/
theorem test_withFetchWord :
    (after (step (State.reset.withFetchWord 64 0x42004C7F3F400000))).map (fun t => t.tca.acc) = some 750000000 ∧
    (after (step (State.reset.withFetchWord 16 0x0141))).map (fun t => t.lzd.out) = some (Space.ofBytes [0x41]) ∧
    (after (step (State.reset.withFetchWord 24 0x006002))).map (fun t => t.rep.err) = some 0x23 := by decide

/-! ## A witness for every obligation that has hypotheses: they can be met together, at the ends of their ranges -/

theorem witness_DecodeOfEncodeIsIdentity :
    (Instr.bfLoad .output 1 0).wellFormed = true ∧ (Instr.bfLoad .input 4 0xFFFFFFFF).wellFormed = true ∧
    (Instr.lzRef 1 0xFFF).wellFormed = true ∧ (Instr.lzRef 15 0).wellFormed = true := by decide

theorem witness_EncodeOfDecodedCommand :
    decodeCommand 0x1000000100000000 = .ok (.bfLoad .input 1 0) ∧
    decodeCommand 0x207FFFFFFFFFFFFF = .ok (.lzRun 0xFFFFFFFF 0x7FFFFF) := by decide

theorem witness_EncodeOfDecodedTokenAndRecord :
    decodeToken true [0x00] = .ok (.lzLit 0, []) ∧ decodeToken false [0xFF, 0xFF, 0x01] = .ok (.lzRef 15 0xFFF, [0x01]) ∧
    decodeToken false [0x0F, 0xFF, 0xFF] = .ok (.lzRefx 0xFFF 0xFF, []) := by decide

theorem witness_StepRunsIssuedCommand :
    Settled (pending (.issue 0x3200000000000000)) ∧
    Issues (pending (.issue 0x3200000000000000)) 0x3200000000000000 [] ∧
    decode (.command 0x3200000000000000) = .ok .tlNext := by decide

/-- A run whose slice holds the two bytes of `LZ.REF 6, 2`, at its last byte. -/
def atToken : State :=
  { State.reset with inp := Space.ofBytes [0x60, 0x02], lzd := { st := .run, stop := 2, decl := 1, nbits := 1 } }

/-- A decode at its only record, which ends the region. -/
def atRecord : State :=
  { State.reset with
    inp := Space.ofBytes [0, 0, 0, 1, 0, 0, 0, 0, 0x77, 0x10]
    esm := { cntS := 1, walk := { busy := true, len := 10, p := 8 } } }

/-- A run at its first control byte, the last byte of its slice, with `nbits` control bits left. -/
def atControl (stop : BitVec 33) (nbits : BitVec 4) : State :=
  { State.reset with
    inp := Space.ofBytes [0x00, 0x01, 0x02], lzd := { st := .run, stop := stop, decl := 1, nbits := nbits } }

theorem witness_StepRunsTokenOrRecord :
    ((atControl 1 0).esm.walk.busy = false ∧ (atControl 1 0).lzd.st = .run ∧
      (atControl 1 0).lzd.out.len ≠ (atControl 1 0).lzd.decl.toNat ∧ (atControl 1 0).lzd.nbits = 0 ∧
      (atControl 1 0).lzd.src.toNat < (atControl 1 0).lzd.stop.toNat) ∧
    (atToken.esm.walk.busy = false ∧ atToken.lzd.st = .run ∧ atToken.lzd.out.len ≠ atToken.lzd.decl.toNat ∧
      atToken.lzd.nbits ≠ 0 ∧
      [0x60, 0x02] = atToken.inp.readList atToken.lzd.src.toNat (atToken.lzd.stop.toNat - atToken.lzd.src.toNat) ∧
      decodeToken atToken.lzd.ctl.msb [0x60, 0x02] = .ok (.lzRef 6 2, [])) ∧
    atRecord.esm.walk.busy = true ∧ esStreamAt atRecord.esm = some .stick ∧
      atRecord.esm.walk.p + 2 ≤ atRecord.esm.walk.len.toNat := by decide

theorem witness_IllegalWordRaisesOnly :
    Settled (pending (.issue 0x0200000000000000)) ∧
    Issues (pending (.issue 0x0200000000000000)) 0x0200000000000000 [] ∧
    decodeCommand 0x0200000000000000 = .error .reservedOpcode := by decide

theorem witness_HostActionsAct :
    Settled State.reset ∧ State.reset.host.pending = [] ∧
    (pending (.readCSR 0x34)).host.pending = .readCSR 0x34 :: [] ∧
    (pending (.readOut 0)).host.pending = .readOut 0 :: [] ∧
    (pending (.readEvent .face 0)).host.pending = .readEvent .face 0 :: [] ∧
    (pending (.readEvent .stick 1)).host.pending = .readEvent .stick 1 :: [] ∧
    (pending (.readEvent .dpad 2)).host.pending = .readEvent .dpad 2 :: [] ∧
    (pending (.loadIN [])).host.pending = .loadIN [] :: [] ∧
    (pending .reset).host.pending = .reset :: [] := by decide

/-- The largest load `HostActionsAct` speaks of. -/
theorem witness_HostActionsAct_largest :
    ∃ bytes : List Byte, bytes.length = 2 ^ 32 - 1 ∧ Settled (pending (.loadIN bytes)) ∧
      (pending (.loadIN bytes)).host.pending = .loadIN bytes :: [] :=
  ⟨List.replicate (2 ^ 32 - 1) 0, List.length_replicate, ⟨.inl rfl, rfl⟩, rfl⟩

theorem witness_CsrReadsExtendRegisters :
    ∃ s : State, s.lzd.out.len = 2 ^ 33 - 1 ∧ s.esm.face.length = 2 ^ 16 - 1 ∧ s.esm.stick.length = 2 ^ 16 - 1 ∧
      s.esm.dpad.length = 2 ^ 16 - 1 :=
  ⟨{ State.reset with
      lzd := { out := { len := 2 ^ 33 - 1 } }
      esm :=
        { face := List.replicate (2 ^ 16 - 1) {}, stick := List.replicate (2 ^ 16 - 1) {}
          dpad := List.replicate (2 ^ 16 - 1) {} } },
    rfl, List.length_replicate, List.length_replicate, List.length_replicate⟩

/-- `BF.LOAD 1` of the last byte, `BF.LOAD 4` of all four. -/
theorem witness_LoadNormalisesBytes :
    (1 ≤ (1 : BitVec 3).toNat ∧ (1 : BitVec 3).toNat ≤ 4 ∧
      (3 : BitVec 32).toNat + (1 : BitVec 3).toNat ≤ ((loaded [0x12, 0x34, 0x56, 0x78]).space .input).len) ∧
    1 ≤ (4 : BitVec 3).toNat ∧ (4 : BitVec 3).toNat ≤ 4 ∧
      (0 : BitVec 32).toNat + (4 : BitVec 3).toNat ≤ ((loaded [0x12, 0x34, 0x56, 0x78]).space .input).len := by decide

theorem witness_LoadErrorsChangeNothing :
    ((0 : BitVec 3).toNat < 1 ∨ 4 < (0 : BitVec 3).toNat) ∧ ((5 : BitVec 3).toNat < 1 ∨ 4 < (5 : BitVec 3).toNat) ∧
    (1 ≤ (1 : BitVec 3).toNat ∧ (1 : BitVec 3).toNat ≤ 4 ∧
      ((loaded [1, 2, 3]).space .input).len < (3 : BitVec 32).toNat + (1 : BitVec 3).toNat) ∧
    1 ≤ (4 : BitVec 3).toNat ∧ (4 : BitVec 3).toNat ≤ 4 ∧
      (State.reset.space .output).len < (0 : BitVec 32).toNat + (4 : BitVec 3).toNat := by decide

theorem witness_LoadThenReadGivesBytesBack :
    1 ≤ (4 : BitVec 3).toNat ∧ (4 : BitVec 3).toNat ≤ 4 ∧ 3 < (4 : BitVec 3).toNat ∧
    (0 : BitVec 32).toNat + (4 : BitVec 3).toNat ≤ ((loaded [1, 2, 3, 4]).space .input).len ∧
    exec (.bfLoad .input 4 0) (loaded [1, 2, 3, 4]) = .next (bfLoad .input 4 0 (loaded [1, 2, 3, 4])) :=
  ⟨by decide, by decide, by decide, by decide, rfl⟩

theorem witness_ShiftsCompose :
    ∃ (t u v w : State) (a b : BitVec 32), a.toNat + b.toNat = 2 ^ 32 - 1 ∧
      exec (.bfShl a) (withW 1) = .next t ∧ exec (.bfShl b) t = .next u ∧ exec (.bfShl (a + b)) (withW 1) = .next v ∧
      exec (.bfShr a) t = .next w :=
  ⟨_, _, _, _, 31, 0xFFFFFFE0, by decide, rfl, rfl, rfl, rfl⟩

theorem witness_SourceOriginCountsLoadedBytes :
    ({ chunkOrigin := .source } : Config).chunkOrigin = .source ∧ 1 ≤ [(0xAB : Byte)].length ∧
    [(0xAB : Byte)].length ≤ 4 ∧ [(0x12 : Byte), 0x34, 0x56, 0x78].length = 4 := by decide

/-- The tokens of vector L1. -/
def tokensL1 : List Instr := [.lzLit 0x41, .lzLit 0x42, .lzLit 0x43, .lzRef 6 2]

theorem test_compressedBlock : compressedBlock 11 (List.replicate 16 0) tokensL1 = blockL1 := by decide

theorem witness_RunExpandsTokens :
    (∀ i ∈ tokensL1, i.kind = .token ∧ i.wellFormed = true) ∧
    expandTokens tokensL1 [] = some [0x41, 0x42, 0x43, 0x41, 0x42, 0x43, 0x41, 0x42, 0x43, 0x41, 0x42] ∧
    (List.replicate 16 (0 : Byte)).length = 16 ∧ blockL1.length ≤ (30 : BitVec 23).toNat ∧
    (0 : BitVec 32).toNat + (30 : BitVec 23).toNat ≤ (loaded blockL1).inp.len ∧
    ∀ j, j < blockL1.length → (loaded blockL1).byteAt .input ((0 : BitVec 32).toNat + j) = blockL1.getD j 0 := by decide

theorem witness_LiteralAppendsByte :
    running.lzd.out.wf = true ∧ running.lzd.src.toNat < running.lzd.stop.toNat := by decide

/-- A run with two bytes of output and the given room and slice. -/
def room (decl : BitVec 32) (stop : BitVec 33) : State :=
  { running with lzd := { running.lzd with decl := decl, stop := stop } }

/-- Nibble 15 from the first byte on, up to the declared size, with the slice's last two bytes. -/
theorem witness_ReferenceCopiesBehind :
    (15 : BitVec 4) ≠ 0 ∧ (room 19 2).lzd.st = .run ∧ (room 19 2).lzd.out.wf = true ∧
    (room 19 2).lzd.src.toNat + 2 ≤ (room 19 2).lzd.stop.toNat ∧ (1 : BitVec 12).toNat + 1 ≤ (room 19 2).lzd.out.len ∧
    (room 19 2).lzd.out.len + ((15 : BitVec 4).toNat + 2) ≤ (room 19 2).lzd.decl.toNat := by decide

theorem witness_LongReferenceCopiesBehind :
    (room 275 3).lzd.st = .run ∧ (room 275 3).lzd.out.wf = true ∧
    (room 275 3).lzd.src.toNat + 3 ≤ (room 275 3).lzd.stop.toNat ∧ (1 : BitVec 12).toNat + 1 ≤ (room 275 3).lzd.out.len ∧
    (room 275 3).lzd.out.len + ((255 : Byte).toNat + 0x12) ≤ (room 275 3).lzd.decl.toNat := by decide

/-- The hypotheses of `TokenErrors`. -/
def TokenHyps (s : State) : Prop :=
  s.lzd.base.toNat ≤ s.lzd.src.toNat ∧ s.lzd.src.toNat ≤ s.lzd.stop.toNat ∧ s.lzd.stop.toNat < 2 ^ 33 - 3 ∧
    s.lzd.out.len ≤ s.lzd.decl.toNat

theorem room_hyps (stop : BitVec 33) (h : stop.toNat ≤ 3) : TokenHyps (room 2 stop) :=
  ⟨Nat.zero_le _, Nat.zero_le _, Nat.lt_of_le_of_lt h (by norm_num), Nat.le_refl 2⟩

/-- The hypotheses hold on slices of 0 to 3 bytes, and the condition of each clause on one of them. -/
theorem witness_TokenErrors :
    (∀ stop : BitVec 33, stop.toNat ≤ 3 → TokenHyps (room 2 stop)) ∧
    (room 2 0).lzd.src.toNat = (room 2 0).lzd.stop.toNat ∧
    ((1 : BitVec 4) ≠ 0 ∧ (room 2 1).lzd.stop.toNat < (room 2 1).lzd.src.toNat + 2) ∧
    ((room 2 2).lzd.src.toNat + 2 ≤ (room 2 2).lzd.stop.toNat ∧ (room 2 2).lzd.out.len < (2 : BitVec 12).toNat + 1) ∧
    ((1 : BitVec 12).toNat + 1 ≤ (room 2 2).lzd.out.len ∧
      (room 2 2).lzd.decl.toNat < (room 2 2).lzd.out.len + ((1 : BitVec 4).toNat + 2)) ∧
    (room 2 2).lzd.src.toNat + 2 = (room 2 2).lzd.stop.toNat ∧
    ((room 2 3).lzd.src.toNat + 3 ≤ (room 2 3).lzd.stop.toNat ∧ (room 2 3).lzd.out.len < (2 : BitVec 12).toNat + 1) ∧
    (1 : BitVec 12).toNat + 1 ≤ (room 2 3).lzd.out.len ∧
      (room 2 3).lzd.decl.toNat < (room 2 3).lzd.out.len + ((0 : Byte).toNat + 0x12) :=
  ⟨room_hyps, by decide, by decide, by decide, by decide, by decide, by decide, by decide⟩

/-- The two clauses of `TokenErrors` on a step: no control byte left; the bytes of a token missing, one or two of three. -/
theorem witness_TokenErrors_step :
    (TokenHyps (atControl 0 0) ∧ (atControl 0 0).esm.walk.busy = false ∧ (atControl 0 0).lzd.st = .run ∧
      (atControl 0 0).lzd.out.len ≠ (atControl 0 0).lzd.decl.toNat ∧ (atControl 0 0).lzd.nbits = 0 ∧
      (atControl 0 0).lzd.src.toNat = (atControl 0 0).lzd.stop.toNat) ∧
    ∀ n ∈ [0, 1, 2],
      let s := atControl (BitVec.ofNat 33 n) 8
      (s.lzd.base.toNat ≤ s.lzd.src.toNat ∧ s.lzd.src.toNat ≤ s.lzd.stop.toNat ∧ s.lzd.stop.toNat < 2 ^ 33 - 3 ∧
        s.lzd.out.len ≤ s.lzd.decl.toNat) ∧
      s.esm.walk.busy = false ∧ s.lzd.st = .run ∧ s.lzd.out.len ≠ s.lzd.decl.toNat ∧ s.lzd.nbits ≠ 0 ∧
      decodeToken s.lzd.ctl.msb (s.inp.readList s.lzd.src.toNat (s.lzd.stop.toNat - s.lzd.src.toNat)) =
        .error .shortToken :=
  ⟨⟨⟨by decide, by decide, by decide, by decide⟩, by decide⟩, by decide⟩

theorem witness_RunIsIteratedTokenCycles : (loaded blockL1).esm.walk.busy = false := rfl

/-- A region of no face record, one stick and one dpad record, which fills its space. -/
def region : State := loaded [0, 0, 0, 1, 0, 1, 0, 0, 0xE0, 0xFF, 0xFF, 0xFF]

theorem witness_DecodeOfLegalRegionSucceeds :
    (0 : BitVec 32).toNat + (12 : BitVec 23).toNat ≤ (region.space .input).len ∧
    8 + 2 * regionRecords region .input 0 ≤ (12 : BitVec 23).toNat ∧ RecordsLegal region .input 0 := by
  refine ⟨by decide, by decide, fun k hk => ?_, fun k _ hk => ?_⟩
  · exact absurd hk (by rw [show regionCount region .input 0 0 = 0 by decide]; exact Nat.not_lt_zero k)
  · rw [show regionCount region .input 0 0 + regionCount region .input 0 2 = 1 by decide] at hk
    obtain rfl : k = 0 := by omega
    decide

theorem witness_DecodeKeepsFrames :
    ∃ t, exec (.esDecode .input 0 12) region = .next t ∧ t.esm.esValid = true := ⟨_, rfl, by decide⟩

theorem witness_DecodeMergesNeighbours :
    ∃ t, exec (.esDecode .input 0 12) (loaded [0, 0, 0, 2, 0, 0, 0, 0, 0x77, 1, 0x78, 1]) = .next t ∧
      t.esm.esValid = true ∧ t.esm.stick.length = 2 := ⟨_, rfl, by decide, by decide⟩

theorem witness_DecodeShortRegionRaises :
    (region.space .input).len < (0 : BitVec 32).toNat + (13 : BitVec 23).toNat ∧
    (5 : BitVec 32).toNat + (7 : BitVec 23).toNat ≤ (region.space .input).len ∧ (7 : BitVec 23).toNat < 8 := by decide

/-- The region of a cut-off second record, at both of its lengths, and a decode at a record outside its region. -/
theorem witness_DecodeShortRegionRaises_records :
    1 < regionRecords region .input 0 ∧
    (∀ len ∈ [10, 11], 0 + len ≤ (region.space .input).len ∧ 8 + 2 * 1 ≤ len ∧ len < 8 + 2 * 1 + 2) ∧
    RecordsLegalBelow region .input 0 1 ∧
    ∃ s : State, s.esm.walk.busy = true ∧ esStreamAt s.esm = some .dpad ∧
      s.esm.walk.len.toNat < s.esm.walk.p + 2 := by
  refine ⟨by decide, by decide, ⟨fun k _ hk => ?_, fun k h1 _ _ => ?_⟩,
    { State.reset with esm := { cntD := 1, walk := { busy := true, len := 9, p := 8 } } }, by decide⟩
  · exact absurd hk (by rw [show regionCount region .input 0 0 = 0 by decide]; exact Nat.not_lt_zero k)
  · obtain rfl : k = 0 := by omega
    decide

/-- A decode whose arrays hold one entry each. -/
def oneEach : State :=
  { decoding with
    esm :=
      { decoding.esm with
        face := [{ st := 1, dur := 5 }], stick := [{ x := 7, y := BitVec.ofInt 4 (-7), dur := 5 }]
        dpad := [{ dir := 2, dur := 5 }] } }

theorem witness_FaceRecordAddsFrames :
    standIn.faceLegal 0x01 = true ∧ standIn.faceLegal 0x10 = false ∧
    (oneEach.esm.face = [] ++ [{ st := 0x01, dur := 5 }] ∧ ({ st := 0x01, dur := 5 } : FaceEvent).st = 0x01) ∧
    ∀ front last, decoding.esm.face = front ++ [last] → last.st ≠ 0x01 :=
  ⟨by decide, by decide, ⟨rfl, rfl⟩, fun front last h => absurd h (by simp [decoding])⟩

theorem witness_StickRecordAddsFrames :
    (14 : BitVec 4).toNat < 15 ∧ (0 : BitVec 4).toNat < 15 ∧ ((15 : BitVec 4).toNat = 15 ∨ (0 : BitVec 4).toNat = 15) ∧
    (oneEach.esm.stick = [] ++ [{ x := 7, y := BitVec.ofInt 4 (-7), dur := 5 }] ∧
      (7 : BitVec 4).toInt = ((14 : BitVec 4).toNat : Int) - 7 ∧
      (BitVec.ofInt 4 (-7)).toInt = ((0 : BitVec 4).toNat : Int) - 7) ∧
    ∀ front last, decoding.esm.stick = front ++ [last] → ¬(last.x = 7 ∧ last.y = 0) :=
  ⟨by decide, by decide, by decide, ⟨rfl, by decide, by decide⟩, fun front last h => absurd h (by simp [decoding])⟩

theorem witness_RestartRewinds : streamsT2.esm.esValid = true ∧ State.reset.esm.esValid = false := ⟨rfl, rfl⟩

theorem witness_NoStreamsRaises : State.reset.esm.esValid = false := rfl

theorem witness_NextAtEndSetsDone :
    ∃ s : State, s.esm.esValid = true ∧ s.esm.face.length ≤ s.tl.curF.idx.toNat ∧
      s.esm.stick.length ≤ s.tl.curS.idx.toNat ∧ s.esm.dpad.length ≤ s.tl.curD.idx.toNat :=
  ⟨{ streamsT2 with tl := { curF := { idx := 1 }, curS := { idx := 1 }, curD := { idx := 1 } } }, by decide⟩

/-- Every stream of `streamsT2` at its start. -/
theorem cursors_of_start : MergerSound streamsT2 :=
  ⟨⟨by decide, .inl rfl⟩, ⟨by decide, .inl rfl⟩, ⟨by decide, .inl rfl⟩⟩

/-- `streamsT2` after its second entry: only the stick stream is left, at the last frame of its entry. -/
def lastFrame : State :=
  { streamsT2 with tl := { curF := { idx := 1 }, curS := { used := 4 }, curD := { idx := 1 }, neutral := true } }

theorem witness_NextMergesOneEntry :
    (streamsT2.esm.esValid = true ∧ StreamsSound streamsT2.esm ∧ MergerSound streamsT2 ∧
      streamsT2.tl.curF.idx.toNat < streamsT2.esm.face.length ∧ streamsT2.tl.curD.idx.toNat < streamsT2.esm.dpad.length) ∧
    lastFrame.esm.esValid = true ∧ StreamsSound lastFrame.esm ∧ MergerSound lastFrame ∧
      lastFrame.tl.curS.idx.toNat < lastFrame.esm.stick.length :=
  ⟨⟨rfl, by decide, cursors_of_start, by decide, by decide⟩, rfl, by decide,
    ⟨⟨by decide, .inl rfl⟩, ⟨by decide, .inr ⟨5, rfl, by decide⟩⟩, ⟨by decide, .inl rfl⟩⟩, by decide⟩

theorem witness_WalkTotalIsLargestSum :
    streamsT2.esm.esValid = true ∧ StreamsSound streamsT2.esm ∧ streamsT2.tl = {} ∧ totalDur (streamsT2.esm.face.map FaceEvent.dur) < 2 ^ 32 ∧
    totalDur (streamsT2.esm.stick.map StickEvent.dur) < 2 ^ 32 ∧
    totalDur (streamsT2.esm.dpad.map DpadEvent.dur) < 2 ^ 32 := by decide

theorem witness_AllReadsWholeTimeline :
    streamsT2.esm.esValid = true ∧ StreamsSound streamsT2.esm ∧ totalDur (streamsT2.esm.face.map FaceEvent.dur) < 2 ^ 32 ∧
    totalDur (streamsT2.esm.stick.map StickEvent.dur) < 2 ^ 32 ∧
    totalDur (streamsT2.esm.dpad.map DpadEvent.dur) < 2 ^ 32 := by decide

/-- Vector T2 by `TL.ALL`, from the end of an earlier walk. -/
theorem test_tlAll :
    (tlAll { streamsT2 with tl := { curF := { idx := 1 }, ended := true } }).map (fun r => (r.1, r.2.tl.total)) =
      some ([[1, 0, 0, 2, 3], [0, 0, 0, 2, 1], [0, 0, 0, 0, 1]], 5) := by decide

/-- R69, R152: with no streams decoded `TL_DONE` is never set. -/
theorem test_tlAll_noStreams : tlAll State.reset = none := by decide

/-- Vector T2'. -/
theorem witness_FirstStopTotalIsSmallestSum :
    ({ tlStop := .first } : Config).tlStop = .first ∧ StreamsSound streamsT2.esm ∧ streamsT2.tl = {} ∧
    totalDur (streamsT2.esm.face.map FaceEvent.dur) < 2 ^ 32 ∧
    totalDur (streamsT2.esm.stick.map StickEvent.dur) < 2 ^ 32 ∧
    totalDur (streamsT2.esm.dpad.map DpadEvent.dur) < 2 ^ 32 := by decide

theorem witness_ConversionIsFloorOfProduct :
    (0x7F7FFFFF : BitVec 32).toNat / 2 ^ 23 % 2 ^ 8 ≠ 0xFF ∧ (0x80000001 : BitVec 32).toNat / 2 ^ 23 % 2 ^ 8 ≠ 0xFF ∧
    (0 : BitVec 32).toNat / 2 ^ 23 % 2 ^ 8 ≠ 0xFF := by decide

/-! The values of a few patterns (R7). -/

theorem fval_half : fval 0x3F000000 = 1 / 2 := by
  rw [fval, show (0x3F000000 : BitVec 32).getLsbD 31 = false by decide,
    show (0x3F000000 : BitVec 32).toNat / 2 ^ 23 % 2 ^ 8 = 126 by decide,
    show (0x3F000000 : BitVec 32).toNat % 2 ^ 23 = 0 by decide]
  norm_num

theorem fval_one : fval 0x3F800000 = 1 := by
  rw [fval, show (0x3F800000 : BitVec 32).getLsbD 31 = false by decide,
    show (0x3F800000 : BitVec 32).toNat / 2 ^ 23 % 2 ^ 8 = 127 by decide,
    show (0x3F800000 : BitVec 32).toNat % 2 ^ 23 = 0 by decide]
  norm_num

theorem fval_two : fval 0x40000000 = 2 := by
  rw [fval, show (0x40000000 : BitVec 32).getLsbD 31 = false by decide,
    show (0x40000000 : BitVec 32).toNat / 2 ^ 23 % 2 ^ 8 = 128 by decide,
    show (0x40000000 : BitVec 32).toNat % 2 ^ 23 = 0 by decide]
  norm_num

/-- `2^34`: its conversion does not fit 64 bits (section 6). -/
theorem fval_big : fval 0x50800000 = 2 ^ 34 := by
  rw [fval, show (0x50800000 : BitVec 32).getLsbD 31 = false by decide,
    show (0x50800000 : BitVec 32).toNat / 2 ^ 23 % 2 ^ 8 = 161 by decide,
    show (0x50800000 : BitVec 32).toNat % 2 ^ 23 = 0 by decide]
  norm_num

/-- The largest pattern whose conversion fits 64 bits: its remainder does not, with 1023 milliseconds. -/
theorem fval_edge : fval 0x5009705F = 9223371776 := by
  rw [fval, show (0x5009705F : BitVec 32).getLsbD 31 = false by decide,
    show (0x5009705F : BitVec 32).toNat / 2 ^ 23 % 2 ^ 8 = 160 by decide,
    show (0x5009705F : BitVec 32).toNat % 2 ^ 23 = 618591 by decide]
  norm_num

theorem floor_half : ⌊fval 0x3F000000 * 10 ^ 9⌋ = 500000000 := by rw [fval_half]; norm_num
theorem floor_one : ⌊fval 0x3F800000 * 10 ^ 9⌋ = 1000000000 := by rw [fval_one]; norm_num
theorem floor_two : ⌊fval 0x40000000 * 10 ^ 9⌋ = 2000000000 := by rw [fval_two]; norm_num
theorem floor_big : ⌊fval 0x50800000 * 10 ^ 9⌋ = 17179869184000000000 := by rw [fval_big]; norm_num
theorem floor_edge : ⌊fval 0x5009705F * 10 ^ 9⌋ = 9223371776000000000 := by rw [fval_edge]; norm_num

/-- Section 6, first row of `TC.FIN`. -/
theorem witness_FinishAddsCorrection :
    (0x3F000000 : BitVec 32).toNat / 2 ^ 23 % 2 ^ 8 ≠ 0xFF ∧ (500000000 : Int) = ⌊fval 0x3F000000 * 10 ^ 9⌋ ∧
    -(2 ^ 63) ≤ (500000000 : Int) ∧ (500000000 : Int) < 2 ^ 63 ∧
    -(2 ^ 63) ≤ ((904 : BitVec 10).toNat : Int) * 10 ^ 9 + 500000000 ∧
    ((904 : BitVec 10).toNat : Int) * 10 ^ 9 + 500000000 < 2 ^ 63 :=
  ⟨by decide, floor_half.symm, by decide, by decide, by decide, by decide⟩

/-- The hypotheses of `LapAcceptsDelta` from a cleared TCA, but for the value of the pattern. -/
def LapFits (ms : BitVec 10) (fbits : BitVec 32) (raw d1 d : Int) : Prop :=
  fbits.toNat / 2 ^ 23 % 2 ^ 8 ≠ 0xFF ∧ d1 = raw - State.reset.tca.acc.toInt ∧
    d = (if 10 ^ 9 < d1 then d1 - 10 ^ 9 else d1) ∧ -(2 ^ 63) ≤ raw ∧ raw < 2 ^ 63 ∧ -(2 ^ 63) ≤ d1 ∧ d1 < 2 ^ 63 ∧
    -(2 ^ 63) ≤ State.reset.tca.acc.toInt + d ∧ State.reset.tca.acc.toInt + d < 2 ^ 63 ∧
    -(2 ^ 63) ≤ ms.toNat * 10 ^ 9 + d ∧ ms.toNat * 10 ^ 9 + d < 2 ^ 63

/-- Sequence B: `d1 = 10^9`, which does not trigger; and a pattern above it, which does. -/
theorem witness_LapAcceptsDelta :
    ((1000000000 : Int) = ⌊fval 0x3F800000 * 10 ^ 9⌋ ∧ LapFits 1023 0x3F800000 1000000000 1000000000 1000000000) ∧
    (2000000000 : Int) = ⌊fval 0x40000000 * 10 ^ 9⌋ ∧ LapFits 0 0x40000000 2000000000 2000000000 1000000000 :=
  ⟨⟨floor_one.symm, by unfold LapFits; decide⟩, floor_two.symm, by unfold LapFits; decide⟩

theorem witness_AccumulatorClosedForm :
    ∃ t, exec (.tcLap 0 1 0 0x40000000) State.reset = .next t ∧ t.rep.err = 0 := ⟨_, rfl, by decide⟩

/-- An infinity; a conversion that does not fit; a remainder that does not fit; a `d1` that does not fit. -/
theorem witness_CorrectionErrorsChangeNothing :
    (0x7F800000 : BitVec 32).toNat / 2 ^ 23 % 2 ^ 8 = 0xFF ∧ (0x50800000 : BitVec 32).toNat / 2 ^ 23 % 2 ^ 8 ≠ 0xFF ∧
    ¬(-(2 ^ 63) ≤ ⌊fval 0x50800000 * 10 ^ 9⌋ ∧ ⌊fval 0x50800000 * 10 ^ 9⌋ < 2 ^ 63) ∧
    (0x5009705F : BitVec 32).toNat / 2 ^ 23 % 2 ^ 8 ≠ 0xFF ∧
    (2 : Int) ^ 63 ≤ ((1023 : BitVec 10).toNat : Int) * 10 ^ 9 + ⌊fval 0x5009705F * 10 ^ 9⌋ ∧
    (2 : Int) ^ 63 ≤ ((1023 : BitVec 10).toNat : Int) * 10 ^ 9 +
      (⌊fval 0x5009705F * 10 ^ 9⌋ - State.reset.tca.acc.toInt) -
      (if 10 ^ 9 < ⌊fval 0x5009705F * 10 ^ 9⌋ - State.reset.tca.acc.toInt then 10 ^ 9 else 0) ∧
    ¬(⌊fval 0x5009705F * 10 ^ 9⌋ - (BitVec.ofInt 64 (-1000000000000)).toInt < 2 ^ 63) := by
  rw [floor_big, floor_edge]
  decide

theorem witness_CommandsReportByTable :
    Instr.tlNext.kind = .command ∧ Instr.tlNext ≠ .sysReset ∧ ∃ t, exec .tlNext State.reset = .next t :=
  ⟨rfl, by decide, _, rfl⟩

theorem witness_InputIsNeverWritten : ∃ t, exec (.lzLit 0x41) running = .next t := ⟨_, rfl⟩

theorem witness_CommandsWriteTheirOwnUnit :
    Instr.tcClr.kind = .command ∧ Instr.tcClr.mnemonic ≠ "SYS.RESET" ∧ ∃ t, exec .tcClr State.reset = .next t :=
  ⟨rfl, by decide, _, rfl⟩

/-- Program P4 step 1. -/
theorem witness_FailedRunLeavesNothingToDecode :
    ∃ t, exec (.lzRun 0 28)
        (loaded ([0x59, 0x61, 0x7A, 0x31, 0, 0, 0, 4] ++ List.replicate 16 0 ++ [0x80, 0x5A, 0x10, 0x01])) = .next t ∧
      t.rep.err ≠ 0 := ⟨_, rfl, by decide⟩

theorem witness_StepsEndBetweenCommands :
    ∃ t, Settled (pending (.issue 0x3200000000000000)) ∧ step (pending (.issue 0x3200000000000000)) = .next t :=
  ⟨_, by decide, rfl⟩

/-- Streams are decoded and half merged, a lap is timed, an error is recorded: the invariants hold. -/
def soundState : State :=
  { lastFrame with
    tca := { acc := 5, tRem := BitVec.ofInt 64 (-1), rangeRem := true }
    rep := { err := 0x35, einfo := 0, sticky := 0x800 }
    host := { pending := [.issue 0x3200000000000000] } }

theorem witness_StepKeepsSound : Settled soundState ∧ Sound soundState ∧ ∃ t, step soundState = .next t :=
  ⟨by decide,
    ⟨by decide, by decide, by decide, by decide,
      ⟨⟨by decide, .inl rfl⟩, ⟨by decide, .inr ⟨5, rfl, by decide⟩⟩, ⟨by decide, .inl rfl⟩⟩, by decide, by decide⟩,
    _, rfl⟩

theorem witness_StepStopsOnlyOnOversizedLoad :
    Settled State.reset ∧
    ∀ bytes rest, State.reset.host.pending = .loadIN bytes :: rest → bytes.length ≤ 2 ^ 32 - 1 :=
  ⟨by decide, fun _ _ h => nomatch h⟩

end Sys2Proof.Tests
end

section
/-! PROOFS. What holds between commands (spec/10_state.md): what a step from there can do, what every command writes, and
that each of them keeps the invariants of the unit it writes. -/

namespace Sys2Proof.Machine

open Sys2Proof

/-! ## A step between commands, one equation per action of the host -/

theorem step_of_fetchHost_ended {s : State} {o : Host.Outcome State Fault Refusal} (h : Settled s)
    (hf : fetchHost engine s = .ended o) : step s = o := by
  rw [step, fetch_settled h, hf]

theorem step_of_fetchHost_instr {s t : State} {i : Instr} (h : Settled s) (hf : fetchHost engine s = .instr i t) :
    step s = exec i t := by
  rw [step, fetch_settled h, hf]

theorem step_idle {s : State} (h : Settled s) (hp : s.host.pending = []) : step s = .next s :=
  step_of_fetchHost_ended h (by rw [fetchHost, hp])

theorem step_loadIN {s : State} {bytes : List Byte} {rest : List HostAction} (h : Settled s)
    (hp : s.host.pending = .loadIN bytes :: rest) : step s = hostLoad engine bytes (takeAction rest s) :=
  step_of_fetchHost_ended h (by rw [fetchHost, hp])

theorem step_issue_ok {s : State} {cmd : Command} {rest : List HostAction} {i : Instr} (h : Settled s)
    (hp : Issues s cmd rest) (hd : decode (.command cmd) = .ok i) : step s = exec i (takeAction rest s) :=
  step_of_fetchHost_instr h (by simp only [fetchHost, hp, hd])

theorem step_issue_error {s : State} {cmd : Command} {rest : List HostAction} {e : DecodeError} (h : Settled s)
    (hp : Issues s cmd rest) (hd : decode (.command cmd) = .error e) :
    step s = .next (raise .illegal (highHalf cmd).toNat (takeAction rest s)) :=
  step_of_fetchHost_ended h (by simp only [fetchHost, hp, hd])

theorem step_readCSR {s : State} {no : Nat} {rest : List HostAction} (h : Settled s)
    (hp : s.host.pending = .readCSR no :: rest) :
    step s = .next (answered (.csr (s.readCSR no)) (takeAction rest s)) :=
  step_of_fetchHost_ended h (by rw [fetchHost, hp]; rfl)

theorem step_readOut {s : State} {a : Nat} {rest : List HostAction} (h : Settled s)
    (hp : s.host.pending = .readOut a :: rest) :
    step s = .next (answered (.byte (s.readOut a)) (takeAction rest s)) :=
  step_of_fetchHost_ended h (by rw [fetchHost, hp]; rfl)

theorem step_readEvent {s : State} {stream : Stream} {k : Nat} {rest : List HostAction} (h : Settled s)
    (hp : s.host.pending = .readEvent stream k :: rest) :
    step s = .next (answered (s.readEvent stream k) (takeAction rest s)) :=
  step_of_fetchHost_ended h (by rw [fetchHost, hp]; rfl)

theorem step_hostReset {s : State} {rest : List HostAction} (h : Settled s) (hp : s.host.pending = .reset :: rest) :
    step s = .next (hardReset (takeAction rest s)) :=
  step_of_fetchHost_ended h (by rw [fetchHost, hp])

/-- A load within `IN_MAX` replaces IN. -/
theorem hostLoad_fits {bytes : List Byte} (h : bytes.length ≤ 2 ^ 32 - 1) (s : State) :
    hostLoad engine bytes s = .next { s with inp := Space.ofBytes bytes } :=
  if_neg (Nat.not_lt.mpr h)

/-- No instruction faults or is refused (spec/60_exceptions.md R240). -/
theorem exec_answers (i : Instr) (s : State) : ∃ t, exec i s = .next t := by
  cases i <;> exact ⟨_, rfl⟩

/-- What a step from between commands can answer: nothing was pending, IN was loaded, a command was run, an illegal word
was refused, a read port was read, or the engine was reset. -/
inductive HostStep (s : State) : State → Prop
  | waited : HostStep s s
  | loaded (rest : List HostAction) (bytes : List Byte) (hlen : bytes.length ≤ engine.inMax) :
      HostStep s { takeAction rest s with inp := Space.ofBytes bytes }
  | ran (rest : List HostAction) (i : Instr) (t : State) (hkind : i.kind = .command)
      (hexec : exec i (takeAction rest s) = .next t) : HostStep s t
  | illegal (rest : List HostAction) (info : Nat) : HostStep s (raise .illegal info (takeAction rest s))
  | read (rest : List HostAction) (v : Answer) : HostStep s (answered v (takeAction rest s))
  | reset (rest : List HostAction) : HostStep s (hardReset (takeAction rest s))

theorem step_cases {s t : State} (h : Settled s) (hstep : step s = .next t) : HostStep s t := by
  cases hp : s.host.pending with
  | nil =>
    cases (step_idle h hp).symm.trans hstep
    exact .waited
  | cons act rest =>
    cases act with
    | loadIN bytes =>
      rw [step_loadIN h hp, hostLoad] at hstep
      split at hstep
      · cases hstep
      · cases hstep
        exact .loaded rest bytes (by omega)
    | issue cmd =>
      cases hd : decode (.command cmd) with
      | ok i => exact .ran rest i t (decodeCommand_kind hd) ((step_issue_ok h hp hd).symm.trans hstep)
      | error e =>
        cases (step_issue_error h hp hd).symm.trans hstep
        exact .illegal rest _
    | readCSR no =>
      cases (step_readCSR h hp).symm.trans hstep
      exact .read rest _
    | readOut a =>
      cases (step_readOut h hp).symm.trans hstep
      exact .read rest _
    | readEvent stream k =>
      cases (step_readEvent h hp).symm.trans hstep
      exact .read rest _
    | reset =>
      cases (step_hostReset h hp).symm.trans hstep
      exact .reset rest

/-! ## Error registers -/

/-- What a command other than `SYS.RESET` makes of the error registers: success, or one raise (spec/60_exceptions.md
R231). -/
def Reported (r r' : Report) : Prop := r' = { r with err := 0x00 } ∨ ∃ e info, r' = r.raised e info

theorem errorTable_mem (e : ErrCode) : (errCode e, stickyBit e) ∈ errorTable := by
  cases e <;> decide

theorem stickyMask_bit (e : ErrCode) : (1#16 <<< stickyBit e).getLsbD (stickyBit e) = true := by
  cases e <;> decide

theorem stickyMask_unlisted (e : ErrCode) :
    (1#16 <<< stickyBit e).getLsbD 14 = false ∧ (1#16 <<< stickyBit e).getLsbD 15 = false := by
  cases e <;> decide

theorem reportSound_raised {r : Report} (h : ReportSound r) (e : ErrCode) (info : Nat) :
    ReportSound (r.raised e info) := by
  obtain ⟨_, h14, h15⟩ := h
  obtain ⟨m14, m15⟩ := stickyMask_unlisted e
  refine ⟨.inr ⟨_, errorTable_mem e, rfl, ?_⟩, ?_, ?_⟩
  · rw [raised_sticky, BitVec.getLsbD_or, stickyMask_bit, Bool.or_true]
  · rw [raised_sticky, BitVec.getLsbD_or, h14, m14, Bool.or_false]
  · rw [raised_sticky, BitVec.getLsbD_or, h15, m15, Bool.or_false]

theorem reportSound_reported {r r' : Report} (h : ReportSound r) (hr : Reported r r') : ReportSound r' := by
  obtain rfl | ⟨e, info, rfl⟩ := hr
  · exact ⟨.inl rfl, h.2⟩
  · exact reportSound_raised h e info

/-! ## BFX: what its commands write -/

/-- `BF.LOAD` writes `W` and `WN`; a count it takes is 1 to 4 (R81). -/
theorem bfLoad_writes (sp : Sp) (n : BitVec 3) (addr : BitVec 32) (s : State) :
    ∃ w wn r, bfLoad sp n addr s = { s with bfx := { s.bfx with w := w, wn := wn }, rep := r } ∧
      (wn = s.bfx.wn ∨ wn.toNat ≤ 4) ∧ Reported s.rep r := by
  unfold bfLoad
  split
  · exact ⟨_, _, _, rfl, .inl rfl, .inr ⟨_, _, rfl⟩⟩
  · split
    · exact ⟨_, _, _, rfl, .inl rfl, .inr ⟨_, _, rfl⟩⟩
    · exact ⟨_, _, _, rfl, .inr (by omega), .inl rfl⟩

/-! ## LZD: a whole run -/

/-- The errors of `LZ.RUN` (R112). -/
def lzErrors : List ErrCode := [.lzMagic, .lzTrunc, .lzBackref, .lzLength, .lzTooBig]

/-- A run that failed, at its start, in its header or in a token cycle (R112). -/
structure LzAborted (s t : State) : Prop where
  st : t.lzd.st = .fail
  out : t.lzd.out = {}
  outValid : t.lzd.outValid = false
  lower : t.lzd.base.toNat ≤ t.lzd.src.toNat
  upper : t.lzd.src.toNat ≤ t.lzd.stop.toNat
  rep : ∃ e ∈ lzErrors, ∃ info, t.rep = s.rep.raised e info

theorem LzFailed.aborted {s t : State} (h : LzFailed s t) : LzAborted s t := by
  obtain ⟨e, he, hr⟩ := h.rep
  have sub : ∀ e ∈ lzTokenErrors, e ∈ lzErrors := by decide
  exact ⟨h.st, h.out, h.outValid, h.lower, h.upper, e, sub e he, _, hr⟩

theorem LzUnbegun.aborted {addr : BitVec 32} {s t : State} (h : LzUnbegun addr t) (hbase : t.lzd.base = addr)
    (hstop : addr.toNat ≤ t.lzd.stop.toNat) {e : ErrCode} (he : e ∈ lzErrors) {info : Nat}
    (hr : t.rep = s.rep.raised e info) : LzAborted s t :=
  ⟨h.st, h.out, h.outValid, by rw [hbase, h.src], by rwa [h.src], e, he, info, hr⟩

theorem LzBegun.inside {c : Config} {addr : BitVec 32} {s t : State} (h : LzBegun c addr s t)
    (hbase : t.lzd.base = addr) : LzInside t :=
  ⟨by rw [hbase, h.src]; omega, h.upper, by rw [h.out]; exact Nat.zero_le _, by rw [h.out]; rfl⟩

/-- A state that differs from another in LZD and the error registers only. -/
theorem eq_update_lzd {s t : State} (inp : t.inp = s.inp) (bfx : t.bfx = s.bfx) (esm : t.esm = s.esm)
    (tl : t.tl = s.tl) (tca : t.tca = s.tca) (host : t.host = s.host) : t = { s with lzd := t.lzd, rep := t.rep } := by
  rw [← inp, ← bfx, ← esm, ← tl, ← tca, ← host]

/-- Token cycles after such a state differ from it in the same units. -/
theorem LzFrame.eq_update_lzd {s t u : State} (f : LzFrame t u) (h : t = { s with lzd := t.lzd, rep := t.rep }) :
    u = { s with lzd := u.lzd, rep := u.rep } := by
  obtain ⟨z, r, rfl⟩ : ∃ z r, t = { s with lzd := z, rep := r } := ⟨_, _, h⟩
  exact Machine.eq_update_lzd f.inp f.bfx f.esm f.tl f.tca f.host

/-- Start and header (R102, R103): the run stands at its first token, or it failed. -/
theorem lzBegin_outcome (addr : BitVec 32) (len : BitVec 23) (s : State) :
    let t := lzBegin engine addr len s
    t = { s with lzd := t.lzd, rep := t.rep } ∧ t.lzd.base = addr ∧ t.lzd.stop.toNat = addr.toNat + len.toNat ∧
      (LzBegun engine addr s t ∨ LzAborted s t) := by
  intro t
  obtain ⟨inp, bfx, esm, tl, tca, host, hbase, hstop, h⟩ := lzBegin_cases engine addr len s (by decide)
  refine ⟨eq_update_lzd inp bfx esm tl tca host, hbase, hstop, ?_⟩
  have hle : addr.toNat ≤ t.lzd.stop.toNat := (Nat.le_add_right _ _).trans hstop.ge
  split at h
  · exact .inr (h.1.aborted hbase hle (by decide) h.2)
  split at h
  · exact .inr (h.1.aborted hbase hle (by decide) h.2)
  split at h
  · exact .inr (h.1.aborted hbase hle (by decide) h.2)
  split at h
  · exact .inr (h.1.aborted hbase hle (by decide) h.2)
  split at h
  · exact .inr (h.1.aborted hbase hle (by decide) h.2.1)
  split at h
  · exact .inr (h.1.aborted hbase hle (by decide) h.2.1)
  · exact .inl h

/-- `LZ.RUN` writes LZD and the error registers, and it ends with success or with one error (R112 to R114). -/
theorem lzRun_outcome (addr : BitVec 32) (len : BitVec 23) (s : State) :
    let t := lzRun engine addr len s
    t = { s with lzd := t.lzd, rep := t.rep } ∧ (LzDone s t ∨ LzAborted s t) := by
  intro t
  obtain ⟨heq, hbase, hstop, hbegun | haborted⟩ := lzBegin_outcome addr len s
  · obtain ⟨hframe, hend⟩ := lzLoop_ends engine (len.toNat + 1) _ hbegun.st (hbegun.inside hbase)
      (by rw [hstop, hbegun.src]; omega)
    refine ⟨hframe.eq_update_lzd heq, hend.imp (fun d => ?_) (fun d => ?_)⟩
    · exact ⟨d.st, d.outValid, d.size, d.form, d.lower, d.upper, hbegun.rep ▸ d.rep⟩
    · exact LzFailed.aborted ⟨d.st, d.out, d.outValid, d.lower, d.upper, hbegun.rep ▸ d.rep⟩
  · have hrun : t = lzBegin engine addr len s := lzLoop_ended _ _ _ (by rw [haborted.st]; decide)
    rw [hrun]
    exact ⟨heq, .inr haborted⟩

/-- LZD after a run, as the invariants ask it (R16 to R18). -/
theorem lzRun_writes (addr : BitVec 32) (len : BitVec 23) (s : State) :
    ∃ z r, lzRun engine addr len s = { s with lzd := z, rep := r } ∧ (z.st = .done ∨ z.st = .fail) ∧
      z.out.wf = true ∧ DecompressorSound z ∧ Reported s.rep r := by
  obtain ⟨heq, d | a⟩ := lzRun_outcome addr len s
  · exact ⟨_, _, heq, .inl d.st, d.form, ⟨iff_of_true d.outValid d.st, fun _ => d.size, fun h => absurd d.st h, d.lower,
      d.upper⟩, .inl d.rep⟩
  · obtain ⟨e, _, info, hr⟩ := a.rep
    have hne : (lzRun engine addr len s).lzd.st ≠ .done := by rw [a.st]; decide
    exact ⟨_, _, heq, .inr a.st, by rw [a.out]; rfl, ⟨iff_of_false (by rw [a.outValid]; decide) hne,
      fun h => absurd h hne, fun _ => a.out, a.lower, a.upper⟩, .inr ⟨e, info, hr⟩⟩

/-! ## ESM: a whole decode -/

/-- Coordinates of a decoded stick entry (R136). -/
def StickInRange (e : StickEvent) : Prop := -7 ≤ e.x.toInt ∧ e.x.toInt ≤ 7 ∧ -7 ≤ e.y.toInt ∧ e.y.toInt ≤ 7

/-- A raw nibble that is not 15 becomes a coordinate in -7 to 7. -/
theorem unbias_range {raw : BitVec 4} (h : raw ≠ 15) :
    -7 ≤ (unbias engine raw).toInt ∧ (unbias engine raw).toInt ≤ 7 := by
  have hne : raw.toNat ≠ 15 := fun hc => h (BitVec.eq_of_toNat_eq hc)
  have hlt := raw.isLt
  rw [unbias_toInt engine rfl raw h]
  omega

/-- The arrays after `k` records: each holds at most the records of its stream among the first `k`. -/
structure RecordsTaken (k : Nat) (m : Esm) : Prop where
  pos : m.walk.p = 8 + 2 * k
  face : m.face.length ≤ min k m.cntF.toNat
  stick : m.stick.length ≤ min (k - m.cntF.toNat) m.cntS.toNat
  dpad : m.dpad.length ≤ min (k - m.cntF.toNat - m.cntS.toNat) m.cntD.toNat
  range : ∀ e ∈ m.stick, StickInRange e

/-- A stick entry is in range after a push of an entry in range. -/
theorem pushStick_range {l : List StickEvent} {e : StickEvent} (hl : ∀ b ∈ l, StickInRange b) (he : StickInRange e) :
    ∀ a ∈ pushStick l e, StickInRange a := by
  intro a ha
  unfold StickInRange
  obtain ⟨b, hb, hx, hy⟩ | ⟨hx, hy⟩ := pushStick_mem ha
  · rw [hx, hy]; exact hl b hb
  · rw [hx, hy]; exact he

/-- The stream of record `k` by the counts (spec/30_encoding.md R67). -/
theorem esStreamAt_range {m : Esm} {k : Nat} {stream : Stream} (hp : m.walk.p = 8 + 2 * k)
    (h : esStreamAt m = some stream) :
    match stream with
    | .face => k < m.cntF.toNat
    | .stick => m.cntF.toNat ≤ k ∧ k < m.cntF.toNat + m.cntS.toNat
    | .dpad => m.cntF.toNat + m.cntS.toNat ≤ k ∧ k < m.cntF.toNat + m.cntS.toNat + m.cntD.toNat := by
  rw [esStreamAt_eq m k hp] at h
  split_ifs at h with hF hS hD <;> cases h
  · exact hF
  · exact ⟨by omega, hS⟩
  · exact ⟨by omega, hD⟩

/-- Every record taken keeps the bounds: the stream of record `k` has fewer entries than records counted. -/
theorem recordsTaken_succ {s t : State} {stream : Stream} {b0 b1 : Byte} {k : Nat} (h : RecordsTaken k s.esm)
    (hst : esStreamAt s.esm = some stream) (f : EsFrame s t) (d : EsTaken engine stream b0 b1 s t) :
    RecordsTaken (k + 1) t.esm := by
  obtain ⟨hpos, hface, hstick, hdpad, hrange⟩ := h
  obtain ⟨hwalk, -, -, tface, tstick, tdpad, legal⟩ := d
  have hp : t.esm.walk.p = 8 + 2 * (k + 1) := by rw [hwalk]; simp only [hpos]; omega
  have hk := esStreamAt_range hpos hst
  cases stream with
  | face =>
    simp only [reduceCtorEq, if_true, if_false] at tface tstick tdpad hk
    have hpush := pushFace_length s.esm.face { st := b0, dur := b1.zeroExtend 32 }
    exact ⟨hp, by rw [tface, f.cntF]; omega, by rw [tstick, f.cntF, f.cntS]; omega,
      by rw [tdpad, f.cntF, f.cntS, f.cntD]; omega, tstick ▸ hrange⟩
  | stick =>
    simp only [reduceCtorEq, if_true, if_false] at tface tstick tdpad hk legal
    have hpush := pushStick_length s.esm.stick
      { x := unbias engine (rawX engine b0), y := unbias engine (rawY engine b0), dur := b1.zeroExtend 32 }
    obtain ⟨hx, hy⟩ := legal
    have hnew := pushStick_range hrange (e := { x := _, y := _, dur := b1.zeroExtend 32 })
      ⟨(unbias_range hx).1, (unbias_range hx).2, unbias_range hy⟩
    exact ⟨hp, by rw [tface, f.cntF]; omega, by rw [tstick, f.cntF, f.cntS]; omega,
      by rw [tdpad, f.cntF, f.cntS, f.cntD]; omega, tstick ▸ hnew⟩
  | dpad =>
    simp only [reduceCtorEq, if_true, if_false] at tface tstick tdpad hk
    exact ⟨hp, by rw [tface, f.cntF]; omega, by rw [tstick, f.cntF, f.cntS]; omega,
      by rw [tdpad, f.cntF, f.cntS, f.cntD, List.length_append, List.length_singleton]; omega, tstick ▸ hrange⟩

theorem EsBegun.recordsTaken {sp : Sp} {addr : BitVec 32} {len : BitVec 23} {s t : State}
    (h : EsBegun sp addr len s t) : RecordsTaken 0 t.esm := by
  obtain ⟨hwalk, -, -, -, hface, hstick, hdpad, -, -⟩ := h
  exact ⟨by rw [hwalk], by simp [hface], by simp [hstick], by simp [hdpad], by simp [hstick]⟩

/-- The arrays of a decoder whose records were taken, as the invariants ask them of valid streams. -/
theorem RecordsTaken.streamsSound {k : Nat} {m : Esm} (h : RecordsTaken k m) :
    StreamsSound { m with esValid := true, walk := {} } := by
  obtain ⟨_, hface, hstick, hdpad, hrange⟩ := h
  exact ⟨by simp only; omega, by simp only; omega, by simp only; omega, (fun hv => nomatch hv), hrange⟩

/-- A decode that failed leaves no entry. -/
theorem EsFailed.streamsSound {s t : State} (h : EsFailed s t) : StreamsSound t.esm := by
  obtain ⟨hface, hstick, hdpad, -, -, -⟩ := h
  exact ⟨by simp [hface], by simp [hstick], by simp [hdpad], fun _ => ⟨hface, hstick, hdpad⟩, by simp [hstick]⟩

/-- A state that differs from another in ESM and the error registers only, with the merger restarted. -/
theorem eq_update_esm {s t : State} (inp : t.inp = s.inp) (bfx : t.bfx = s.bfx) (lzd : t.lzd = s.lzd)
    (tl : t.tl = {}) (tca : t.tca = s.tca) (host : t.host = s.host) :
    t = { s with esm := t.esm, tl := {}, rep := t.rep } := by
  rw [← inp, ← bfx, ← lzd, ← tl, ← tca, ← host]

/-- Turns of the record loops after such a state differ from it in the same units. -/
theorem EsFrame.eq_update_esm {s t u : State} (f : EsFrame t u)
    (h : t = { s with esm := t.esm, tl := {}, rep := t.rep }) : u = { s with esm := u.esm, tl := {}, rep := u.rep } := by
  obtain ⟨m, r, rfl⟩ : ∃ m r, t = { s with esm := m, tl := {}, rep := r } := ⟨_, _, h⟩
  exact Machine.eq_update_esm f.inp f.bfx f.lzd f.tl f.tca f.host

/-- The first steps (R132, R133, R139): the counts are read, or the region is refused with ESM cleared. -/
theorem esBegin_outcome (sp : Sp) (addr : BitVec 32) (len : BitVec 23) (s : State) :
    let t := esBegin sp addr len s
    t = { s with esm := t.esm, tl := {}, rep := t.rep } ∧
      ((t.esm = {} ∧ ∃ info, t.rep = s.rep.raised .esTrunc info) ∨ EsBegun sp addr len s t) := by
  intro t
  obtain ⟨inp, bfx, lzd, tl, tca, host, h⟩ := esBegin_cases sp addr len s
  refine ⟨eq_update_esm inp bfx lzd tl tca host, ?_⟩
  split at h
  · exact .inl ⟨h.1, _, h.2⟩
  split at h
  · exact .inl ⟨h.1, _, h.2⟩
  · exact .inr h

/-- `ES.DECODE` writes the decoder and the error registers and restarts the merger; it leaves arrays that keep the
invariants, and no locals of the walk (R130 to R140). -/
theorem esDecode_writes (sp : Sp) (addr : BitVec 32) (len : BitVec 23) (s : State) :
    ∃ m r, esDecode engine sp addr len s = { s with esm := m, tl := {}, rep := r } ∧ m.walk = {} ∧
      StreamsSound m ∧ Reported s.rep r := by
  obtain ⟨hbegin, ⟨hesm, info, hrep⟩ | h⟩ := esBegin_outcome sp addr len s
  · have hres : esDecode engine sp addr len s = esBegin sp addr len s := esLoop_ended _ _ _ (by rw [hesm])
    exact ⟨_, _, hres.trans hbegin, by rw [hesm], by rw [hesm]; decide, .inr ⟨_, info, hrep⟩⟩
  · have h0 := h.recordsTaken
    obtain ⟨f, hend⟩ := esLoop_ends engine (fun u => ∃ k, RecordsTaken k u.esm)
      (fun _ _ _ ⟨k, hk⟩ hst _ f d => ⟨k + 1, recordsTaken_succ hk hst f d⟩)
      (esRecords (esBegin sp addr len s).esm + 1) 0 (esBegin sp addr len s) (by rw [h.walk]) h0.pos (Nat.zero_le _)
      (by omega) ⟨0, h0⟩
    have heq := f.eq_update_esm hbegin
    obtain ⟨u, ⟨k, hk⟩, -, -, hrep, hloop⟩ | ⟨_, _, _, -, -, -, -, -, -, -, hfail⟩ := hend
    · refine ⟨_, _, heq, ?_, ?_, ?_⟩
      · rw [hloop]; rfl
      · rw [hloop]; exact hk.streamsSound
      · rw [hloop, esSucceed_rep, hrep, h.rep]; exact .inl rfl
    · obtain ⟨e, _, info, hr⟩ := hfail.rep
      exact ⟨_, _, heq, hfail.walk, hfail.streamsSound, .inr ⟨e, info, h.rep ▸ hr⟩⟩

/-! ## The merger -/

/-- A cursor at the start of a stream. -/
theorem cursorSound_start (durs : List (BitVec 32)) : CursorSound {} durs := ⟨Nat.zero_le _, .inl rfl⟩

/-- A cursor moved by a count that is at most what its entry still has. -/
theorem advance_sound {cur : Cursor} {durs : List (BitVec 32)} {m : BitVec 32} (h : CursorSound cur durs)
    (hlen : durs.length < 2 ^ 16) (hm : ∀ n, durs[cur.idx.toNat]? = some n → m.toNat ≤ (n - cur.used).toNat) :
    CursorSound (advance cur durs[cur.idx.toNat]? m) durs := by
  cases he : durs[cur.idx.toNat]? with
  | none => exact h
  | some n => exact (advance_cases h he hlen ((remaining_toNat h he).2 ▸ hm n he)).1

/-- The same for a stream of entries whose durations are its `dur`. -/
theorem advance_sound_entries {α : Type} {dur : α → BitVec 32} {arr : List α} {cur : Cursor} {m : BitVec 32}
    (h : CursorSound cur (arr.map dur)) (hlen : arr.length < 2 ^ 16)
    (hm : ∀ e, arr[cur.idx.toNat]? = some e → m.toNat ≤ (dur e - cur.used).toNat) :
    CursorSound (advance cur (arr[cur.idx.toNat]?.map dur) m) (arr.map dur) := by
  rw [← List.getElem?_map]
  refine advance_sound h (by rwa [List.length_map]) fun n hn => ?_
  rw [List.getElem?_map, Option.map_eq_some_iff] at hn
  obtain ⟨e, he, rfl⟩ := hn
  exact hm e he

/-- The merge step writes the merger alone, and moves no cursor past its stream (R153). -/
theorem mergeStep_writes (c : Config) (s : State) :
    ∃ m, mergeStep c s = succeed { s with tl := m } ∧
      (StreamsSound s.esm → MergerSound s → MergerSound { s with tl := m }) := by
  cases hover : tlOver c (currentFace s).isNone (currentStick s).isNone (currentDpad s).isNone with
  | true => exact ⟨_, mergeStep_over c s hover, fun _ h => h⟩
  | false =>
    obtain ⟨m, hf, hk, hd, -, heq⟩ := mergeStep_next c s hover
    refine ⟨_, heq, ?_⟩
    rintro ⟨lenF, lenS, lenD, -, -⟩ ⟨curF, curS, curD⟩
    have := s.esm.cntF.isLt
    have := s.esm.cntS.isLt
    have := s.esm.cntD.isLt
    exact ⟨advance_sound_entries curF (by omega) hf, advance_sound_entries curS (by omega) hk,
      advance_sound_entries curD (by omega) hd⟩

/-- `TL.NEXT` writes the merger and the error registers (R152). -/
theorem tlNext_writes (c : Config) (s : State) :
    ∃ m r, tlNext c s = { s with tl := m, rep := r } ∧
      (StreamsSound s.esm → MergerSound s → MergerSound { s with tl := m }) ∧ Reported s.rep r := by
  unfold tlNext
  split
  · obtain ⟨m, heq, hsound⟩ := mergeStep_writes c s
    exact ⟨m, _, heq, hsound, .inl rfl⟩
  · exact ⟨_, _, rfl, fun _ h => h, .inr ⟨_, _, rfl⟩⟩

/-- `TL.RESTART` writes the merger and the error registers (R151). -/
theorem tlRestart_writes (s : State) :
    ∃ m r, tlRestart s = { s with tl := m, rep := r } ∧ (MergerSound s → MergerSound { s with tl := m }) ∧
      Reported s.rep r := by
  unfold tlRestart
  split
  · exact ⟨_, _, rfl, fun _ => ⟨cursorSound_start _, cursorSound_start _, cursorSound_start _⟩, .inl rfl⟩
  · exact ⟨_, _, rfl, id, .inr ⟨_, _, rfl⟩⟩

/-! ## TCA -/

/-- A remainder that fits is flagged for what is stored of it (R16). -/
theorem rangeSound_stored {a : Tca} {rem : Int} (hfits : fits64 rem = true) (hrem : a.tRem = BitVec.ofInt 64 rem)
    (hflag : a.rangeRem = rangeRemFlag engine rem) : RangeSound a := by
  unfold RangeSound
  rw [hrem, hflag, ofInt64_toInt hfits, rangeRemFlag_engine]

/-- `TC.FIN` writes TCA, `ACC` and `CY` apart, and the error registers (R175). -/
theorem tcFinish_writes (min sec : BitVec 7) (ms : BitVec 10) (fbits : BitVec 32) (s : State) :
    ∃ a r, tcFinish engine min sec ms fbits s = { s with tca := a, rep := r } ∧ a.acc = s.tca.acc ∧
      a.cy = s.tca.cy ∧ (RangeSound s.tca → RangeSound a) ∧ Reported s.rep r := by
  obtain ⟨-, heq⟩ | ⟨-, -, heq⟩ | ⟨-, -, hfits, heq⟩ := tcFinish_cases engine min sec ms fbits s
  · exact ⟨_, _, heq, rfl, rfl, id, .inr ⟨_, _, rfl⟩⟩
  · exact ⟨_, _, heq, rfl, rfl, id, .inr ⟨_, _, rfl⟩⟩
  · exact ⟨_, _, heq, rfl, rfl, fun _ => rangeSound_stored hfits rfl rfl, .inl rfl⟩

/-- `TC.LAP` writes TCA and the error registers (R176). -/
theorem tcLapOp_writes (min sec : BitVec 7) (ms : BitVec 10) (fbits : BitVec 32) (s : State) :
    ∃ a r, tcLapOp engine min sec ms fbits s = { s with tca := a, rep := r } ∧
      (RangeSound s.tca → RangeSound a) ∧ Reported s.rep r := by
  obtain ⟨-, heq⟩ | ⟨-, -, heq⟩ | ⟨-, hfits, heq⟩ := tcLapOp_cases engine min sec ms fbits s
  · exact ⟨_, _, heq, id, .inr ⟨_, _, rfl⟩⟩
  · exact ⟨_, _, heq, id, .inr ⟨_, _, rfl⟩⟩
  · rw [lapFits, Bool.and_eq_true] at hfits
    exact ⟨_, _, heq, fun _ => rangeSound_stored hfits.2 rfl rfl, .inl rfl⟩

/-! ## Every command, on the whole state

A command answers the state with its own unit and the error registers replaced; the lemmas above say with what. -/

/-- A command ends between commands. -/
theorem exec_keeps_settled {i : Instr} {s t : State} (hkind : i.kind = .command) (h : Settled s)
    (hexec : exec i s = .next t) : Settled t := by
  cases i with
  | sysReset => cases hexec; exact ⟨.inl rfl, rfl⟩
  | lzRun addr len =>
    cases hexec
    obtain ⟨z, r, heq, hst, -⟩ := lzRun_writes addr len s
    rw [heq]
    exact ⟨.inr hst, h.2⟩
  | esDecode sp addr len =>
    cases hexec
    obtain ⟨m, r, heq, hwalk, -⟩ := esDecode_writes sp addr len s
    rw [heq]
    exact ⟨h.1, hwalk⟩
  | bfLoad sp n addr =>
    cases hexec
    obtain ⟨w, wn, r, heq, -⟩ := bfLoad_writes sp n addr s
    rw [heq]
    exact h
  | tlRestart =>
    cases hexec
    obtain ⟨m, r, heq, -⟩ := tlRestart_writes s
    rw [heq]
    exact h
  | tlNext =>
    cases hexec
    obtain ⟨m, r, heq, -⟩ := tlNext_writes engine s
    rw [heq]
    exact h
  | tcFin min sec ms fbits =>
    cases hexec
    obtain ⟨a, r, heq, -⟩ := tcFinish_writes min sec ms fbits s
    rw [heq]
    exact h
  | tcLap min sec ms fbits =>
    cases hexec
    obtain ⟨a, r, heq, -⟩ := tcLapOp_writes min sec ms fbits s
    rw [heq]
    exact h
  | sysNop | tcClr => cases hexec; exact h
  | bfBit d | bfByte d | bfWord d | bfShl d | bfShr d => cases hexec; exact h
  | bfField lo wid => cases hexec; exact h
  | lzLit | lzRef | lzRefx | evFace | evStick | evDpad => cases hkind

/-! ## The invariants, unit by unit -/

theorem Sound.reported {s : State} {r : Report} (h : Sound s) (hr : Reported s.rep r) : Sound { s with rep := r } := by
  obtain ⟨hmem, hwn, hlz, hes, htl, htc, hrep⟩ := h
  exact ⟨hmem, hwn, hlz, hes, htl, htc, reportSound_reported hrep hr⟩

theorem Sound.bfx {s : State} {b : Bfx} (h : Sound s) (hb : b.wn.toNat ≤ 4) : Sound { s with bfx := b } := by
  obtain ⟨hmem, -, hlz, hes, htl, htc, hrep⟩ := h
  exact ⟨hmem, hb, hlz, hes, htl, htc, hrep⟩

/-- OUT is within capacity because it holds `LZ_DECL` bytes or none (R18). -/
theorem DecompressorSound.out_fits {z : Lzd} (h : DecompressorSound z) : z.out.len ≤ engine.outMax := by
  obtain ⟨-, hdone, hother, -⟩ := h
  by_cases hst : z.st = .done
  · rw [hdone hst]
    exact Nat.le_of_lt_succ z.decl.isLt
  · rw [hother hst]
    exact Nat.zero_le _

theorem Sound.lzd {s : State} {z : Lzd} (h : Sound s) (hz : DecompressorSound z) (hwf : z.out.wf = true) :
    Sound { s with lzd := z } := by
  obtain ⟨⟨hin, -, hfits, -⟩, hwn, -, hes, htl, htc, hrep⟩ := h
  exact ⟨⟨hin, hwf, hfits, DecompressorSound.out_fits hz⟩, hwn, hz, hes, htl, htc, hrep⟩

theorem Sound.streams {s : State} {m : Esm} (h : Sound s) (hm : StreamsSound m) :
    Sound { s with esm := m, tl := {} } := by
  obtain ⟨hmem, hwn, hlz, -, -, htc, hrep⟩ := h
  exact ⟨hmem, hwn, hlz, hm, ⟨cursorSound_start _, cursorSound_start _, cursorSound_start _⟩, htc, hrep⟩

theorem Sound.merger {s : State} {m : Merger} (h : Sound s)
    (hm : StreamsSound s.esm → MergerSound s → MergerSound { s with tl := m }) : Sound { s with tl := m } := by
  obtain ⟨hmem, hwn, hlz, hes, htl, htc, hrep⟩ := h
  exact ⟨hmem, hwn, hlz, hes, hm hes htl, htc, hrep⟩

theorem Sound.tca {s : State} {a : Tca} (h : Sound s) (ha : RangeSound s.tca → RangeSound a) :
    Sound { s with tca := a } := by
  obtain ⟨hmem, hwn, hlz, hes, htl, htc, hrep⟩ := h
  exact ⟨hmem, hwn, hlz, hes, htl, ha htc, hrep⟩

theorem Sound.inp {s : State} {m : Space} (h : Sound s) (hwf : m.wf = true) (hlen : m.len ≤ engine.inMax) :
    Sound { s with inp := m } := by
  obtain ⟨⟨-, hout, -, hfits⟩, hwn, hlz, hes, htl, htc, hrep⟩ := h
  exact ⟨⟨hwf, hout, hlen, hfits⟩, hwn, hlz, hes, htl, htc, hrep⟩


theorem sound_reset : Sound State.reset :=
  ⟨by decide, by decide, by decide, by decide, ⟨cursorSound_start _, cursorSound_start _, cursorSound_start _⟩,
    by decide, by decide⟩

/-- A command keeps the invariants: each replaces its unit by one that meets them. -/
theorem exec_keeps_sound {i : Instr} {s t : State} (hkind : i.kind = .command) (h : Sound s)
    (hexec : exec i s = .next t) : Sound t := by
  have hclear : Reported s.rep { s.rep with err := 0x00 } := .inl rfl
  have ⟨⟨hin, _, hfits, _⟩, hwn, _⟩ := h
  cases i with
  | sysNop => cases hexec; exact h.reported hclear
  | sysReset =>
    cases hexec
    exact Sound.inp (s := { State.reset with host := s.host }) sound_reset hin hfits
  | bfLoad sp n addr =>
    cases hexec
    obtain ⟨w, wn, r, heq, hcount, hr⟩ := bfLoad_writes sp n addr s
    have hle : wn.toNat ≤ 4 := by
      rcases hcount with rfl | hcount
      · exact hwn
      · exact hcount
    rw [heq]
    exact (h.bfx (b := { s.bfx with w := w, wn := wn }) hle).reported hr
  | bfBit d | bfByte d | bfWord d | bfShl d | bfShr d => cases hexec; exact (h.bfx hwn).reported hclear
  | bfField lo wid => cases hexec; exact (h.bfx hwn).reported hclear
  | lzRun addr len =>
    cases hexec
    obtain ⟨z, r, heq, -, hwf, hz, hr⟩ := lzRun_writes addr len s
    rw [heq]
    exact (h.lzd hz hwf).reported hr
  | esDecode sp addr len =>
    cases hexec
    obtain ⟨m, r, heq, -, hm, hr⟩ := esDecode_writes sp addr len s
    rw [heq]
    exact (h.streams hm).reported hr
  | tlRestart =>
    cases hexec
    obtain ⟨m, r, heq, hm, hr⟩ := tlRestart_writes s
    rw [heq]
    exact (h.merger fun _ => hm).reported hr
  | tlNext =>
    cases hexec
    obtain ⟨m, r, heq, hm, hr⟩ := tlNext_writes engine s
    rw [heq]
    exact (h.merger hm).reported hr
  | tcClr => cases hexec; exact (h.tca fun _ => by decide).reported hclear
  | tcFin min sec ms fbits =>
    cases hexec
    obtain ⟨a, r, heq, -, -, ha, hr⟩ := tcFinish_writes min sec ms fbits s
    rw [heq]
    exact (h.tca ha).reported hr
  | tcLap min sec ms fbits =>
    cases hexec
    obtain ⟨a, r, heq, ha, hr⟩ := tcLapOp_writes min sec ms fbits s
    rw [heq]
    exact (h.tca ha).reported hr
  | lzLit | lzRef | lzRefx | evFace | evStick | evDpad => cases hkind

/-! ## The obligations about a step -/

/-- Settles O6: between commands an issued word that decodes is fetched as its instruction. -/
theorem stepRunsIssuedCommand : Obligations.StepRunsIssuedCommand :=
  fun _ _ _ _ h hp hd => step_issue_ok h hp hd

/-- Settles O59, by the host's next action: only the load can fault, and a command always answers. -/
theorem stepStopsOnlyOnOversizedLoad : Obligations.StepStopsOnlyOnOversizedLoad := by
  intro s h hload
  cases hp : s.host.pending with
  | nil => exact ⟨_, step_idle h hp⟩
  | cons act rest =>
    cases act with
    | loadIN bytes => exact ⟨_, (step_loadIN h hp).trans (hostLoad_fits (hload bytes rest hp) _)⟩
    | issue cmd =>
      cases hd : decode (.command cmd) with
      | ok i =>
        obtain ⟨t, ht⟩ := exec_answers i (takeAction rest s)
        exact ⟨t, (step_issue_ok h hp hd).trans ht⟩
      | error e => exact ⟨_, step_issue_error h hp hd⟩
    | readCSR no => exact ⟨_, step_readCSR h hp⟩
    | readOut a => exact ⟨_, step_readOut h hp⟩
    | readEvent stream k => exact ⟨_, step_readEvent h hp⟩
    | reset => exact ⟨_, step_hostReset h hp⟩

/-- A read through the host's port is 0 at and beyond the length (R25). -/
theorem readOut_eq (s : State) (a : Nat) :
    s.readOut a = if a < s.lzd.out.len then s.byteAt .output a else 0 := by
  split
  · rfl
  · rename_i hge
    exact read_beyond _ (Nat.not_lt.mp hge)

/-- Settles O9: one equation per action of the host. -/
theorem hostActionsAct : Obligations.HostActionsAct := by
  intro s rest h
  refine ⟨step_idle h, fun no => step_readCSR h, fun a hp => ?_, fun k => step_readEvent h, fun k => step_readEvent h,
    fun k => step_readEvent h, fun bytes hp hlen => ?_, step_hostReset h⟩
  · rw [← readOut_eq]
    exact step_readOut h hp
  · exact ⟨_, (step_loadIN h hp).trans (hostLoad_fits hlen _), rfl, read_ofBytes bytes, rfl, rfl, rfl, rfl, rfl, rfl,
      rfl⟩

/-- Settles O56: what is not a command leaves LZD and the locals of the walk alone or resets them. -/
theorem stepsEndBetweenCommands : Obligations.StepsEndBetweenCommands := by
  intro s t h hstep
  cases step_cases h hstep with
  | waited | loaded | illegal | read => exact h
  | ran rest i _ hkind hexec => exact exec_keeps_settled (s := takeAction rest s) hkind h hexec
  | reset rest => exact ⟨.inl rfl, rfl⟩

/-- Settles O57: an action of the host changes IN, the error registers or the host's port alone, resets the engine, or
runs a command, which keeps the invariants. -/
theorem stepKeepsSound : Obligations.StepKeepsSound := by
  intro s t h hs hstep
  refine ⟨stepsEndBetweenCommands s t h hstep, ?_⟩
  cases step_cases h hstep with
  | waited | read => exact hs
  | loaded rest bytes hlen => exact Sound.inp (s := takeAction rest s) hs (ofBytes_wf bytes) hlen
  | ran rest i _ hkind hexec => exact exec_keeps_sound (s := takeAction rest s) hkind hs hexec
  | illegal rest info => exact Sound.reported (s := takeAction rest s) hs (.inr ⟨_, _, rfl⟩)
  | reset rest => exact sound_reset

/-! ## Which commands write which unit -/

/-- Settles O54: the state after each command is the state before it with the command's own unit replaced. -/
theorem commandsWriteTheirOwnUnit : Obligations.CommandsWriteTheirOwnUnit := by
  intro i s t hkind hreset hexec
  cases i with
  | sysReset => exact absurd rfl hreset
  | sysNop | tcClr => cases hexec; simp [Instr.mnemonic, State.byteAt]
  | bfBit d | bfByte d | bfWord d | bfShl d | bfShr d => cases hexec; simp [Instr.mnemonic, State.byteAt]
  | bfField lo wid => cases hexec; simp [Instr.mnemonic, State.byteAt]
  | bfLoad sp n addr =>
    cases hexec
    obtain ⟨w, wn, r, heq, -⟩ := bfLoad_writes sp n addr s
    rw [heq]
    simp [Instr.mnemonic, State.byteAt]
  | lzRun addr len =>
    cases hexec
    obtain ⟨z, r, heq, -⟩ := lzRun_writes addr len s
    rw [heq]
    simp [Instr.mnemonic]
  | esDecode sp addr len =>
    cases hexec
    obtain ⟨m, r, heq, -⟩ := esDecode_writes sp addr len s
    rw [heq]
    simp [Instr.mnemonic, State.byteAt]
  | tlRestart =>
    cases hexec
    obtain ⟨m, r, heq, -⟩ := tlRestart_writes s
    rw [heq]
    simp [Instr.mnemonic, State.byteAt]
  | tlNext =>
    cases hexec
    obtain ⟨m, r, heq, -⟩ := tlNext_writes engine s
    rw [heq]
    simp [Instr.mnemonic, State.byteAt]
  | tcFin min sec ms fbits =>
    cases hexec
    obtain ⟨a, r, heq, hacc, hcy, -⟩ := tcFinish_writes min sec ms fbits s
    rw [heq]
    simp [Instr.mnemonic, State.byteAt, hacc, hcy]
  | tcLap min sec ms fbits =>
    cases hexec
    obtain ⟨a, r, heq, -⟩ := tcLapOp_writes min sec ms fbits s
    rw [heq]
    simp [Instr.mnemonic, State.byteAt]
  | lzLit | lzRef | lzRefx | evFace | evStick | evDpad => cases hkind

/-! ## `STATUS` and the CSR map (R13, R16) -/

/-- The value of a concatenation. -/
theorem append_toNat {u v : Nat} (x : BitVec u) (y : BitVec v) : (x ++ y).toNat = x.toNat * 2 ^ v + y.toNat := by
  rw [BitVec.toNat_append, ← Nat.shiftLeft_add_eq_or_of_lt y.isLt, Nat.shiftLeft_eq]

theorem flagBit_toNat (b : Bool) : (flagBit b).toNat = b.toNat := by
  cases b <;> rfl

/-- `STATUS` as a number: every field at its place. -/
theorem statusWord_toNat (s : State) :
    s.statusWord.toNat =
      s.lzd.outValid.toNat + 2 * s.esm.esValid.toNat + 2 ^ 2 * s.tl.valid.toNat + 2 ^ 3 * s.tl.ended.toNat +
        2 ^ 4 * s.tl.neutral.toNat + 2 ^ 5 * s.tca.cy.toNat + 2 ^ 6 * s.tca.rangeRem.toNat +
        2 ^ 7 * s.tca.rangeDelta.toNat + 2 ^ 8 * s.bfx.wn.toNat + 2 ^ 11 * (lzStBits s.lzd.st).toNat := by
  unfold State.statusWord
  simp only [append_toNat, flagBit_toNat, BitVec.toNat_ofNat]
  omega

/-- Bit `k` of a word whose value has the flag `b` there. -/
theorem getLsbD_of_digit {w : Nat} {x : BitVec w} {k : Nat} {b : Bool} (h : x.toNat / 2 ^ k % 2 = b.toNat) :
    x.getLsbD k = b := by
  rw [BitVec.getLsbD, Nat.testBit_eq_decide_div_mod_eq, h]
  cases b <;> rfl

/-- Settles O10: each field is read off the value of `STATUS`. -/
theorem statusBitsAreTheFlags : Obligations.StatusBitsAreTheFlags := by
  intro s
  have hval := statusWord_toNat s
  have h0 := s.lzd.outValid.toNat_lt
  have h1 := s.esm.esValid.toNat_lt
  have h2 := s.tl.valid.toNat_lt
  have h3 := s.tl.ended.toNat_lt
  have h4 := s.tl.neutral.toNat_lt
  have h5 := s.tca.cy.toNat_lt
  have h6 := s.tca.rangeRem.toNat_lt
  have h7 := s.tca.rangeDelta.toNat_lt
  have h8 := s.bfx.wn.isLt
  have hst : s.statusWord.toNat / 2 ^ 11 = (lzStBits s.lzd.st).toNat := by omega
  refine ⟨getLsbD_of_digit ?_, getLsbD_of_digit ?_, getLsbD_of_digit ?_, getLsbD_of_digit ?_, getLsbD_of_digit ?_,
    getLsbD_of_digit ?_, getLsbD_of_digit ?_, getLsbD_of_digit ?_, ?_, ?_⟩
  case refine_10 =>
    rw [hst]
    cases s.lzd.st <;> rfl
  all_goals omega

/-- A register of at most 64 bits read zero-extended. -/
theorem zeroExtend64_toNat {w : Nat} (x : BitVec w) (h : w ≤ 64 := by decide) : (x.zeroExtend 64).toNat = x.toNat :=
  BitVec.toNat_setWidth_of_le h

theorem ofNat64_toNat {n : Nat} (h : n < 2 ^ 64) : (BitVec.ofNat 64 n).toNat = n := by
  rw [BitVec.toNat_ofNat, Nat.mod_eq_of_lt h]

/-- Settles O11: the unsigned rows, the signed rows, and the numbers without a row. -/
theorem csrReadsExtendRegisters : Obligations.CsrReadsExtendRegisters := by
  intro s hout hface hstick hdpad
  have zext {w : Nat} := @zeroExtend64_toNat w
  simp only [List.forall_mem_cons]
  refine ⟨⟨zext _, zext _, zext _, zext _, zext _, zext _, ofNat64_toNat (by omega), zext _, zext _, zext _, zext _,
    zext _, ofNat64_toNat (by omega), ofNat64_toNat (by omega), ofNat64_toNat (by omega), zext _, zext _, zext _,
    zext _, zext _, zext _, zext _, fun _ h => nomatch h⟩, ⟨BitVec.toInt_signExtend_of_le (by decide),
    BitVec.toInt_signExtend_of_le (by decide), rfl, rfl, rfl, fun _ h => nomatch h⟩, fun no hno => ?_⟩
  unfold State.readCSR
  split
  case h_28 => rfl
  all_goals exact absurd (by decide) hno

end Sys2Proof.Machine
end

section
/-! PROOFS. Memory (spec/20_memory.md): no instruction writes IN. Commands answer with their own unit replaced. A token
writes LZD and a record writes ESM, in every state: also outside a run or a decode, where the cursor need not lie in the
slice. -/

namespace Sys2Proof.Machine

open Sys2Proof

/-! ## The frame of the tokens, from any state (R107 to R111) -/

/-- A write of LZD that keeps the slice. -/
theorem lzFrame_update (s : State) (z : Lzd) (base : z.base = s.lzd.base) (stop : z.stop = s.lzd.stop) :
    LzFrame s { s with lzd := z } :=
  ⟨rfl, rfl, rfl, rfl, rfl, rfl, base, stop⟩

theorem lzCopyByte_frame (s : State) : LzFrame s (lzCopyByte s) := lzFrame_update s _ rfl rfl

theorem lzCopy_frame (k : Nat) (s : State) : LzFrame s (lzCopy k s) := by
  induction k generalizing s with
  | zero => exact lzFrame_update s _ rfl rfl
  | succ k ih =>
    rw [lzCopy]
    split
    · exact lzFailHere_frame _ _
    · exact (lzCopyByte_frame s).trans (ih _)

theorem lzBackref_frame (s : State) : LzFrame s (lzBackref s) := by
  unfold lzBackref
  split
  · exact lzFailHere_frame _ _
  · refine .trans ?_ (lzCopy_frame _ _)
    exact lzFrame_update s _ rfl rfl

theorem lzLit_frame (v : Byte) (s : State) : LzFrame s (lzLit v s) := by
  unfold lzLit
  split
  · exact lzFailHere_frame _ _
  · exact lzFrame_update s _ rfl rfl

theorem lzRef_frame (c : Config) (n : BitVec 4) (d : BitVec 12) (s : State) : LzFrame s (lzRef c n d s) := by
  unfold lzRef
  split
  · exact lzFailHere_frame _ _
  · refine .trans ?_ (lzBackref_frame _)
    exact lzFrame_update s _ rfl rfl

theorem lzRefx_frame (c : Config) (d : BitVec 12) (l : Byte) (s : State) : LzFrame s (lzRefx c d l s) := by
  unfold lzRefx
  split
  · exact lzFailHere_frame _ _
  · dsimp only
    split
    · refine .trans ?_ (lzFailHere_frame _ _)
      exact lzFrame_update s _ rfl rfl
    · refine .trans ?_ (lzBackref_frame _)
      exact lzFrame_update s _ rfl rfl

/-! ## IN under every instruction -/

/-- R46: IN is no instruction's to write. -/
theorem exec_keeps_inp {i : Instr} {s t : State} (hexec : exec i s = .next t) : t.inp = s.inp := by
  cases i with
  | sysNop | sysReset | tcClr => cases hexec; rfl
  | bfBit d | bfByte d | bfWord d | bfShl d | bfShr d => cases hexec; rfl
  | bfField lo wid => cases hexec; rfl
  | bfLoad sp n addr =>
    cases hexec
    obtain ⟨w, wn, r, heq, -⟩ := bfLoad_writes sp n addr s
    rw [heq]
  | lzRun addr len =>
    cases hexec
    obtain ⟨z, r, heq, -⟩ := lzRun_writes addr len s
    rw [heq]
  | esDecode sp addr len =>
    cases hexec
    obtain ⟨m, r, heq, -⟩ := esDecode_writes sp addr len s
    rw [heq]
  | tlRestart =>
    cases hexec
    obtain ⟨m, r, heq, -⟩ := tlRestart_writes s
    rw [heq]
  | tlNext =>
    cases hexec
    obtain ⟨m, r, heq, -⟩ := tlNext_writes engine s
    rw [heq]
  | tcFin min sec ms fbits =>
    cases hexec
    obtain ⟨a, r, heq, -⟩ := tcFinish_writes min sec ms fbits s
    rw [heq]
  | tcLap min sec ms fbits =>
    cases hexec
    obtain ⟨a, r, heq, -⟩ := tcLapOp_writes min sec ms fbits s
    rw [heq]
  | lzLit v => cases hexec; exact (lzLit_frame v s).inp
  | lzRef n d => cases hexec; exact (lzRef_frame engine n d s).inp
  | lzRefx d l => cases hexec; exact (lzRefx_frame engine d l s).inp
  | evFace b0 b1 => cases hexec; exact (esRecord_cases engine .face b0 b1 s).1.inp
  | evStick x y b1 => cases hexec; exact (esRecord_cases engine .stick (x ++ y) b1 s).1.inp
  | evDpad e b d b1 => cases hexec; exact (esRecord_cases engine .dpad (e ++ b ++ d) b1 s).1.inp

/-- Settles O53: a read of IN sees nothing but IN, which the instruction keeps. -/
theorem inputIsNeverWritten : Obligations.InputIsNeverWritten := by
  intro i s t hexec
  have hinp := exec_keeps_inp hexec
  refine ⟨hinp, fun a => ?_⟩
  rw [State.byteAt, State.byteAt, space_input, space_input, hinp]

end Sys2Proof.Machine
end

section
/-! PROOFS. Encoding (spec/30_encoding.md): a word, token or record decodes to an instruction exactly when the encoder
writes it for that instruction. -/

namespace Sys2Proof

/-! ## The command formats (R61): what each decodes to, and from what -/

/-- A value split in three and put together again. -/
theorem append_extract_three {u v w n : Nat} (x : BitVec n) (h : n = u + v + w) :
    x.extractLsb' (w + v) u ++ x.extractLsb' w v ++ x.extractLsb' 0 w = x.cast h := by
  subst h
  refine BitVec.eq_of_getLsbD_eq fun k hk => ?_
  rw [BitVec.getLsbD_append, BitVec.getLsbD_append]
  simp only [BitVec.getLsbD_extractLsb', BitVec.getLsbD_cast]
  by_cases hw : k < w
  · simp [hw]
  · by_cases hv : k - w < v
    · simp [hw, hv, show w + (k - w) = k by omega]
    · simp [hw, hv, show k - w - v < u by omega, show w + v + (k - w - v) = k by omega]

theorem decodeZ_ok_iff {a : BitVec 24} {b : BitVec 32} {i j : Instr} :
    decodeZ a b i = .ok j ↔ a = 0 ∧ b = 0 ∧ j = i := by
  unfold decodeZ
  split
  · rename_i h
    simp [h, eq_comm]
  · rename_i h
    exact ⟨nofun, fun ⟨ha, hb, _⟩ => absurd ⟨ha, hb⟩ h⟩

theorem decodeI_ok_iff {a : BitVec 24} {b : BitVec 32} {f : BitVec 32 → Instr} {j : Instr} :
    decodeI a b f = .ok j ↔ a = 0 ∧ j = f b := by
  unfold decodeI
  split
  · rename_i h
    simp [h, eq_comm]
  · rename_i h
    exact ⟨nofun, fun ⟨ha, _⟩ => absurd ha h⟩

theorem decodeF_ok_iff {a : BitVec 24} {b : BitVec 32} {j : Instr} :
    decodeF a b = .ok j ↔ ∃ lo wid : BitVec 8, a = 0#8 ++ wid ++ lo ∧ b = 0 ∧ j = .bfField lo wid := by
  constructor
  · unfold decodeF
    split
    · rintro ⟨⟩
      rename_i h
      refine ⟨_, _, ?_, h.2, rfl⟩
      rw [← show a.extractLsb' 16 8 = 0#8 from h.1]
      exact (append_extract_three (u := 8) (v := 8) (w := 8) a rfl).symm
    · exact nofun
  · rintro ⟨lo, wid, rfl, rfl, rfl⟩
    have top : (0#8 ++ wid ++ lo).extractLsb' 16 8 = 0#8 := extract_top _ _ _ rfl
    have middle : (0#8 ++ wid ++ lo).extractLsb' 8 8 = wid := extract_middle _ _ _
    have low : (0#8 ++ wid ++ lo).extractLsb' 0 8 = lo := BitVec.extractLsb'_append_eq_right
    rw [decodeF, if_pos ⟨top, rfl⟩, middle, low]

theorem decodeML_ok_iff {a : BitVec 24} {b : BitVec 32} {j : Instr} :
    decodeML a b = .ok j ↔
      ∃ (s : Sp) (n : BitVec 3), a = spaceBit s ++ 0#20 ++ n ∧ (1 ≤ n.toNat ∧ n.toNat ≤ 4) ∧ j = .bfLoad s n b := by
  constructor
  · unfold decodeML
    dsimp only
    split
    · exact nofun
    · split
      · rintro ⟨⟩
        rename_i hz hn
        refine ⟨_, _, ?_, hn, rfl⟩
        rw [spaceBit_spaceOf, ← show a.extractLsb' 3 20 = 0#20 from not_not.mp hz]
        exact (append_extract_three (u := 1) (v := 20) (w := 3) a rfl).symm
      · exact nofun
  · rintro ⟨s, n, rfl, hn, rfl⟩
    have top : (spaceBit s ++ 0#20 ++ n).extractLsb' 23 1 = spaceBit s := extract_top _ _ _ rfl
    have middle : (spaceBit s ++ 0#20 ++ n).extractLsb' 3 20 = 0 := extract_middle _ _ _
    have low : (spaceBit s ++ 0#20 ++ n).extractLsb' 0 3 = n := BitVec.extractLsb'_append_eq_right
    unfold decodeML
    dsimp only
    rw [low, top, spaceOf_spaceBit, if_neg (not_not.mpr middle), if_pos hn]

theorem decodeRun_ok_iff {a : BitVec 24} {b : BitVec 32} {j : Instr} :
    decodeRun a b = .ok j ↔ ∃ len : BitVec 23, a = 0#1 ++ len ∧ j = .lzRun b len := by
  constructor
  · unfold decodeRun
    split
    · rintro ⟨⟩
      rename_i h
      refine ⟨_, ?_, rfl⟩
      rw [← show a.extractLsb' 23 1 = 0#1 from h]
      exact (append_extract (u := 1) (w := 23) a rfl).symm
    · exact nofun
  · rintro ⟨len, rfl, rfl⟩
    have top : (0#1 ++ len).extractLsb' 23 1 = 0 := BitVec.extractLsb'_append_eq_left
    have low : (0#1 ++ len).extractLsb' 0 23 = len := BitVec.extractLsb'_append_eq_right
    rw [decodeRun, if_pos top, low]

theorem decodeRegion_ok_iff {a : BitVec 24} {b : BitVec 32} {j : Instr} :
    decodeRegion a b = .ok j ↔ ∃ (s : Sp) (len : BitVec 23), a = spaceBit s ++ len ∧ j = .esDecode s b len := by
  constructor
  · rintro ⟨⟩
    refine ⟨_, _, ?_, rfl⟩
    rw [spaceBit_spaceOf]
    exact (append_extract (u := 1) (w := 23) a rfl).symm
  · rintro ⟨s, len, rfl, rfl⟩
    have top : (spaceBit s ++ len).extractLsb' 23 1 = spaceBit s := BitVec.extractLsb'_append_eq_left
    have low : (spaceBit s ++ len).extractLsb' 0 23 = len := BitVec.extractLsb'_append_eq_right
    rw [decodeRegion, top, low, spaceOf_spaceBit]

theorem decodeT_ok_iff {a : BitVec 24} {b : BitVec 32} {f : BitVec 7 → BitVec 7 → BitVec 10 → BitVec 32 → Instr}
    {j : Instr} : decodeT a b f = .ok j ↔ ∃ min sec ms, a = displayTime min sec ms ∧ j = f min sec ms b := by
  constructor
  · rintro ⟨⟩
    exact ⟨_, _, _, (append_extract_three (u := 7) (v := 7) (w := 10) a rfl).symm, rfl⟩
  · rintro ⟨min, sec, ms, rfl, rfl⟩
    have top : (displayTime min sec ms).extractLsb' 17 7 = min := extract_top _ _ _ rfl
    have middle : (displayTime min sec ms).extractLsb' 10 7 = sec := extract_middle _ _ _
    have low : (displayTime min sec ms).extractLsb' 0 10 = ms := BitVec.extractLsb'_append_eq_right
    rw [decodeT, top, middle, low]

/-! ## The opcode map (R62) -/

/-- The opcode map as a relation: an opcode, and the decoder its format gives for the operands `A` and `B`. -/
inductive OpcodeRow : BitVec 8 → (BitVec 24 → BitVec 32 → Except DecodeError Instr) → Prop
  | sysNop : OpcodeRow 0x00 fun a b => decodeZ a b .sysNop
  | sysReset : OpcodeRow 0x01 fun a b => decodeZ a b .sysReset
  | bfLoad : OpcodeRow 0x10 decodeML
  | bfBit : OpcodeRow 0x11 fun a b => decodeI a b .bfBit
  | bfByte : OpcodeRow 0x12 fun a b => decodeI a b .bfByte
  | bfWord : OpcodeRow 0x13 fun a b => decodeI a b .bfWord
  | bfShl : OpcodeRow 0x14 fun a b => decodeI a b .bfShl
  | bfShr : OpcodeRow 0x15 fun a b => decodeI a b .bfShr
  | bfField : OpcodeRow 0x16 decodeF
  | lzRun : OpcodeRow 0x20 decodeRun
  | esDecode : OpcodeRow 0x30 decodeRegion
  | tlRestart : OpcodeRow 0x31 fun a b => decodeZ a b .tlRestart
  | tlNext : OpcodeRow 0x32 fun a b => decodeZ a b .tlNext
  | tcClr : OpcodeRow 0x40 fun a b => decodeZ a b .tcClr
  | tcFin : OpcodeRow 0x41 fun a b => decodeT a b .tcFin
  | tcLap : OpcodeRow 0x42 fun a b => decodeT a b .tcLap

/-- A word whose opcode is in the map decodes as its row says. -/
theorem OpcodeRow.decodeCommand_eq {op : BitVec 8} {f : BitVec 24 → BitVec 32 → Except DecodeError Instr}
    (h : OpcodeRow op f) (a : BitVec 24) (b : BitVec 32) : decodeCommand (command op a b) = f a b := by
  cases h <;> simp only [decodeCommand, opField_command, aField_command, bField_command] <;> rfl

/-- A word that decodes has its opcode in the map. -/
theorem opcodeRow_of_decodeCommand {cmd : Command} {i : Instr} (h : decodeCommand cmd = .ok i) :
    ∃ f, OpcodeRow (opField cmd) f := by
  have op {k : Nat} (hk : (opField cmd).toNat = k) : opField cmd = BitVec.ofNat 8 k :=
    BitVec.eq_of_toNat_eq (by have := (opField cmd).isLt; rw [BitVec.toNat_ofNat]; omega)
  unfold decodeCommand at h
  dsimp only at h
  split at h
  case h_17 => cases h
  all_goals
    rename_i hop
    rw [op hop]
    exact ⟨_, by constructor⟩

/-- R60 to R63: a word that decodes is the encoder's word for what it decodes to, which is well formed. -/
theorem encode_of_decodeCommand {cmd : Command} {i : Instr} (h : decodeCommand cmd = .ok i) :
    encode i = .command cmd ∧ i.wellFormed = true := by
  obtain ⟨f, hrow⟩ := opcodeRow_of_decodeCommand h
  obtain ⟨op, a, b, rfl⟩ : ∃ op a b, cmd = command op a b := ⟨_, _, _, (command_fields cmd).symm⟩
  rw [opField_command] at hrow
  rw [hrow.decodeCommand_eq] at h
  cases hrow with
  | sysNop | sysReset | tlRestart | tlNext | tcClr =>
    obtain ⟨rfl, rfl, rfl⟩ := decodeZ_ok_iff.mp h
    exact ⟨rfl, rfl⟩
  | bfBit | bfByte | bfWord | bfShl | bfShr =>
    obtain ⟨rfl, rfl⟩ := decodeI_ok_iff.mp h
    exact ⟨rfl, rfl⟩
  | bfLoad =>
    obtain ⟨s, n, rfl, hn, rfl⟩ := decodeML_ok_iff.mp h
    exact ⟨rfl, by simpa [Instr.wellFormed] using hn⟩
  | bfField =>
    obtain ⟨lo, wid, rfl, rfl, rfl⟩ := decodeF_ok_iff.mp h
    exact ⟨rfl, rfl⟩
  | lzRun =>
    obtain ⟨len, rfl, rfl⟩ := decodeRun_ok_iff.mp h
    exact ⟨rfl, rfl⟩
  | esDecode =>
    obtain ⟨s, len, rfl, rfl⟩ := decodeRegion_ok_iff.mp h
    exact ⟨rfl, rfl⟩
  | tcFin | tcLap =>
    obtain ⟨min, sec, ms, rfl, rfl⟩ := decodeT_ok_iff.mp h
    exact ⟨rfl, rfl⟩

/-- R60 to R63: the encoder's word for a well-formed instruction decodes to it. -/
theorem decodeCommand_of_encode {cmd : Command} {i : Instr} (h : encode i = .command cmd) (hwf : i.wellFormed = true) :
    decodeCommand cmd = .ok i := by
  cases i with
  | lzLit | lzRef | lzRefx | evFace | evStick | evDpad => cases h
  | sysNop => cases h; exact (OpcodeRow.sysNop.decodeCommand_eq _ _).trans (decodeZ_ok_iff.mpr ⟨rfl, rfl, rfl⟩)
  | sysReset => cases h; exact (OpcodeRow.sysReset.decodeCommand_eq _ _).trans (decodeZ_ok_iff.mpr ⟨rfl, rfl, rfl⟩)
  | tlRestart => cases h; exact (OpcodeRow.tlRestart.decodeCommand_eq _ _).trans (decodeZ_ok_iff.mpr ⟨rfl, rfl, rfl⟩)
  | tlNext => cases h; exact (OpcodeRow.tlNext.decodeCommand_eq _ _).trans (decodeZ_ok_iff.mpr ⟨rfl, rfl, rfl⟩)
  | tcClr => cases h; exact (OpcodeRow.tcClr.decodeCommand_eq _ _).trans (decodeZ_ok_iff.mpr ⟨rfl, rfl, rfl⟩)
  | bfBit => cases h; exact (OpcodeRow.bfBit.decodeCommand_eq _ _).trans (decodeI_ok_iff.mpr ⟨rfl, rfl⟩)
  | bfByte => cases h; exact (OpcodeRow.bfByte.decodeCommand_eq _ _).trans (decodeI_ok_iff.mpr ⟨rfl, rfl⟩)
  | bfWord => cases h; exact (OpcodeRow.bfWord.decodeCommand_eq _ _).trans (decodeI_ok_iff.mpr ⟨rfl, rfl⟩)
  | bfShl => cases h; exact (OpcodeRow.bfShl.decodeCommand_eq _ _).trans (decodeI_ok_iff.mpr ⟨rfl, rfl⟩)
  | bfShr => cases h; exact (OpcodeRow.bfShr.decodeCommand_eq _ _).trans (decodeI_ok_iff.mpr ⟨rfl, rfl⟩)
  | bfLoad s n addr =>
    cases h
    exact (OpcodeRow.bfLoad.decodeCommand_eq _ _).trans
      (decodeML_ok_iff.mpr ⟨_, _, rfl, by simpa [Instr.wellFormed] using hwf, rfl⟩)
  | bfField => cases h; exact (OpcodeRow.bfField.decodeCommand_eq _ _).trans (decodeF_ok_iff.mpr ⟨_, _, rfl, rfl, rfl⟩)
  | lzRun => cases h; exact (OpcodeRow.lzRun.decodeCommand_eq _ _).trans (decodeRun_ok_iff.mpr ⟨_, rfl, rfl⟩)
  | esDecode =>
    cases h; exact (OpcodeRow.esDecode.decodeCommand_eq _ _).trans (decodeRegion_ok_iff.mpr ⟨_, _, rfl, rfl⟩)
  | tcFin => cases h; exact (OpcodeRow.tcFin.decodeCommand_eq _ _).trans (decodeT_ok_iff.mpr ⟨_, _, _, rfl, rfl⟩)
  | tcLap => cases h; exact (OpcodeRow.tcLap.decodeCommand_eq _ _).trans (decodeT_ok_iff.mpr ⟨_, _, _, rfl, rfl⟩)

/-! ## The match and mask pairs (R63) -/

/-- A field that a mask keeps whole is the pattern's. -/
theorem extract_of_match {n start len : Nat} {x mask pattern : BitVec n} (h : x &&& mask = pattern)
    (hm : mask.extractLsb' start len = BitVec.allOnes len) :
    x.extractLsb' start len = pattern.extractLsb' start len := by
  rw [← h, BitVec.extractLsb'_and, hm, BitVec.and_allOnes]

/-- A command word with its opcode in the map decodes when the row's format accepts its operands. -/
theorem OpcodeRow.decodes {op : BitVec 8} {f : BitVec 24 → BitVec 32 → Except DecodeError Instr} {cmd : Command}
    {i : Instr} (hrow : OpcodeRow op f) (hop : opField cmd = op) (h : f (aField cmd) (bField cmd) = .ok i) :
    ∃ i, decodeCommand cmd = .ok i := by
  refine ⟨i, ?_⟩
  rw [← command_fields cmd, hop, hrow.decodeCommand_eq, h]

/-- Every bit of a format Z word is fixed. -/
theorem OpcodeRow.decodes_of_matchZ {op : BitVec 8} {i : Instr} {cmd : Command}
    (hrow : OpcodeRow op fun a b => decodeZ a b i) (h : cmd &&& 0xFFFFFFFFFFFFFFFF = command op 0 0) :
    ∃ i, decodeCommand cmd = .ok i := by
  obtain rfl : cmd = command op 0 0 := (BitVec.and_allOnes (x := cmd)).symm.trans h
  exact ⟨i, (hrow.decodeCommand_eq 0 0).trans (decodeZ_ok_iff.mpr ⟨rfl, rfl, rfl⟩)⟩

/-- The opcode and `A` of a format I word are fixed. -/
theorem OpcodeRow.decodes_of_matchI {op : BitVec 8} {f : BitVec 32 → Instr} {cmd : Command}
    (hrow : OpcodeRow op fun a b => decodeI a b f) (h : cmd &&& 0xFFFFFFFF00000000 = command op 0 0) :
    ∃ i, decodeCommand cmd = .ok i := by
  have hop : opField cmd = op := (extract_of_match h (by decide)).trans (opField_command op 0 0)
  have ha : aField cmd = 0 := (extract_of_match h (by decide)).trans (aField_command op 0 0)
  exact hrow.decodes hop (decodeI_ok_iff.mpr ⟨ha, rfl⟩)

/-- Only the opcode of a format T word, and of `ES.DECODE`, is fixed. -/
theorem OpcodeRow.decodes_of_opcode {op : BitVec 8} {f : BitVec 24 → BitVec 32 → Except DecodeError Instr}
    {g : BitVec 24 → BitVec 32 → Instr} {cmd : Command} (hrow : OpcodeRow op f) (hf : ∀ a b, f a b = .ok (g a b))
    (h : cmd &&& 0xFF00000000000000 = command op 0 0) : ∃ i, decodeCommand cmd = .ok i := by
  have hop : opField cmd = op := (extract_of_match h (by decide)).trans (opField_command op 0 0)
  exact hrow.decodes hop (hf _ _)

/-- The opcode and the top byte of `A` of a `BF.FIELD` word are fixed, and `B`. -/
theorem decodes_of_matchF {cmd : Command} (h : cmd &&& 0xFFFF0000FFFFFFFF = 0x1600000000000000) :
    ∃ i, decodeCommand cmd = .ok i := by
  have hop : opField cmd = 0x16 := extract_of_match h (by decide)
  have hb : bField cmd = 0 := extract_of_match h (by decide)
  have ha : aField cmd &&& 0xFF0000 = 0 := BitVec.extractLsb'_and.symm.trans (congrArg aField h)
  have htop : (aField cmd).extractLsb' 16 8 = 0 := extract_of_match ha (by decide)
  exact OpcodeRow.bfField.decodes hop (if_pos ⟨htop, hb⟩)

/-- The opcode and the space select of an `LZ.RUN` word are fixed. -/
theorem decodes_of_matchRun {cmd : Command} (h : cmd &&& 0xFF80000000000000 = 0x2000000000000000) :
    ∃ i, decodeCommand cmd = .ok i := by
  have hop : opField cmd = 0x20 := extract_of_match h (by decide)
  have ha : aField cmd &&& 0x800000 = 0 := BitVec.extractLsb'_and.symm.trans (congrArg aField h)
  have htop : (aField cmd).extractLsb' 23 1 = 0 := extract_of_match ha (by decide)
  exact OpcodeRow.lzRun.decodes hop (if_pos htop)

/-- The byte count of a `BF.LOAD` word, as a digit of the word. -/
theorem loadCount_toNat (cmd : Command) : ((aField cmd).extractLsb' 0 3).toNat = cmd.toNat / 2 ^ 32 % 8 := by
  simp only [aField, BitVec.extractLsb'_toNat, Nat.shiftRight_eq_div_pow]
  omega

/-- The opcode and the middle of `A` of a `BF.LOAD` word are fixed; its count is in 1 to 4 besides. -/
theorem decodes_of_matchML {cmd : Command} (h : cmd &&& 0xFF7FFFF800000000 = 0x1000000000000000)
    (hcount : 1 ≤ cmd.toNat / 2 ^ 32 % 8 ∧ cmd.toNat / 2 ^ 32 % 8 ≤ 4) : ∃ i, decodeCommand cmd = .ok i := by
  have hop : opField cmd = 0x10 := extract_of_match h (by decide)
  have ha : aField cmd &&& 0x7FFFF8 = 0 := BitVec.extractLsb'_and.symm.trans (congrArg aField h)
  have hmid : (aField cmd).extractLsb' 3 20 = 0 := extract_of_match ha (by decide)
  rw [← loadCount_toNat] at hcount
  exact OpcodeRow.bfLoad.decodes hop ((if_neg (not_not.mpr hmid)).trans (if_pos hcount))

/-- The encoding of every well-formed instruction has the form of its row. -/
theorem fits_row (i : Instr) : Laws.EncodingForm.Statement i := by
  cases i with
  | sysNop => exact Laws.EncodingForm.sysNop
  | sysReset => exact Laws.EncodingForm.sysReset
  | bfLoad s n addr => exact Laws.EncodingForm.bfLoad s n addr
  | bfBit idx => exact Laws.EncodingForm.bfBit idx
  | bfByte idx => exact Laws.EncodingForm.bfByte idx
  | bfWord idx => exact Laws.EncodingForm.bfWord idx
  | bfShl d => exact Laws.EncodingForm.bfShl d
  | bfShr d => exact Laws.EncodingForm.bfShr d
  | bfField lo wid => exact Laws.EncodingForm.bfField lo wid
  | lzRun addr len => exact Laws.EncodingForm.lzRun addr len
  | esDecode s addr len => exact Laws.EncodingForm.esDecode s addr len
  | tlRestart => exact Laws.EncodingForm.tlRestart
  | tlNext => exact Laws.EncodingForm.tlNext
  | tcClr => exact Laws.EncodingForm.tcClr
  | tcFin min sec ms fbits => exact Laws.EncodingForm.tcFin min sec ms fbits
  | tcLap min sec ms fbits => exact Laws.EncodingForm.tcLap min sec ms fbits
  | lzLit v => exact Laws.EncodingForm.lzLit v
  | lzRef n d => exact Laws.EncodingForm.lzRef n d
  | lzRefx d l => exact Laws.EncodingForm.lzRefx d l
  | evFace s t => exact Laws.EncodingForm.evFace s t
  | evStick x y t => exact Laws.EncodingForm.evStick x y t
  | evDpad e i d t => exact Laws.EncodingForm.evDpad e i d t

/-- A word that decodes matches the row of what it decodes to. -/
theorem match_of_decodeCommand {cmd : Command} {i : Instr} (h : decodeCommand cmd = .ok i) :
    ∃ pattern mask, Laws.EncodingForm.row i = .command pattern mask ∧ cmd &&& mask = pattern := by
  obtain ⟨henc, hwf⟩ := encode_of_decodeCommand h
  have hfits := fits_row i hwf
  rw [henc] at hfits
  cases hrow : Laws.EncodingForm.row i with
  | command pattern mask =>
    rw [hrow] at hfits
    obtain ⟨_, ⟨⟩, hmatch⟩ := hfits
    exact ⟨_, _, rfl, hmatch⟩
  | token bit length =>
    rw [hrow] at hfits
    obtain ⟨_, _, ⟨⟩, _⟩ := hfits
  | record stream =>
    rw [hrow] at hfits
    obtain ⟨_, _, ⟨⟩⟩ := hfits

/-- The count of a word that decodes to a load is that load's. -/
theorem count_of_decodeCommand {cmd : Command} {s : Sp} {n : BitVec 3} {addr : BitVec 32}
    (h : decodeCommand cmd = .ok (.bfLoad s n addr)) :
    1 ≤ cmd.toNat / 2 ^ 32 % 8 ∧ cmd.toNat / 2 ^ 32 % 8 ≤ 4 := by
  obtain ⟨⟨⟩, hwf⟩ := encode_of_decodeCommand h
  have hn : (aField (command 0x10 (spaceBit s ++ 0#20 ++ n) addr)).extractLsb' 0 3 = n := by
    rw [aField_command]
    exact BitVec.extractLsb'_append_eq_right
  rw [← loadCount_toNat, hn]
  simpa [Instr.wellFormed] using hwf

/-- Settles O4: a word that decodes matches its instruction's row; a word that matches a row has the operands its
format asks for. -/
theorem commandTableDecidesDecoding : Obligations.CommandTableDecidesDecoding := by
  intro cmd
  constructor
  · rintro ⟨i, h⟩
    obtain ⟨pattern, mask, hrow, hmatch⟩ := match_of_decodeCommand h
    cases i with
    | bfLoad s n addr =>
      cases hrow
      exact .inr ⟨hmatch, count_of_decodeCommand h⟩
    | lzLit | lzRef | lzRefx | evFace | evStick | evDpad => cases hrow
    | _ =>
      cases hrow
      exact .inl ⟨(_, _), by decide, hmatch⟩
  · rintro (⟨row, hrow, hmatch⟩ | ⟨hmatch, hcount⟩)
    · revert row
      simp only [List.forall_mem_cons]
      exact ⟨OpcodeRow.sysNop.decodes_of_matchZ, OpcodeRow.sysReset.decodes_of_matchZ,
        OpcodeRow.bfBit.decodes_of_matchI, OpcodeRow.bfByte.decodes_of_matchI, OpcodeRow.bfWord.decodes_of_matchI,
        OpcodeRow.bfShl.decodes_of_matchI, OpcodeRow.bfShr.decodes_of_matchI, decodes_of_matchF, decodes_of_matchRun,
        OpcodeRow.esDecode.decodes_of_opcode fun _ _ => rfl, OpcodeRow.tlRestart.decodes_of_matchZ,
        OpcodeRow.tlNext.decodes_of_matchZ, OpcodeRow.tcClr.decodes_of_matchZ,
        OpcodeRow.tcFin.decodes_of_opcode fun _ _ => rfl, OpcodeRow.tcLap.decodes_of_opcode fun _ _ => rfl,
        fun _ h => nomatch h⟩
    · exact decodes_of_matchML hmatch hcount

/-- Settles O2. -/
theorem encodeOfDecodedCommand : Obligations.EncodeOfDecodedCommand := fun _ _ => encode_of_decodeCommand

/-! ## Tokens and records (R65, R68) -/

/-- The first two bytes of a back-reference, from its nibble and its distance field. -/
theorem reference_bytes (b1 b2 : Byte) :
    b1.extractLsb' 4 4 ++ (b1.extractLsb' 0 4 ++ b2).extractLsb' 8 4 = b1 ∧
      (b1.extractLsb' 0 4 ++ b2).extractLsb' 0 8 = b2 := by
  have hd : (b1.extractLsb' 0 4 ++ b2).extractLsb' 8 4 = b1.extractLsb' 0 4 := BitVec.extractLsb'_append_eq_left
  rw [hd]
  exact ⟨append_extract (u := 4) (w := 4) b1 rfl, BitVec.extractLsb'_append_eq_right⟩

/-- The nibble and the distance field of a back-reference, from its first two bytes. -/
theorem reference_fields (n : BitVec 4) (d : BitVec 12) :
    (n ++ d.extractLsb' 8 4).extractLsb' 4 4 = n ∧
      (n ++ d.extractLsb' 8 4).extractLsb' 0 4 ++ d.extractLsb' 0 8 = d := by
  have hlow : (n ++ d.extractLsb' 8 4).extractLsb' 0 4 = d.extractLsb' 8 4 := BitVec.extractLsb'_append_eq_right
  rw [hlow]
  exact ⟨BitVec.extractLsb'_append_eq_left, append_extract (u := 4) (w := 8) d rfl⟩

theorem decodeToken_literal (v : Byte) (rest : List Byte) :
    decodeToken true (v :: rest) = .ok (.lzLit v, rest) := by
  simp [decodeToken, tokenLength, tokenOf]

theorem decodeToken_short {b1 : Byte} (h : b1.extractLsb' 4 4 ≠ 0#4) (b2 : Byte) (rest : List Byte) :
    decodeToken false (b1 :: b2 :: rest) = .ok (.lzRef (b1.extractLsb' 4 4) (b1.extractLsb' 0 4 ++ b2), rest) := by
  simp [decodeToken, tokenLength, tokenOf, h]

theorem decodeToken_long {b1 : Byte} (h : b1.extractLsb' 4 4 = 0#4) (b2 b3 : Byte) (rest : List Byte) :
    decodeToken false (b1 :: b2 :: b3 :: rest) = .ok (.lzRefx (b1.extractLsb' 0 4 ++ b2) b3, rest) := by
  simp [decodeToken, tokenLength, tokenOf, h]

/-- A stream that decodes to a token holds all its bytes. -/
theorem decodeToken_holds {c : Bool} {bytes rest : List Byte} {i : Instr} (h : decodeToken c bytes = .ok (i, rest)) :
    ∃ b1 tail, bytes = b1 :: tail ∧ tokenLength c b1 ≤ bytes.length := by
  cases bytes with
  | nil => cases h
  | cons b1 tail =>
    refine ⟨b1, tail, rfl, ?_⟩
    simp only [decodeToken] at h
    split at h
    · cases h
    · rename_i hlen
      exact Nat.not_lt.mp hlen

/-- R65: a decoded token is the bytes the encoder writes for it. -/
theorem encode_of_decodeToken {c : Bool} {bytes rest : List Byte} {i : Instr}
    (h : decodeToken c bytes = .ok (i, rest)) :
    ∃ head, encode i = .token c head ∧ bytes = head ++ rest ∧ i.wellFormed = true := by
  obtain ⟨b1, tail, rfl, hlen⟩ := decodeToken_holds h
  cases c with
  | true =>
    cases (decodeToken_literal b1 tail).symm.trans h
    exact ⟨_, rfl, rfl, rfl⟩
  | false =>
    by_cases hn : b1.extractLsb' 4 4 = 0#4
    · have h3 : 3 ≤ (b1 :: tail).length := by simpa [tokenLength, hn] using hlen
      obtain ⟨b2, b3, tail, rfl⟩ : ∃ b2 b3 tail', tail = b2 :: b3 :: tail' := by
        match tail, h3 with
        | b2 :: b3 :: tail, _ => exact ⟨b2, b3, tail, rfl⟩
      cases (decodeToken_long hn b2 b3 tail).symm.trans h
      obtain ⟨h1, h2⟩ := reference_bytes b1 b2
      rw [hn] at h1
      exact ⟨_, rfl, by rw [h1, h2]; rfl, rfl⟩
    · have h2 : 2 ≤ (b1 :: tail).length := by simpa [tokenLength, hn] using hlen
      obtain ⟨b2, tail, rfl⟩ : ∃ b2 tail', tail = b2 :: tail' := by
        match tail, h2 with
        | b2 :: tail, _ => exact ⟨b2, tail, rfl⟩
      cases (decodeToken_short hn b2 tail).symm.trans h
      obtain ⟨h1, h2⟩ := reference_bytes b1 b2
      exact ⟨_, rfl, by rw [h1, h2]; rfl, by simpa [Instr.wellFormed] using hn⟩

/-- R65: what the encoder writes for a token decodes to it, whatever follows. -/
theorem decodeToken_of_encode {c : Bool} {head : List Byte} {i : Instr} (h : encode i = .token c head)
    (hwf : i.wellFormed = true) (rest : List Byte) : decodeToken c (head ++ rest) = .ok (i, rest) := by
  cases i with
  | lzLit v =>
    cases h
    exact decodeToken_literal v rest
  | lzRef n d =>
    cases h
    obtain ⟨hn, hd⟩ := reference_fields n d
    refine (decodeToken_short ?_ _ rest).trans (by rw [hn, hd])
    rw [hn]
    simpa [Instr.wellFormed] using hwf
  | lzRefx d l =>
    cases h
    obtain ⟨hn, hd⟩ := reference_fields 0#4 d
    exact (decodeToken_long hn _ l rest).trans (by rw [hd])
  | _ => cases h

/-- R68: every pair of bytes of a stream is what the encoder writes for its record. -/
theorem encode_decodeRecord (stream : Stream) (b0 b1 : Byte) :
    encode (decodeRecord stream b0 b1) = .record stream b0 b1 := by
  have hstick : b0.extractLsb' 4 4 ++ b0.extractLsb' 0 4 = b0 := append_extract (u := 4) (w := 4) b0 rfl
  have hdpad : b0.extractLsb' 4 4 ++ b0.extractLsb' 3 1 ++ b0.extractLsb' 0 3 = b0 :=
    append_extract_three (u := 4) (v := 1) (w := 3) b0 rfl
  cases stream with
  | face => rfl
  | stick => exact congrArg (Encoded.record .stick · b1) hstick
  | dpad => exact congrArg (Encoded.record .dpad · b1) hdpad

/-- R68: what the encoder writes for a record decodes to it. -/
theorem decodeRecord_of_encode {stream : Stream} {b0 b1 : Byte} {i : Instr} (h : encode i = .record stream b0 b1) :
    decodeRecord stream b0 b1 = i := by
  cases i with
  | evFace => cases h; rfl
  | evStick x y t =>
    cases h
    have hx : (x ++ y).extractLsb' 4 4 = x := BitVec.extractLsb'_append_eq_left
    have hy : (x ++ y).extractLsb' 0 4 = y := BitVec.extractLsb'_append_eq_right
    rw [decodeRecord, hx, hy]
  | evDpad e i d t =>
    cases h
    have he : (e ++ i ++ d).extractLsb' 4 4 = e := extract_top e i d rfl
    have hi : (e ++ i ++ d).extractLsb' 3 1 = i := extract_middle e i d
    have hd : (e ++ i ++ d).extractLsb' 0 3 = d := BitVec.extractLsb'_append_eq_right
    rw [decodeRecord, he, hi, hd]
  | _ => cases h

/-- Settles O3. -/
theorem encodeOfDecodedTokenAndRecord : Obligations.EncodeOfDecodedTokenAndRecord :=
  ⟨fun _ _ _ _ => encode_of_decodeToken, encode_decodeRecord⟩

/-! ## All three kinds of encoding -/

/-- Settles O1: each of the three decoders undoes the encoder. -/
theorem decodeOfEncodeIsIdentity : Obligations.DecodeOfEncodeIsIdentity := by
  intro i hwf
  cases h : encode i with
  | command cmd => exact decodeCommand_of_encode h hwf
  | token c bytes =>
    have hd := decodeToken_of_encode h hwf []
    rw [List.append_nil] at hd
    rw [decode, hd]
    rfl
  | record stream b0 b1 => exact congrArg Except.ok (decodeRecord_of_encode h)

/-- Settles O5, by evaluating the decoder on each of the nine. -/
theorem specWordsDecode : Obligations.SpecWordsDecode :=
  ⟨rfl, rfl, rfl, rfl, rfl, rfl, rfl, rfl, rfl⟩

end Sys2Proof
end

section
/-! PROOFS. Expansion (spec/41_lz_decompressor.md): what a back-reference copies, and that `LZ.RUN` on a packed block
gives what its tokens stand for. -/

namespace Sys2Proof.Machine

open Sys2Proof

/-! ## Back-references with enough output behind them and enough room (R108 to R111) -/

/-- The state after a back-reference of `n` bytes of stream that copied `k` bytes from `d + 1` behind the end. -/
def lzReferred (n : Nat) (d : BitVec 12) (k : Nat) (s : State) : State :=
  { s with
    lzd := { s.lzd with src := s.lzd.src + BitVec.ofNat 33 n, dist := d, cnt := 0, out := s.lzd.out.copied d.toNat k } }

theorem lzBackref_eq {s : State} {k : Nat} (hst : s.lzd.st = .run) (hd : s.lzd.dist.toNat + 1 ≤ s.lzd.out.len)
    (hcnt : s.lzd.cnt.toNat = k) (hroom : s.lzd.out.len + k ≤ s.lzd.decl.toNat) :
    lzBackref s = { s with lzd := { s.lzd with out := s.lzd.out.copied s.lzd.dist.toNat k, cnt := 0 } } := by
  subst hcnt
  have hzero : s.lzd.cnt - BitVec.ofNat 9 s.lzd.cnt.toNat = 0 := by simp
  rw [lzBackref, if_neg (by omega)]
  refine (lzCopy_eq _ _ (by dsimp only; omega)).trans ((if_pos hroom).trans ?_)
  dsimp only
  rw [hzero, hst]

theorem lzRef_eq {s : State} {n : BitVec 4} {d : BitVec 12} (hst : s.lzd.st = .run)
    (hsrc : s.lzd.src.toNat + 2 ≤ s.lzd.stop.toNat) (hd : d.toNat + 1 ≤ s.lzd.out.len)
    (hroom : s.lzd.out.len + (n.toNat + 2) ≤ s.lzd.decl.toNat) :
    lzRef engine n d s = lzReferred 2 d (n.toNat + 2) s := by
  have hcnt : (BitVec.ofNat 9 (n.toNat + 2)).toNat = n.toNat + 2 := by
    rw [BitVec.toNat_ofNat, Nat.mod_eq_of_lt (by have := n.isLt; omega)]
  rw [lzRef, if_neg (by omega)]
  exact lzBackref_eq hst hd hcnt hroom

theorem lzRefx_eq {s : State} {d : BitVec 12} {l : Byte} (hst : s.lzd.st = .run)
    (hsrc : s.lzd.src.toNat + 3 ≤ s.lzd.stop.toNat) (hd : d.toNat + 1 ≤ s.lzd.out.len)
    (hroom : s.lzd.out.len + (l.toNat + 0x12) ≤ s.lzd.decl.toNat) :
    lzRefx engine d l s = lzReferred 3 d (l.toNat + 0x12) s := by
  have hcnt : (BitVec.ofNat 9 (l.toNat + 0x12)).toNat = l.toNat + 0x12 := by
    rw [BitVec.toNat_ofNat, Nat.mod_eq_of_lt (by have := l.isLt; omega)]
  have h2 : (s.lzd.src + 2).toNat = s.lzd.src.toNat + 2 := src_add (n := 2) (by decide) (by omega)
  have h3 : s.lzd.src + 2 + 1 = s.lzd.src + BitVec.ofNat 33 3 := by rw [BitVec.add_assoc]; rfl
  rw [lzRefx, if_neg (by omega)]
  dsimp only
  rw [if_neg (by omega), h3]
  exact lzBackref_eq hst hd hcnt hroom

/-- What a back-reference changes and what it leaves: byte `j` of the copy repeats the last `d + 1` bytes. -/
theorem lzReferred_copies {s : State} {n k : Nat} {d : BitVec 12} (hwf : s.lzd.out.wf = true) (hn : n < 2 ^ 33)
    (hsrc : s.lzd.src.toNat + n ≤ s.lzd.stop.toNat) (hd : d.toNat + 1 ≤ s.lzd.out.len) :
    let t := lzReferred n d k s
    OnlyLzd s t ∧ t.rep = s.rep ∧ t.lzd = { s.lzd with out := t.lzd.out, src := t.lzd.src, dist := d, cnt := 0 } ∧
      t.lzd.src.toNat = s.lzd.src.toNat + n ∧ t.lzd.out.len = s.lzd.out.len + k ∧
      (∀ a, a < s.lzd.out.len → t.byteAt .output a = s.byteAt .output a) ∧
      ∀ j, j < k →
        t.byteAt .output (s.lzd.out.len + j) =
          s.byteAt .output (s.lzd.out.len - (d.toNat + 1) + j % (d.toNat + 1)) :=
  ⟨⟨rfl, rfl, rfl, rfl, rfl, rfl, fun _ => rfl⟩, rfl, rfl, src_add hn hsrc, copied_len _ _ _,
    fun _ => read_copied_below hwf _ _, fun _ => read_copied hwf _ _ hd⟩

/-- Settles O26. -/
theorem referenceCopiesBehind : Obligations.ReferenceCopiesBehind :=
  fun _ _ _ _ hst hwf hsrc hd hroom =>
    ⟨_, congrArg Host.Outcome.next (lzRef_eq hst hsrc hd hroom), lzReferred_copies hwf (by decide) hsrc hd⟩

/-- Settles O27. -/
theorem longReferenceCopiesBehind : Obligations.LongReferenceCopiesBehind :=
  fun _ _ _ hst hwf hsrc hd hroom =>
    ⟨_, congrArg Host.Outcome.next (lzRefx_eq hst hsrc hd hroom), lzReferred_copies hwf (by decide) hsrc hd⟩

/-! ## The reference output as the contents of OUT -/

theorem append_ofBytes (out : List Byte) (v : Byte) :
    (Space.ofBytes out).append v = Space.ofBytes (out ++ [v]) := by
  refine space_ext (append_wf (ofBytes_wf out) v) (ofBytes_wf _) (by simp) fun a => ?_
  rw [read_append (ofBytes_wf out), read_ofBytes, read_ofBytes, ofBytes_len]
  rcases Nat.lt_trichotomy a out.length with h | h | h
  · rw [if_neg (by omega), List.getD_append _ _ _ _ h]
  · subst h; simp
  · rw [if_neg (by omega), List.getD_eq_default _ _ (by omega), List.getD_eq_default _ _ (by simp; omega)]

theorem copied_ofBytes (out : List Byte) (dist k : Nat) :
    (Space.ofBytes out).copied dist k = Space.ofBytes (copyBack k (dist + 1) out) := by
  induction k generalizing out with
  | zero => rfl
  | succ k ih => rw [Space.copied, read_ofBytes, append_ofBytes, ih, ofBytes_len, Nat.sub_sub]; rfl

theorem copyBack_length (k dist : Nat) (out : List Byte) : (copyBack k dist out).length = out.length + k := by
  induction k generalizing out with
  | zero => rfl
  | succ k ih => rw [copyBack, ih, List.length_append, List.length_singleton]; omega

/-- Every token adds to the output. -/
theorem expandToken_length {i : Instr} {out out' : List Byte} (h : expandToken out i = some out') :
    out.length < out'.length := by
  cases i with
  | lzLit v => cases h; simp
  | lzRef n d =>
    rw [expandToken] at h
    split at h
    · cases h
    · cases h; rw [copyBack_length]; omega
  | lzRefx d l =>
    rw [expandToken] at h
    split at h
    · cases h
    · cases h; rw [copyBack_length]; omega
  | _ => cases h

theorem expandTokens_length {toks : List Instr} {out final : List Byte} (h : expandTokens toks out = some final) :
    out.length ≤ final.length := by
  induction toks generalizing out with
  | nil => cases h; exact Nat.le_refl _
  | cons i rest ih =>
    obtain ⟨out', hi, hrest⟩ := Option.bind_eq_some_iff.mp h
    exact (expandToken_length hi).le.trans (ih hrest)

/-- A token with its bytes in the slice and room for what it stands for: OUT becomes what it stands for, and the cursor
moves behind it. -/
theorem exec_expandToken {s : State} {i : Instr} {c : Bool} {bytes out out' : List Byte}
    (henc : encode i = .token c bytes) (hst : s.lzd.st = .run) (hout : s.lzd.out = Space.ofBytes out)
    (hsrc : s.lzd.src.toNat + bytes.length ≤ s.lzd.stop.toNat) (hexp : expandToken out i = some out')
    (hroom : out'.length ≤ s.lzd.decl.toNat) :
    ∃ dist cnt, exec i s = .next
      { s with
        lzd :=
          { s.lzd with
            src := s.lzd.src + BitVec.ofNat 33 bytes.length, dist := dist, cnt := cnt
            out := Space.ofBytes out' } } := by
  have hlen : s.lzd.out.len = out.length := by rw [hout]; rfl
  cases i with
  | lzLit v =>
    cases henc
    cases hexp
    refine ⟨s.lzd.dist, s.lzd.cnt, congrArg Host.Outcome.next ?_⟩
    rw [List.length_singleton] at hsrc
    rw [lzLit, if_neg (by omega), hout, append_ofBytes]
    rfl
  | lzRef n d =>
    cases henc
    rw [expandToken] at hexp
    split at hexp
    · cases hexp
    · cases hexp
      rw [copyBack_length] at hroom
      refine ⟨d, 0, congrArg Host.Outcome.next ((lzRef_eq hst hsrc (by omega) (by omega)).trans ?_)⟩
      rw [lzReferred, hout, copied_ofBytes]
      rfl
  | lzRefx d l =>
    cases henc
    rw [expandToken] at hexp
    split at hexp
    · cases hexp
    · cases hexp
      rw [copyBack_length] at hroom
      refine ⟨d, 0, congrArg Host.Outcome.next ((lzRefx_eq hst hsrc (by omega) (by omega)).trans ?_)⟩
      rw [lzReferred, hout, copied_ofBytes]
      rfl
  | _ => cases henc

/-! ## Bytes of a space at an offset -/

/-- The space holds the bytes from offset `a` on. -/
def HoldsAt (m : Space) (a : Nat) (bytes : List Byte) : Prop :=
  ∀ j, j < bytes.length → m.read (a + j) = bytes.getD j 0

theorem holdsAt_append {m : Space} {a : Nat} {xs ys : List Byte} :
    HoldsAt m a (xs ++ ys) ↔ HoldsAt m a xs ∧ HoldsAt m (a + xs.length) ys := by
  constructor
  · refine fun h => ⟨fun j hj => ?_, fun j hj => ?_⟩
    · rw [h j (by rw [List.length_append]; omega), List.getD_append _ _ _ _ hj]
    · rw [Nat.add_assoc, h (xs.length + j) (by rw [List.length_append]; omega),
        List.getD_append_right _ _ _ _ (by omega), Nat.add_sub_cancel_left]
  · rintro ⟨hx, hy⟩ j hj
    rw [List.length_append] at hj
    by_cases hlt : j < xs.length
    · rw [hx j hlt, List.getD_append _ _ _ _ hlt]
    · rw [List.getD_append_right _ _ _ _ (by omega), ← hy (j - xs.length) (by omega)]
      congr 1
      omega

theorem holdsAt_cons {m : Space} {a : Nat} {v : Byte} {rest : List Byte} :
    HoldsAt m a (v :: rest) ↔ m.read a = v ∧ HoldsAt m (a + 1) rest := by
  refine (holdsAt_append (xs := [v])).trans (and_congr_left fun _ => ?_)
  exact ⟨fun h => h 0 Nat.one_pos, fun h j hj => by obtain rfl := Nat.lt_one_iff.mp hj; exact h⟩

theorem HoldsAt.readList {m : Space} {a : Nat} {bytes : List Byte} (h : HoldsAt m a bytes) :
    m.readList a bytes.length = bytes := by
  induction bytes generalizing a with
  | nil => rfl
  | cons v rest ih =>
    obtain ⟨hv, hrest⟩ := holdsAt_cons.mp h
    rw [List.length_cons, Space.readList, hv, ih hrest]

/-- The token peeked at is the one whose bytes stand at the cursor. -/
theorem tokenAt_of_holds {s : State} {i : Instr} {c : Bool} {bytes : List Byte} (henc : encode i = .token c bytes)
    (hwf : i.wellFormed = true) (hbytes : HoldsAt s.inp s.lzd.src.toNat bytes)
    (hsrc : s.lzd.src.toNat + bytes.length ≤ s.lzd.stop.toNat) : tokenAt c s = i := by
  have peek {k : Nat} (hk : k < bytes.length) : lzPeek s k = bytes.getD k 0 := by
    rw [lzPeek, if_pos (by omega), hbytes k hk]
  cases i with
  | lzLit v =>
    cases henc
    rw [tokenAt, tokenOf, if_pos rfl, peek Nat.one_pos]
    rfl
  | lzRef n d =>
    cases henc
    obtain ⟨hn, hd⟩ := reference_fields n d
    have hne : n ≠ 0 := by simpa [Instr.wellFormed] using hwf
    rw [tokenAt, tokenOf, if_neg (by decide), peek Nat.two_pos, peek Nat.one_lt_two, List.getD_cons_zero,
      List.getD_cons_succ, List.getD_cons_zero, hn, hd, if_neg hne]
  | lzRefx d l =>
    cases henc
    obtain ⟨hn, hd⟩ := reference_fields 0#4 d
    rw [tokenAt, tokenOf, if_neg (by decide), peek (k := 0) (by simp), peek (k := 1) (by simp), peek (k := 2) (by simp)]
    simp only [List.getD_cons_zero, List.getD_cons_succ]
    rw [hn, hd]
    rfl
  | _ => cases henc

/-! ## The packed token stream (R64) -/

/-- The number of groups a packing may take does not matter once it is enough. -/
theorem packGroups_enough {k k' : Nat} {toks : List Instr} (h : toks.length ≤ k) (h' : toks.length ≤ k') :
    packGroups k toks = packGroups k' toks := by
  induction k generalizing k' toks with
  | zero => rw [List.length_eq_zero_iff.mp (Nat.le_zero.mp h)]; cases k' <;> rfl
  | succ k ih =>
    cases toks with
    | nil => cases k' <;> rfl
    | cons i rest =>
      obtain ⟨k', rfl⟩ : ∃ n, k' = n + 1 := ⟨k' - 1, by rw [List.length_cons] at h'; omega⟩
      rw [packGroups, packGroups, ih (k' := k')]
      all_goals
        rw [List.length_cons] at h h'
        rw [List.length_drop, List.length_cons]
        omega

/-- The first group, and the stream of the tokens after it. -/
theorem packTokens_cons (i : Instr) (rest : List Instr) :
    packTokens (i :: rest) =
      controlByte ((i :: rest).take 8) ::
        (((i :: rest).take 8).flatMap tokenBytes ++ packTokens ((i :: rest).drop 8)) := by
  rw [packTokens, List.length_cons, packGroups, packTokens,
    packGroups_enough (k' := ((i :: rest).drop 8).length) _ (Nat.le_refl _)]
  rw [List.length_drop, List.length_cons]
  omega

theorem encode_of_token {i : Instr} (h : i.kind = .token) : encode i = .token (tokenBit i) (tokenBytes i) := by
  cases i with
  | lzLit | lzRef | lzRefx => rfl
  | _ => cases h

/-- Every token takes a byte of the stream. -/
theorem length_le_packGroups {k : Nat} {toks : List Instr} (hk : toks.length ≤ k)
    (htok : ∀ i ∈ toks, i.kind = .token) : toks.length ≤ (packGroups k toks).length := by
  have bytes {group : List Instr} (hg : ∀ i ∈ group, i.kind = .token) :
      group.length ≤ (group.flatMap tokenBytes).length := by
    induction group with
    | nil => exact Nat.le_refl _
    | cons i group ih =>
      obtain ⟨hi, hg⟩ := List.forall_mem_cons.mp hg
      have hone : 1 ≤ (tokenBytes i).length := by
        cases i with
        | lzLit | lzRef | lzRefx => exact Nat.succ_pos _
        | _ => cases hi
      have := ih hg
      rw [List.flatMap_cons, List.length_append, List.length_cons]
      omega
  induction k generalizing toks with
  | zero => omega
  | succ k ih =>
    cases toks with
    | nil => exact Nat.zero_le _
    | cons i rest =>
      have hfirst := bytes fun i hi => htok i (List.mem_of_mem_take (i := 8) hi)
      have hlater := ih (toks := (i :: rest).drop 8) (by rw [List.length_drop, List.length_cons] at *; omega)
        fun i hi => htok i (List.mem_of_mem_drop hi)
      have hall : ((i :: rest).take 8 ++ (i :: rest).drop 8).length = (i :: rest).length := by
        rw [List.take_append_drop]
      rw [List.length_append] at hall
      rw [packGroups, List.length_cons (as := _ ++ _), List.length_append]
      omega

/-- Bit 7 of a control byte belongs to the first token of its group, and so on down. -/
theorem controlByte_bit (group : List Instr) {k : Nat} (hk : k < 8) :
    (controlByte group).getMsbD k = (group.map tokenBit).getD k false := by
  have digit (b : Bool) : (if b = true then 1 else 0) = b.toNat := by cases b <;> rfl
  have hlt (j : Nat) := ((group.map tokenBit).getD j false).toNat_lt
  have hval : (controlByte group).toNat / 2 ^ (7 - k) % 2 = ((group.map tokenBit).getD k false).toNat := by
    rw [controlByte, show List.range 8 = [0, 1, 2, 3, 4, 5, 6, 7] from rfl]
    simp only [List.foldl_cons, List.foldl_nil, digit, BitVec.toNat_ofNat]
    have := hlt 0
    have := hlt 1
    have := hlt 2
    have := hlt 3
    have := hlt 4
    have := hlt 5
    have := hlt 6
    have := hlt 7
    interval_cases k <;> omega
  rw [BitVec.getMsbD, show 8 - 1 - k = 7 - k by omega, getLsbD_of_digit hval]
  simp [hk]

/-! ## A run on a packed stream (R104 to R106) -/

/-- The token cycle before the end of the run, where a control bit is left or a control byte can be fetched. -/
theorem lzFetch_token {s : State} (hsize : s.lzd.out.len ≠ s.lzd.decl.toNat)
    (hbit : s.lzd.nbits = 0 → s.lzd.src.toNat < s.lzd.stop.toNat) :
    lzFetch s = .token (lzRefill s).lzd.ctl.msb (lzTakeBit (lzRefill s)) := by
  rw [lzFetch, if_neg hsize, if_neg fun h => absurd (hbit h.1) (by omega)]

/-- Such a cycle is the meaning of the token it meets. -/
theorem exec_tokenAt_cycle {s : State} (hsize : s.lzd.out.len ≠ s.lzd.decl.toNat)
    (hbit : s.lzd.nbits = 0 → s.lzd.src.toNat < s.lzd.stop.toNat) :
    exec (tokenAt (lzRefill s).lzd.ctl.msb (lzTakeBit (lzRefill s))) (lzTakeBit (lzRefill s)) =
      .next (lzCycle engine s) := by
  rw [lzCycle, lzFetch_token hsize hbit, tokenAt, exec_tokenOf]

/-- The bytes of the stream still to come: those of the tokens left in the group under way, and the groups after it. -/
def streamAhead (group later : List Instr) : List Byte := group.flatMap tokenBytes ++ packTokens later

/-- Where a run that began in `start` stands, on a stream that ends at offset `fin`: in its group it has still to take
the tokens `group`, after it those of `later`, and OUT holds `out`. -/
structure LzReading (start : State) (fin : Nat) (group later : List Instr) (out : List Byte) (s : State) : Prop where
  frame : LzFrame start s
  rep : s.rep = start.rep
  decl : s.lzd.decl = start.lzd.decl
  st : s.lzd.st = .run
  out : s.lzd.out = Space.ofBytes out
  bits : group.length ≤ s.lzd.nbits.toNat
  full : later ≠ [] → s.lzd.nbits.toNat = group.length
  ctl : ∀ k, k < group.length → s.lzd.ctl.getMsbD k = (group.map tokenBit).getD k false
  bytes : HoldsAt s.inp s.lzd.src.toNat (streamAhead group later)
  ends : s.lzd.src.toNat + (streamAhead group later).length = fin
  fits : fin ≤ s.lzd.stop.toNat

/-- With tokens still to take, a control bit is left or the stream has a control byte. -/
theorem LzReading.bit_or_byte {start s : State} {fin : Nat} {group later : List Instr} {out : List Byte}
    (h : LzReading start fin group later out s) (hne : group ++ later ≠ []) (hnbits : s.lzd.nbits = 0) :
    group = [] ∧ later ≠ [] ∧ s.lzd.src.toNat < s.lzd.stop.toNat := by
  have hbits := h.bits
  rw [hnbits] at hbits
  obtain rfl := List.length_eq_zero_iff.mp (Nat.le_zero.mp hbits)
  refine ⟨rfl, hne, ?_⟩
  obtain ⟨i, rest, rfl⟩ := List.exists_cons_of_ne_nil (show later ≠ [] from hne)
  have hends := h.ends
  have hfits := h.fits
  rw [streamAhead, List.length_append, packTokens_cons, List.length_cons] at hends
  omega

/-- The control byte of a group is fetched where the group before it is used up (R105). -/
theorem LzReading.refill {start s : State} {fin : Nat} {group later : List Instr} {out : List Byte} {i : Instr}
    {rest : List Instr} (h : LzReading start fin group later out s) (hne : group ++ later = i :: rest) :
    ∃ group' later', rest = group' ++ later' ∧ LzReading start fin (i :: group') later' out (lzRefill s) := by
  by_cases hnbits : s.lzd.nbits = 0
  · obtain ⟨rfl, -, hlt⟩ := h.bit_or_byte (by rw [hne]; exact List.cons_ne_nil _ _) hnbits
    obtain rfl : later = i :: rest := hne
    have hsrc : (s.lzd.src + 1).toNat = s.lzd.src.toNat + 1 := src_add (n := 1) (by decide) hlt
    have hbytes := h.bytes
    have hends := h.ends
    rw [streamAhead, List.flatMap_nil, List.nil_append, packTokens_cons] at hbytes hends
    obtain ⟨hctl, hbytes⟩ := holdsAt_cons.mp hbytes
    refine ⟨rest.take 7, rest.drop 7, (List.take_append_drop 7 rest).symm, ?_⟩
    rw [lzRefill, if_pos hnbits]
    refine
      { frame := h.frame.trans (lzFrame_update s _ rfl rfl), rep := h.rep, decl := h.decl, st := h.st, out := h.out
        fits := h.fits, bits := ?bits, full := ?full, ctl := ?ctl, bytes := ?bytes, ends := ?ends }
    case bits =>
      rw [List.length_cons, List.length_take]
      exact Nat.succ_le_succ (Nat.min_le_left _ _)
    case full =>
      intro hlater
      have hpos := List.length_pos_of_ne_nil hlater
      rw [List.length_drop] at hpos
      rw [List.length_cons, List.length_take, Nat.min_eq_left (by omega)]
      rfl
    case ctl =>
      intro k hk
      rw [List.length_cons, List.length_take] at hk
      show (s.inp.read s.lzd.src.toNat).getMsbD k = _
      rw [hctl]
      exact controlByte_bit _ (by omega)
    case bytes =>
      show HoldsAt s.inp (s.lzd.src + 1).toNat _
      rw [hsrc]
      exact hbytes
    case ends =>
      show (s.lzd.src + 1).toNat + _ = _
      rw [hsrc, ← hends, List.length_cons, Nat.add_right_comm, Nat.add_assoc]
      rfl
  · have hgroup : group ≠ [] := by
      rintro rfl
      have := h.full (by rw [show later = i :: rest from hne]; exact List.cons_ne_nil _ _)
      exact hnbits (BitVec.eq_of_toNat_eq this)
    obtain ⟨j, group', rfl⟩ := List.exists_cons_of_ne_nil hgroup
    obtain ⟨rfl, rfl⟩ := List.cons_eq_cons.mp hne
    rw [lzRefill, if_neg hnbits]
    exact ⟨group', later, rfl, h⟩

/-- The next control bit and the bytes at the cursor are those of the next token (R106). -/
theorem LzReading.next_token {start s : State} {fin : Nat} {group later : List Instr} {out : List Byte} {i : Instr}
    (h : LzReading start fin (i :: group) later out s) (hkind : i.kind = .token) (hwf : i.wellFormed = true) :
    tokenAt s.lzd.ctl.msb (lzTakeBit s) = i := by
  have hbit : s.lzd.ctl.msb = tokenBit i := h.ctl 0 (Nat.succ_pos _)
  have hbytes := h.bytes
  have hends := h.ends
  have hfits := h.fits
  rw [streamAhead, List.flatMap_cons, List.append_assoc] at hbytes hends
  rw [List.length_append] at hends
  rw [hbit]
  exact tokenAt_of_holds (encode_of_token hkind) hwf (holdsAt_append.mp hbytes).1
    (by rw [lzTakeBit_lzd]; dsimp only; omega)

/-- After the token the run stands behind it, with what it stands for in OUT. -/
theorem LzReading.taken {start s t : State} {fin : Nat} {group later : List Instr} {out out' : List Byte} {i : Instr}
    (h : LzReading start fin (i :: group) later out s) (hkind : i.kind = .token)
    (hexp : expandToken out i = some out') (hroom : out'.length ≤ start.lzd.decl.toNat)
    (hexec : exec i (lzTakeBit s) = .next t) : LzReading start fin group later out' t := by
  have hbytes := h.bytes
  have hends := h.ends
  have hfits := h.fits
  have hbits := h.bits
  rw [streamAhead, List.flatMap_cons, List.append_assoc] at hbytes hends
  rw [List.length_append] at hends
  rw [List.length_cons] at hbits
  have hle : s.lzd.src.toNat + (tokenBytes i).length ≤ s.lzd.stop.toNat := by omega
  have hsrc : (s.lzd.src + BitVec.ofNat 33 (tokenBytes i).length).toNat =
      s.lzd.src.toNat + (tokenBytes i).length := src_add (by have := s.lzd.stop.isLt; omega) hle
  have hnbits : (s.lzd.nbits - 1).toNat = s.lzd.nbits.toNat - 1 :=
    BitVec.toNat_sub_of_le (show 1 ≤ s.lzd.nbits.toNat by omega)
  obtain ⟨dist, cnt, heq⟩ := exec_expandToken (s := lzTakeBit s) (encode_of_token hkind) h.st h.out hle hexp
    (by rw [lzTakeBit_lzd, h.decl]; exact hroom)
  obtain rfl := Host.Outcome.next.inj (hexec.symm.trans heq)
  refine
    { frame := h.frame.trans (lzFrame_update s _ rfl rfl), rep := h.rep, decl := h.decl, st := h.st, out := rfl
      fits := h.fits, bits := ?bits, full := ?full, ctl := ?ctl, bytes := ?bytes, ends := ?ends }
  case bits =>
    show group.length ≤ (s.lzd.nbits - 1).toNat
    omega
  case full =>
    intro hlater
    have hfull := h.full hlater
    rw [List.length_cons] at hfull
    show (s.lzd.nbits - 1).toNat = _
    omega
  case ctl =>
    intro k hk
    have hbit := h.ctl (k + 1) (Nat.succ_lt_succ hk)
    show (s.lzd.ctl <<< 1).getMsbD k = _
    rw [BitVec.getMsbD_shiftLeft, hbit]
    rfl
  case bytes =>
    show HoldsAt s.inp (s.lzd.src + BitVec.ofNat 33 (tokenBytes i).length).toNat _
    rw [hsrc]
    exact (holdsAt_append.mp hbytes).2
  case ends =>
    show (s.lzd.src + BitVec.ofNat 33 (tokenBytes i).length).toNat + _ = _
    rw [hsrc, Nat.add_assoc]
    exact hends

/-- One token cycle takes one token. -/
theorem LzReading.cycle {start s : State} {fin : Nat} {group later : List Instr} {out out' : List Byte} {i : Instr}
    {rest : List Instr} (h : LzReading start fin group later out s) (hne : group ++ later = i :: rest)
    (hkind : i.kind = .token) (hwf : i.wellFormed = true) (hexp : expandToken out i = some out')
    (hroom : out'.length ≤ start.lzd.decl.toNat) :
    ∃ group' later', rest = group' ++ later' ∧ LzReading start fin group' later' out' (lzCycle engine s) := by
  have hsize : s.lzd.out.len ≠ s.lzd.decl.toNat := by
    rw [h.out, h.decl, ofBytes_len]
    have := expandToken_length hexp
    omega
  have hbit := fun h0 => (h.bit_or_byte (by rw [hne]; exact List.cons_ne_nil _ _) h0).2.2
  obtain ⟨group', later', hrest, h⟩ := h.refill hne
  have hexec := exec_tokenAt_cycle hsize hbit
  rw [h.next_token hkind hwf] at hexec
  exact ⟨group', later', hrest, h.taken hkind hexp hroom hexec⟩

/-- The loop takes the tokens one by one and ends with success behind the stream. -/
theorem LzReading.loop {start s : State} {fin : Nat} {group later toks : List Instr} {out final : List Byte} {k : Nat}
    (h : LzReading start fin group later out s) (hne : group ++ later = toks)
    (htoks : ∀ i ∈ toks, i.kind = .token ∧ i.wellFormed = true) (hexp : expandTokens toks out = some final)
    (hfinal : final.length = start.lzd.decl.toNat) (hk : toks.length < k) :
    ∃ t, LzReading start fin [] [] final t ∧ lzLoop engine k s = lzSucceed t := by
  induction toks generalizing s group later out k with
  | nil =>
    obtain ⟨rfl, rfl⟩ := List.append_eq_nil_iff.mp hne
    cases hexp
    obtain ⟨k, rfl⟩ : ∃ n, k = n + 1 := ⟨k - 1, by omega⟩
    have hend : s.lzd.out.len = s.lzd.decl.toNat := by rw [h.out, h.decl, ← hfinal, ofBytes_len]
    have hcycle : lzCycle engine s = lzSucceed s := by rw [lzCycle, lzFetch, if_pos hend]
    refine ⟨s, h, ?_⟩
    rw [lzLoop, if_pos h.st, hcycle]
    exact lzLoop_ended engine k _ (by rw [lzSucceed_lzd]; exact nofun)
  | cons i rest ih =>
    obtain ⟨⟨hkind, hwf⟩, hrest⟩ := List.forall_mem_cons.mp htoks
    obtain ⟨out', hi, hexp⟩ := Option.bind_eq_some_iff.mp hexp
    obtain ⟨k, rfl⟩ : ∃ n, k = n + 1 := ⟨k - 1, by rw [List.length_cons] at hk; omega⟩
    have hroom : out'.length ≤ start.lzd.decl.toNat := hfinal ▸ expandTokens_length hexp
    obtain ⟨group', later', rfl, hnext⟩ := h.cycle hne hkind hwf hi hroom
    rw [lzLoop, if_pos h.st]
    exact ih hnext rfl hrest hexp (by rw [List.length_cons] at hk; omega)

/-! ## The header of a packed block (R103) -/

/-- The value of the `n` low bytes of a number. -/
theorem bigEndian_bytesOf (n w : Nat) : bigEndian (bytesOf n w) = w % 256 ^ n := by
  have hlen (n : Nat) : (bytesOf n w).length = n := by
    induction n with
    | zero => rfl
    | succ n ih => rw [bytesOf, List.length_cons, ih]
  induction n with
  | zero => simp [bytesOf, bigEndian_nil, Nat.mod_one]
  | succ n ih =>
    rw [bytesOf, bigEndian_cons, hlen, ih, BitVec.toNat_ofNat, Nat.pow_mul, show 2 ^ 8 = 256 from rfl,
      Nat.mod_pow_succ (k := n), Nat.add_comm, Nat.mul_comm]

/-- A slice inside IN with room for a header and the right magic starts a run. -/
theorem lzBegun_of_header {s : State} {addr : BitVec 32} {len : BitVec 23} (hslice : addr.toNat + len.toNat ≤ s.inp.len)
    (hlen : 24 ≤ len.toNat) (hmagic : s.inp.readList addr.toNat 4 = engine.lzMagic.toList) :
    LzBegun engine addr s (lzBegin engine addr len s) := by
  have hmax : bigEndian (s.inp.readList (addr.toNat + 4) 4) < 2 ^ 32 := by
    have := bigEndian_lt (s.inp.readList (addr.toNat + 4) 4)
    rwa [readList_length] at this
  have hbody : ¬len.toNat < engine.lzBodyOffset := Nat.not_lt.mpr hlen
  have hout : ¬engine.outMax < bigEndian (s.inp.readList (addr.toNat + 4) 4) := Nat.not_lt.mpr (Nat.le_pred_of_lt hmax)
  obtain ⟨-, -, -, -, -, -, -, -, h⟩ := lzBegin_cases engine addr len s (by decide)
  rwa [if_neg (by omega), if_neg (by omega), if_neg (not_not.mpr hmagic), if_neg (by omega), if_neg hbody,
    if_neg hout] at h

/-- What a block at an offset says: the magic, its size, and where its token stream stands. -/
theorem holdsAt_compressedBlock {m : Space} {a size : Nat} {reserved : List Byte} {toks : List Instr}
    (hreserved : reserved.length = 16) (h : HoldsAt m a (compressedBlock size reserved toks)) :
    m.readList a 4 = engine.lzMagic.toList ∧ bigEndian (m.readList (a + 4) 4) = size % 2 ^ 32 ∧
      HoldsAt m (a + 24) (packTokens toks) := by
  obtain ⟨hheader, hstream⟩ := holdsAt_append.mp h
  obtain ⟨hmagicSize, -⟩ := holdsAt_append.mp hheader
  obtain ⟨hmagic, hsize⟩ := holdsAt_append.mp hmagicSize
  refine ⟨hmagic.readList, ?_, by simpa [hreserved, bytesOf] using hstream⟩
  exact (congrArg bigEndian hsize.readList).trans (bigEndian_bytesOf 4 size)

/-- Behind the header the run stands before its first group. -/
theorem LzBegun.reading {s start : State} {addr : BitVec 32} {toks : List Instr} (h : LzBegun engine addr s start)
    (hstream : HoldsAt start.inp (addr.toNat + 24) (packTokens toks))
    (hfits : addr.toNat + 24 + (packTokens toks).length ≤ start.lzd.stop.toNat) :
    LzReading start (addr.toNat + 24 + (packTokens toks).length) [] toks [] start := by
  have hsrc : start.lzd.src.toNat = addr.toNat + 24 := h.src
  exact
    { frame := LzFrame.refl start, rep := rfl, decl := rfl, st := h.st, out := h.out, bits := Nat.zero_le _
      full := fun _ => congrArg BitVec.toNat h.nbits, ctl := fun _ hk => absurd hk (Nat.not_lt_zero _)
      bytes := by rw [hsrc]; exact hstream
      ends := by rw [hsrc]; rfl
      fits := hfits }

/-- Settles O23: the header of the block starts a run at its first group, which then takes the tokens one by one. -/
theorem runExpandsTokens : Obligations.RunExpandsTokens := by
  intro s addr len reserved out toks htoks hexp hsize hreserved hfits hslice hblock
  have hlen : (compressedBlock out.length reserved toks).length = 24 + (packTokens toks).length := by
    simp only [compressedBlock, List.length_append, hreserved]
    rfl
  have hcount : toks.length ≤ (packTokens toks).length :=
    length_le_packGroups (Nat.le_refl _) fun i hi => (htoks i hi).1
  obtain ⟨hmagic, hdecl, hstream⟩ := holdsAt_compressedBlock (m := s.inp) hreserved hblock
  have hbegun := lzBegun_of_header hslice (by omega) hmagic
  obtain ⟨heq, hbase, hstop, -⟩ := lzBegin_outcome addr len s
  have hexec : exec (.lzRun addr len) s = .next (lzLoop engine (len.toNat + 1) (lzBegin engine addr len s)) := rfl
  generalize lzBegin engine addr len s = start at hbegun heq hbase hstop hexec
  have hinp : start.inp = s.inp := by rw [heq]
  have hfinal : out.length = start.lzd.decl.toNat := by rw [hbegun.decl, hdecl, Nat.mod_eq_of_lt hsize]
  obtain ⟨t, ht, hloop⟩ := (hbegun.reading (hinp ▸ hstream) (by omega)).loop (List.nil_append toks) htoks hexp hfinal
    (k := len.toNat + 1) (by omega)
  obtain ⟨z, r, rfl⟩ : ∃ z r, t = { s with lzd := z, rep := r } := ⟨_, _, ht.frame.eq_update_lzd heq⟩
  have hrep : r = s.rep := ht.rep.trans hbegun.rep
  have hsrc : z.src.toNat = addr.toNat + 24 + (packTokens toks).length := ht.ends
  have hzbase : z.base = addr := ht.frame.base.trans hbase
  have hout : z.out = Space.ofBytes out := ht.out
  rw [hloop, hrep] at hexec
  refine ⟨_, hexec, ⟨rfl, rfl, rfl, rfl, rfl, rfl, fun a => rfl⟩, ⟨rfl, rfl, rfl⟩, rfl, rfl, ?_, ?_, fun a => ?_, ?_⟩
  · exact (congrArg BitVec.toNat ht.decl).trans hfinal.symm
  · exact congrArg Space.len hout
  · exact (congrArg (Space.read · a) hout).trans (read_ofBytes out a)
  · refine (lzUsed_toNat (s := lzSucceed _) ?_).trans ?_
    · show z.base.toNat ≤ z.src.toNat
      rw [hzbase]
      omega
    · show z.src.toNat - z.base.toNat = _
      rw [hzbase]
      omega

end Sys2Proof.Machine
end

section
/-! PROOFS. The walk of the merger from a restart to its end (spec/43_timeline_merger.md R153 to R158), and `TL.ALL`,
which reads it out (spec/30_encoding.md R69). -/

namespace Sys2Proof.Machine

open Sys2Proof

/-! ## One stream on a walk -/

theorem consumed_le_totalDur {cur : Cursor} {durs : List (BitVec 32)} (h : CursorSound cur durs) :
    consumed cur durs ≤ totalDur durs := by
  cases he : durs[cur.idx.toNat]? with
  | none => exact (consumed_exhausted h he).le
  | some n =>
    have hle := (remaining_toNat h he).1
    have hsucc := totalDur_take_succ durs _ n he
    have htake := totalDur_take_le durs (cur.idx.toNat + 1)
    rw [consumed]
    omega

/-- The cursor of a stream on a walk that has emitted `taken` frames: it has taken them all, unless its stream was
exhausted before. -/
structure CursorAt (cur : Cursor) (durs : List (BitVec 32)) (taken : Nat) : Prop where
  sound : CursorSound cur durs
  level : consumed cur durs = taken ∨ durs[cur.idx.toNat]? = none ∧ consumed cur durs ≤ taken

@[simp] theorem consumed_start (durs : List (BitVec 32)) : consumed {} durs = 0 := rfl

theorem cursorAt_start (durs : List (BitVec 32)) : CursorAt {} durs 0 :=
  ⟨cursorSound_start durs, .inl (consumed_start durs)⟩

theorem CursorAt.consumed_le {cur : Cursor} {durs : List (BitVec 32)} {taken : Nat} (h : CursorAt cur durs taken) :
    consumed cur durs ≤ taken :=
  h.level.elim Eq.le And.right

/-- The entries of a stream not yet used up. -/
def entriesLeft (cur : Cursor) (durs : List (BitVec 32)) : Nat := durs.length - cur.idx.toNat

/-- The current entry of a stream is used up by `m` frames. -/
def UsedUpBy (cur : Cursor) (durs : List (BitVec 32)) (m : BitVec 32) : Prop :=
  ∃ n, durs[cur.idx.toNat]? = some n ∧ m = n - cur.used

/-- The cursor after an entry of the timeline of `m` frames, not more than the stream's current entry still has. -/
theorem CursorAt.moved {cur : Cursor} {durs : List (BitVec 32)} {taken : Nat} {m : BitVec 32}
    (h : CursorAt cur durs taken) (hlen : durs.length < 2 ^ 16)
    (hm : ∀ n, durs[cur.idx.toNat]? = some n → m.toNat ≤ (n - cur.used).toNat) :
    CursorAt (advance cur durs[cur.idx.toNat]? m) durs (taken + m.toNat) ∧
      entriesLeft (advance cur durs[cur.idx.toNat]? m) durs ≤ entriesLeft cur durs ∧
      (UsedUpBy cur durs m →
        consumed (advance cur durs[cur.idx.toNat]? m) durs = taken + m.toNat ∧
          entriesLeft (advance cur durs[cur.idx.toNat]? m) durs < entriesLeft cur durs) := by
  cases he : durs[cur.idx.toNat]? with
  | none =>
    have hle := h.consumed_le
    refine ⟨⟨h.sound, .inr ⟨he, ?_⟩⟩, Nat.le_refl _, ?_⟩
    · exact hle.trans (Nat.le_add_right _ _)
    · rintro ⟨n, hn, -⟩
      cases he.symm.trans hn
  | some n =>
    have hlt : cur.idx.toNat < durs.length := (List.getElem?_eq_some_iff.mp he).1
    obtain ⟨hused, hrem⟩ := remaining_toNat h.sound he
    have hlevel : consumed cur durs = taken := h.level.resolve_right fun hnone => by cases he.symm.trans hnone.1
    obtain ⟨hsound, hconsumed, hmove⟩ := advance_cases h.sound he hlen (hrem ▸ hm n he)
    rw [hlevel] at hconsumed
    refine ⟨⟨hsound, .inl hconsumed⟩, ?_, ?_⟩
    · split at hmove
      · rw [entriesLeft, entriesLeft, hmove.1]
        omega
      · rw [entriesLeft, entriesLeft, hmove.1]
    · rintro ⟨n', hn', rfl⟩
      cases he.symm.trans hn'
      rw [if_pos (by omega)] at hmove
      refine ⟨hconsumed, ?_⟩
      rw [entriesLeft, entriesLeft, hmove.1]
      omega

/-! ## The three streams together -/

/-- The durations of FACE. -/
abbrev faceDurs (m : Esm) : List (BitVec 32) := m.face.map FaceEvent.dur

/-- The durations of STICK. -/
abbrev stickDurs (m : Esm) : List (BitVec 32) := m.stick.map StickEvent.dur

/-- The durations of DPAD. -/
abbrev dpadDurs (m : Esm) : List (BitVec 32) := m.dpad.map DpadEvent.dur

/-- The counts of the three streams fit 16 bits, and their sums fit 32 bits. -/
structure StreamsFit (m : Esm) : Prop where
  faceLen : (faceDurs m).length < 2 ^ 16
  stickLen : (stickDurs m).length < 2 ^ 16
  dpadLen : (dpadDurs m).length < 2 ^ 16
  faceSum : totalDur (faceDurs m) < 2 ^ 32
  stickSum : totalDur (stickDurs m) < 2 ^ 32
  dpadSum : totalDur (dpadDurs m) < 2 ^ 32

/-- A walk under way: every cursor is at `TL_TOTAL`, or at the end of a stream that was shorter; one of them is at
`TL_TOTAL`. -/
structure OnWalk (s : State) : Prop where
  face : CursorAt s.tl.curF (faceDurs s.esm) s.tl.total.toNat
  stick : CursorAt s.tl.curS (stickDurs s.esm) s.tl.total.toNat
  dpad : CursorAt s.tl.curD (dpadDurs s.esm) s.tl.total.toNat
  reached : consumed s.tl.curF (faceDurs s.esm) = s.tl.total.toNat ∨
    consumed s.tl.curS (stickDurs s.esm) = s.tl.total.toNat ∨ consumed s.tl.curD (dpadDurs s.esm) = s.tl.total.toNat

/-- All the entries of the three streams not yet used up. -/
def entriesAhead (s : State) : Nat :=
  entriesLeft s.tl.curF (faceDurs s.esm) + entriesLeft s.tl.curS (stickDurs s.esm) +
    entriesLeft s.tl.curD (dpadDurs s.esm)

/-- A bound on what an entry of the array still has, as a bound over the durations. -/
theorem forall_dur {α : Type} {dur : α → BitVec 32} {arr : List α} {i : Nat} {p : BitVec 32 → Prop}
    (h : ∀ e, arr[i]? = some e → p (dur e)) : ∀ n, (arr.map dur)[i]? = some n → p n := by
  intro n hn
  rw [List.getElem?_map, Option.map_eq_some_iff] at hn
  obtain ⟨e, he, rfl⟩ := hn
  exact h e he

theorem usedUpBy_of_entry {α : Type} {dur : α → BitVec 32} {arr : List α} {cur : Cursor} {m : BitVec 32}
    (h : ∃ e, arr[cur.idx.toNat]? = some e ∧ m = dur e - cur.used) : UsedUpBy cur (arr.map dur) m := by
  obtain ⟨e, he, hm⟩ := h
  exact ⟨dur e, by rw [List.getElem?_map, he]; rfl, hm⟩

/-- The moves of the three cursors in a merge step, as moves over the durations. -/
theorem mergeStep_moves (c : Config) (s : State)
    (h : tlOver c (currentFace s).isNone (currentStick s).isNone (currentDpad s).isNone = false) :
    ∃ m,
      (∀ n, (faceDurs s.esm)[s.tl.curF.idx.toNat]? = some n → m.toNat ≤ (n - s.tl.curF.used).toNat) ∧
      (∀ n, (stickDurs s.esm)[s.tl.curS.idx.toNat]? = some n → m.toNat ≤ (n - s.tl.curS.used).toNat) ∧
      (∀ n, (dpadDurs s.esm)[s.tl.curD.idx.toNat]? = some n → m.toNat ≤ (n - s.tl.curD.used).toNat) ∧
      (UsedUpBy s.tl.curF (faceDurs s.esm) m ∨ UsedUpBy s.tl.curS (stickDurs s.esm) m ∨
        UsedUpBy s.tl.curD (dpadDurs s.esm) m) ∧
      (mergeStep c s).tl.curF = advance s.tl.curF (faceDurs s.esm)[s.tl.curF.idx.toNat]? m ∧
      (mergeStep c s).tl.curS = advance s.tl.curS (stickDurs s.esm)[s.tl.curS.idx.toNat]? m ∧
      (mergeStep c s).tl.curD = advance s.tl.curD (dpadDurs s.esm)[s.tl.curD.idx.toNat]? m ∧
      (mergeStep c s).tl.total = s.tl.total + m ∧ (mergeStep c s).tl.dur = m ∧
      (mergeStep c s).tl.count = s.tl.count + 1 ∧ (mergeStep c s).tl.valid = true ∧
      (mergeStep c s).tl.ended = false := by
  obtain ⟨m, hF, hS, hD, hone, heq⟩ := mergeStep_next c s h
  rw [heq]
  refine ⟨m, forall_dur hF, forall_dur hS, forall_dur hD,
    hone.imp usedUpBy_of_entry (.imp usedUpBy_of_entry usedUpBy_of_entry), ?_, ?_, ?_, rfl, rfl, rfl, rfl, rfl⟩
  all_goals
    rw [List.getElem?_map]
    rfl

@[simp] theorem mergeStep_esm (c : Config) (s : State) : (mergeStep c s).esm = s.esm := by
  obtain ⟨m, heq, -⟩ := mergeStep_writes c s
  rw [heq]
  rfl

/-- One entry of a walk: it goes on, with fewer entries ahead. -/
theorem OnWalk.entry {c : Config} {s : State} (h : OnWalk s) (hfit : StreamsFit s.esm)
    (hover : tlOver c (currentFace s).isNone (currentStick s).isNone (currentDpad s).isNone = false) :
    OnWalk (mergeStep c s) ∧
      (mergeStep c s).tl.total.toNat = s.tl.total.toNat + (mergeStep c s).tl.dur.toNat ∧
      (mergeStep c s).tl.count = s.tl.count + 1 ∧ (mergeStep c s).tl.valid = true ∧
      (mergeStep c s).tl.ended = false ∧ entriesAhead (mergeStep c s) < entriesAhead s := by
  obtain ⟨m, hF, hS, hD, hone, curF, curS, curD, total, dur, count, valid, ended⟩ := mergeStep_moves c s hover
  obtain ⟨atF, leF, upF⟩ := h.face.moved hfit.faceLen hF
  obtain ⟨atS, leS, upS⟩ := h.stick.moved hfit.stickLen hS
  obtain ⟨atD, leD, upD⟩ := h.dpad.moved hfit.dpadLen hD
  rw [← curF] at atF leF upF
  rw [← curS] at atS leS upS
  rw [← curD] at atD leD upD
  have hreached : (consumed (mergeStep c s).tl.curF (faceDurs s.esm) = s.tl.total.toNat + m.toNat ∨
      consumed (mergeStep c s).tl.curS (stickDurs s.esm) = s.tl.total.toNat + m.toNat ∨
      consumed (mergeStep c s).tl.curD (dpadDurs s.esm) = s.tl.total.toNat + m.toNat) ∧
      entriesAhead (mergeStep c s) < entriesAhead s := by
    rw [entriesAhead, entriesAhead, mergeStep_esm]
    rcases hone with hup | hup | hup
    · obtain ⟨hc, hlt⟩ := upF hup
      exact ⟨.inl hc, by omega⟩
    · obtain ⟨hc, hlt⟩ := upS hup
      exact ⟨.inr (.inl hc), by omega⟩
    · obtain ⟨hc, hlt⟩ := upD hup
      exact ⟨.inr (.inr hc), by omega⟩
  have hfits : s.tl.total.toNat + m.toNat < 2 ^ 32 := by
    obtain ⟨hc | hc | hc, -⟩ := hreached
    · exact hc ▸ (consumed_le_totalDur atF.sound).trans_lt hfit.faceSum
    · exact hc ▸ (consumed_le_totalDur atS.sound).trans_lt hfit.stickSum
    · exact hc ▸ (consumed_le_totalDur atD.sound).trans_lt hfit.dpadSum
  have htotal : (mergeStep c s).tl.total.toNat = s.tl.total.toNat + m.toNat := by
    rw [total, BitVec.toNat_add, Nat.mod_eq_of_lt hfits]
  rw [dur]
  refine ⟨⟨?_, ?_, ?_, ?_⟩, htotal, count, valid, ended, hreached.2⟩
  all_goals rw [htotal, mergeStep_esm]
  · exact atF
  · exact atS
  · exact atD
  · exact hreached.1

/-- Under `TL_STOP = ALL` a walk ends where all three streams are exhausted, and `TL_TOTAL` is the largest sum. -/
theorem OnWalk.total_of_over {s : State} (h : OnWalk s)
    (hover : tlOver engine (currentFace s).isNone (currentStick s).isNone (currentDpad s).isNone = true) :
    s.tl.total.toNat =
      max (totalDur (faceDurs s.esm)) (max (totalDur (stickDurs s.esm)) (totalDur (dpadDurs s.esm))) := by
  have hall : ((currentFace s).isNone && (currentStick s).isNone && (currentDpad s).isNone) = true := hover
  simp only [Bool.and_eq_true, Option.isNone_iff_eq_none] at hall
  obtain ⟨⟨hF, hS⟩, hD⟩ := hall
  have sumF := consumed_exhausted h.face.sound (by rw [List.getElem?_map]; exact congrArg _ hF)
  have sumS := consumed_exhausted h.stick.sound (by rw [List.getElem?_map]; exact congrArg _ hS)
  have sumD := consumed_exhausted h.dpad.sound (by rw [List.getElem?_map]; exact congrArg _ hD)
  have leF := h.face.consumed_le
  have leS := h.stick.consumed_le
  have leD := h.dpad.consumed_le
  have hreached := h.reached
  omega

/-! ## The whole walk -/

/-- A walk from `s` whose end is found after `k` entries. -/
structure WalkOf (k : Nat) (s : State) : Prop where
  entry : ∀ j, j < k → (mergeSteps engine (j + 1) s).tl.valid = true ∧ (mergeSteps engine (j + 1) s).tl.ended = false
  ended : (mergeSteps engine (k + 1) s).tl.ended = true
  count : (mergeSteps engine (k + 1) s).tl.count = s.tl.count + BitVec.ofNat 32 k
  durations : s.tl.total.toNat + ((List.range k).map fun j => (mergeSteps engine (j + 1) s).tl.dur.toNat).sum =
    (mergeSteps engine (k + 1) s).tl.total.toNat
  total : (mergeSteps engine (k + 1) s).tl.total.toNat =
    max (totalDur (faceDurs s.esm)) (max (totalDur (stickDurs s.esm)) (totalDur (dpadDurs s.esm)))

/-- A walk ends: every entry uses up an entry of a stream (R157). -/
theorem OnWalk.ends {s : State} (h : OnWalk s) (hfit : StreamsFit s.esm) : ∃ k, k ≤ entriesAhead s ∧ WalkOf k s := by
  induction hn : entriesAhead s using Nat.strong_induction_on generalizing s with
  | _ n ih =>
    subst hn
    cases hover : tlOver engine (currentFace s).isNone (currentStick s).isNone (currentDpad s).isNone with
    | true =>
      have hlast : mergeSteps engine 1 s = _ := mergeStep_over engine s hover
      refine ⟨0, Nat.zero_le _, fun j hj => absurd hj (Nat.not_lt_zero j), ?_, ?_, ?_, ?_⟩
      all_goals rw [hlast]
      · rfl
      · exact (BitVec.add_zero _).symm
      · rfl
      · exact h.total_of_over hover
    | false =>
      obtain ⟨hwalk, htotal, hcount, hvalid, hended, hlt⟩ := h.entry hfit hover
      obtain ⟨k, hk, w⟩ := ih _ hlt hwalk (by rwa [mergeStep_esm]) rfl
      refine ⟨k + 1, by omega, fun j hj => ?_, w.ended, ?_, ?_, ?_⟩
      · cases j with
        | zero => exact ⟨hvalid, hended⟩
        | succ j => exact w.entry j (by omega)
      · refine w.count.trans ?_
        rw [hcount, BitVec.add_assoc, BitVec.ofNat_add, BitVec.add_comm 1]
        rfl
      · refine Eq.trans ?_ w.durations
        rw [List.range_succ_eq_map, List.map_cons, List.sum_cons, List.map_map, htotal, ← Nat.add_assoc]
        rfl
      · refine w.total.trans ?_
        rw [mergeStep_esm]

/-! ## `TL.ALL` (R69, R150) -/

/-- The repetition of `TL.ALL` on a walk of `k` entries. -/
theorem tlAllLoop_eq {s : State} {k n : Nat} (hvalid : s.esm.esValid = true)
    (hentry : ∀ j, j < k → (mergeSteps engine (j + 1) s).tl.ended = false)
    (hended : (mergeSteps engine (k + 1) s).tl.ended = true) (hn : k < n) :
    tlAllLoop n s =
      some ((List.range k).map fun j => (mergeSteps engine (j + 1) s).readEntry, mergeSteps engine (k + 1) s) := by
  obtain ⟨n, rfl⟩ : ∃ m, n = m + 1 := ⟨n - 1, by omega⟩
  rw [tlAllLoop_succ hvalid]
  induction k generalizing s n with
  | zero => exact if_pos hended
  | succ k ih =>
    obtain ⟨n, rfl⟩ : ∃ m, n = m + 1 := ⟨n - 1, by omega⟩
    have hvalid' : (mergeStep engine s).esm.esValid = true := by rwa [mergeStep_esm]
    have hfirst : (mergeStep engine s).tl.ended = false := hentry 0 (Nat.succ_pos k)
    rw [if_neg (by rw [hfirst]; decide), tlAllLoop_succ hvalid',
      ih hvalid' (fun j hj => hentry (j + 1) (Nat.succ_lt_succ hj)) hended n (Nat.lt_of_succ_lt_succ hn),
      List.range_succ_eq_map, List.map_cons, List.map_map]
    rfl

theorem execList_tlNext {s : State} (h : s.esm.esValid = true) (n : Nat) :
    execList (List.replicate n .tlNext) s = .next (mergeSteps engine n s) := by
  induction n generalizing s with
  | zero => rfl
  | succ n ih =>
    rw [List.replicate_succ, execList_cons _ (exec_tlNext h), ih (by rwa [mergeStep_esm])]
    rfl

/-- Merge steps after a restart write the merger alone. -/
theorem mergeSteps_writes (c : Config) (s : State) (m : Merger) (n : Nat) :
    ∃ m', mergeSteps c n (succeed { s with tl := m }) = succeed { s with tl := m' } := by
  induction n generalizing m with
  | zero => exact ⟨m, rfl⟩
  | succ n ih =>
    obtain ⟨m', heq, -⟩ := mergeStep_writes c (succeed { s with tl := m })
    rw [mergeSteps, heq]
    exact ih m'

theorem onWalk_restart {s : State} (h : s.tl = {}) : OnWalk s := by
  constructor
  all_goals rw [h]
  · exact cursorAt_start _
  · exact cursorAt_start _
  · exact cursorAt_start _
  · exact .inl (consumed_start _)

/-- The duration read with an entry is `TL_DUR`. -/
theorem readEntry_dur (s : State) : (s.readEntry.getD 4 0).toNat = s.tl.dur.toNat := zeroExtend64_toNat s.tl.dur

/-- The streams of a sound decoder whose sums fit. -/
theorem StreamsSound.fit {m : Esm} (h : StreamsSound m) (hF : totalDur (faceDurs m) < 2 ^ 32)
    (hS : totalDur (stickDurs m) < 2 ^ 32) (hD : totalDur (dpadDurs m) < 2 ^ 32) : StreamsFit m := by
  obtain ⟨lenF, lenS, lenD, -, -⟩ := h
  refine ⟨?_, ?_, ?_, hF, hS, hD⟩
  all_goals rw [List.length_map]
  · exact lenF.trans_lt m.cntF.isLt
  · exact lenS.trans_lt m.cntS.isLt
  · exact lenD.trans_lt m.cntD.isLt

/-- Settles O60: the walk from the restart ends, and the repetition reads out its entries. -/
theorem allReadsWholeTimeline : Obligations.AllReadsWholeTimeline := by
  intro s hvalid hsound hF hS hD
  have hfit : StreamsFit s.esm := StreamsSound.fit hsound hF hS hD
  have hrestart : exec .tlRestart s = .next (succeed { s with tl := {} }) := congrArg Host.Outcome.next (if_pos hvalid)
  obtain ⟨k, hk, w⟩ := (onWalk_restart (s := succeed { s with tl := {} }) rfl).ends hfit
  have hk : k ≤ s.esm.face.length + s.esm.stick.length + s.esm.dpad.length := by
    simpa [entriesAhead, entriesLeft] using hk
  have lenF := hfit.faceLen
  have lenS := hfit.stickLen
  have lenD := hfit.dpadLen
  rw [List.length_map] at lenF lenS lenD
  refine ⟨_, mergeSteps engine (k + 1) (succeed { s with tl := {} }),
    (List.range k).map fun j => (mergeSteps engine (j + 1) (succeed { s with tl := {} })).readEntry, hrestart, ?_⟩
  rw [List.length_map, List.length_range]
  obtain ⟨m, heq⟩ := mergeSteps_writes engine s {} (k + 1)
  refine ⟨?_, ?_, ?_, ?_, rfl, w.ended, ?_, fun j hj => ?_, ?_, w.total⟩
  · rw [tlAll, hrestart]
    exact tlAllLoop_eq hvalid (fun j hj => (w.entry j hj).2) w.ended (Nat.lt_succ_of_le hk)
  · rw [heq]
    exact ⟨⟨rfl, rfl, rfl, rfl, rfl, fun sp a => by cases sp <;> rfl, rfl, rfl⟩, rfl⟩
  · rw [heq]
    exact ⟨rfl, rfl, rfl⟩
  · exact (execList_cons _ hrestart).trans 
      (execList_tlNext (s := succeed { s with tl := {} }) hvalid _)
  · rw [w.count]
    exact (congrArg BitVec.toNat (BitVec.zero_add _)).trans (Nat.mod_eq_of_lt (by omega))
  · refine ⟨(w.entry j hj).1, (w.entry j hj).2, ?_⟩
    rw [List.getElem?_map, List.getElem?_range hj]
    rfl
  · rw [List.map_map, ← w.durations]
    refine Eq.trans ?_ (Nat.zero_add _).symm
    simp only [Function.comp_def, readEntry_dur]

end Sys2Proof.Machine
end

section
/-! PROOFS. What a step and an instruction answer (spec/30_encoding.md R66, spec/60_exceptions.md R236, R240). -/

namespace Sys2Proof.Machine

open Sys2Proof

theorem highHalf_toNat (cmd : Command) : (highHalf cmd).toNat = cmd.toNat / 2 ^ 32 := by
  have := cmd.isLt
  rw [highHalf, BitVec.extractLsb'_toNat, Nat.shiftRight_eq_div_pow, Nat.mod_eq_of_lt (by omega)]

/-- Settles O8: the step of an illegal word is the raise alone. -/
theorem illegalWordRaisesOnly : Obligations.IllegalWordRaisesOnly := by
  intro s cmd rest e hsettled hissues hdecode
  refine ⟨_, step_issue_error hsettled hissues hdecode, ⟨rfl, ?_, rfl⟩,
    ⟨rfl, rfl, rfl, rfl, rfl, rfl, rfl, fun sp a => by cases sp <;> rfl, rfl, rfl⟩⟩
  rw [raise_rep, raised_einfo, BitVec.toNat_ofNat, highHalf_toNat]

/-- Settles O51. -/
theorem everyInstructionAnswersNext : Obligations.EveryInstructionAnswersNext := exec_answers

end Sys2Proof.Machine
end

section
/-! PROOFS. BFX (spec/40_bitfield.md): what `BF.LOAD` puts into `W`, what the reads take from it, and the shifts. -/

namespace Sys2Proof.Machine

open Sys2Proof

/-! ## What the commands leave unchanged -/

/-- A command that replaces BFX and the error registers changes nothing else. -/
theorem onlyBfx_update (s : State) (b : Bfx) (r : Report) : OnlyBfx s { s with bfx := b, rep := r } :=
  ⟨rfl, rfl, rfl, rfl, rfl, rfl, fun sp _ => by cases sp <;> rfl, rfl, rfl⟩

/-- A raise without clean-up changes the error registers alone. -/
theorem onlyReport_raise (e : ErrCode) (info : Nat) (s : State) : OnlyReport s (raise e info s) :=
  ⟨rfl, rfl, rfl, rfl, rfl, rfl, rfl, fun sp _ => by cases sp <;> rfl, rfl, rfl⟩

/-- The error registers after a raise (R231 steps 2 to 4). -/
theorem raisedAs_raise (e : ErrCode) (info : Nat) (s : State) :
    RaisedAs (errCode e) (stickyBit e) info s (raise e info s) :=
  ⟨rfl, by rw [raise_rep, raised_einfo, BitVec.toNat_ofNat], rfl⟩

/-- A read command: `RES` holds the value read, `W` and `WN` stay (R89). -/
theorem read_answers {i : Instr} {s : State} {v : BitVec 32} {n : Nat} (hexec : exec i s = .next (writeRes v s))
    (hv : v.toNat = n) :
    ∃ t, exec i s = .next t ∧ t.bfx.res.toNat = n ∧ t.bfx.w = s.bfx.w ∧ t.bfx.wn = s.bfx.wn ∧ Succeeded s t ∧
      OnlyBfx s t :=
  ⟨_, hexec, hv, rfl, rfl, ⟨rfl, rfl, rfl⟩, onlyBfx_update _ _ _⟩

/-- A shift: `W` holds the shifted word, `WN` and `RES` stay (R85, R86). -/
theorem shift_answers {i : Instr} {s : State} {v : BitVec 32} {n : Nat} (hexec : exec i s = .next (writeW v s))
    (hv : v.toNat = n) :
    ∃ t, exec i s = .next t ∧ t.bfx.w.toNat = n ∧ t.bfx.wn = s.bfx.wn ∧ t.bfx.res = s.bfx.res ∧ Succeeded s t ∧
      OnlyBfx s t :=
  ⟨_, hexec, hv, rfl, rfl, ⟨rfl, rfl, rfl⟩, onlyBfx_update _ _ _⟩

/-! ## The three outcomes of `BF.LOAD` (R81) -/

theorem bfLoad_badCount {n : BitVec 3} (h : n.toNat < 1 ∨ 4 < n.toNat) (sp : Sp) (addr : BitVec 32) (s : State) :
    bfLoad sp n addr s = raise .illegal (highHalf (command 0x10 (spaceBit sp ++ 0#20 ++ n) addr)).toNat s :=
  if_pos h

theorem bfLoad_short {sp : Sp} {n : BitVec 3} {addr : BitVec 32} {s : State} (h1 : 1 ≤ n.toNat) (h4 : n.toNat ≤ 4)
    (h : (s.space sp).len < addr.toNat + n.toNat) : bfLoad sp n addr s = raise .bfTrunc addr.toNat s :=
  (if_neg (by omega)).trans (if_pos h)

theorem bfLoad_inside {sp : Sp} {n : BitVec 3} {addr : BitVec 32} {s : State} (h1 : 1 ≤ n.toNat) (h4 : n.toNat ≤ 4)
    (h : addr.toNat + n.toNat ≤ (s.space sp).len) :
    bfLoad sp n addr s =
      succeed { s with bfx := { s.bfx with w := normWord ((s.space sp).readList addr.toNat n.toNat), wn := n } } :=
  (if_neg (by omega)).trans (if_neg (by omega))

/-- The upper half of the word that encodes a load (R60, R61): opcode, space bit and count. -/
theorem highHalf_load (sp : Sp) (n : BitVec 3) (addr : BitVec 32) :
    (highHalf (command 0x10 (spaceBit sp ++ 0#20 ++ n) addr)).toNat =
      0x10 * 2 ^ 24 + (if sp = .output then 2 ^ 23 else 0) + n.toNat := by
  have hspace : (spaceBit sp).toNat * 2 ^ 23 = if sp = .output then 2 ^ 23 else 0 := by cases sp <;> rfl
  have haddr := addr.isLt
  simp only [highHalf_toNat, command, append_toNat, BitVec.ofNat_eq_ofNat, BitVec.toNat_ofNat]
  omega

/-- Settles O16: neither raise has a clean-up. -/
theorem loadErrorsChangeNothing : Obligations.LoadErrorsChangeNothing := by
  intro s sp n addr
  refine ⟨fun hcount => ⟨_, congrArg Host.Outcome.next (bfLoad_badCount hcount sp addr s), ?_, onlyReport_raise _ _ s⟩,
    fun h1 h4 hshort => ⟨_, congrArg Host.Outcome.next (bfLoad_short h1 h4 hshort), raisedAs_raise _ _ s,
      onlyReport_raise _ _ s⟩⟩
  rw [highHalf_load]
  exact raisedAs_raise .illegal _ s

/-- Settles O15: `W` is the big-endian value of the bytes read. -/
theorem loadNormalisesBytes : Obligations.LoadNormalisesBytes := by
  intro s sp n addr h1 h4 hinside
  refine ⟨_, congrArg Host.Outcome.next (bfLoad_inside h1 h4 hinside), ?_, rfl, rfl, ⟨rfl, rfl, rfl⟩,
    onlyBfx_update _ _ _⟩
  exact (normWord_toNat _ ((readList_length ..).trans_le h4)).trans (bigEndian_readList ..)

/-! ## Bytes and bits of a normalised word (R80, R91) -/

/-- Byte `j` of the loaded bytes stands at bit `8 * (n - 1 - j)` of the word. -/
theorem normWord_byte {bytes : List Byte} (h4 : bytes.length ≤ 4) {j : Nat} (hj : j < bytes.length) :
    (normWord bytes).toNat / 2 ^ (8 * (bytes.length - 1 - j)) % 2 ^ 8 = (bytes.getD j 0).toNat := by
  rw [normWord_toNat bytes h4, Nat.pow_mul]
  exact bigEndian_digit bytes j hj

/-- A bit of a byte of a word is a bit of the word. -/
theorem bit_of_byte {w : BitVec 32} {v : Byte} {a k : Nat} (hv : w.toNat / 2 ^ a % 2 ^ 8 = v.toNat) (hk : k < 8) :
    w.toNat / 2 ^ (a + k) % 2 = 1 ↔ v.getLsbD k = true := by
  rw [BitVec.getLsbD, ← hv, Nat.testBit_mod_two_pow, Nat.testBit_div_two_pow, Nat.testBit_eq_decide_div_mod_eq]
  simp [hk, Nat.add_comm]

theorem bitOf_eq_one_iff (w : BitVec 32) {idx : Nat} (h : idx < 32) :
    bitOf w idx = 1 ↔ w.toNat / 2 ^ idx % 2 = 1 := by
  rw [← BitVec.toNat_inj, bitOf_toNat, if_pos h]
  rfl

/-- Settles O19: byte `j` of the loaded bytes is the digit of `W` that `BF.BYTE` takes, and its bits are bits of `W`. -/
theorem loadThenReadGivesBytesBack : Obligations.LoadThenReadGivesBytesBack := by
  intro s t sp n addr j h1 h4 hj hinside hload
  obtain rfl : bfLoad sp n addr s = t := Host.Outcome.next.inj hload
  have hlen : ((s.space sp).readList addr.toNat n.toNat).length = n.toNat := readList_length ..
  have hbyte : (bfLoad sp n addr s).bfx.w.toNat / 2 ^ (8 * (n.toNat - 1 - j)) % 2 ^ 8 =
      (s.byteAt sp (addr.toNat + j)).toNat := by
    have h := normWord_byte (hlen.trans_le h4) (hj.trans_eq hlen.symm)
    rw [hlen, readList_getD _ _ _ _ hj] at h
    rw [bfLoad_inside h1 h4 hinside]
    exact h
  refine ⟨⟨_, rfl, ?_⟩, fun k hk => ⟨_, rfl, ?_⟩⟩
  · rw [← hbyte, writeRes_bfx, BitVec.toNat_ofNat, Nat.mod_eq_of_lt (by omega)]
    refine (byteOfWord_toNat _ _).trans ?_
    rw [if_pos (by omega), show 24 - 8 * (4 - n.toNat + j) = 8 * (n.toNat - 1 - j) by omega]
  · rw [writeRes_bfx, BitVec.toNat_ofNat, Nat.mod_eq_of_lt (by omega)]
    exact (bitOf_eq_one_iff _ (by omega)).trans (bit_of_byte hbyte hk)

/-! ## The reads (R82 to R84, R87) -/

/-- The encodings of the four reads (R61); that of `BF.FIELD` differs from the row's in where the brackets stand. -/
theorem encode_reads (idx : BitVec 32) (lo wid : BitVec 8) :
    encode (.bfBit idx) = .command (0x11#8 ++ 0#24 ++ idx) ∧ encode (.bfByte idx) = .command (0x12#8 ++ 0#24 ++ idx) ∧
    encode (.bfWord idx) = .command (0x13#8 ++ 0#24 ++ idx) ∧
    encode (.bfField lo wid) = .command (0x16#8 ++ 0#8 ++ wid ++ lo ++ 0#32) := by
  refine ⟨rfl, rfl, rfl, congrArg Encoded.command (BitVec.eq_of_toNat_eq ?_)⟩
  simp only [command, append_toNat, BitVec.ofNat_eq_ofNat, BitVec.toNat_ofNat]
  omega

/-- Settles O17: each read writes the value of its operand form. -/
theorem readsExtractFromWord : Obligations.ReadsExtractFromWord :=
  ⟨encode_reads, fun s => ⟨fun idx => read_answers rfl (bitOf_toNat s.bfx.w idx.toNat),
    fun idx => read_answers rfl (byteOfWord_toNat s.bfx.w idx.toNat),
    fun idx => read_answers rfl (halfOfWord_toNat s.bfx.w idx.toNat),
    fun lo wid => read_answers rfl (fieldOf_toNat s.bfx.w lo.toNat wid.toNat)⟩⟩

/-! ## The shifts (R85, R86) -/

/-- Settles O18: each shift writes the value of its operand form. -/
theorem shiftsMoveWord : Obligations.ShiftsMoveWord := fun s d =>
  ⟨rfl, rfl, shift_answers rfl (shiftLeft_toNat s.bfx.w d.toNat), shift_answers rfl (shiftRight_toNat s.bfx.w d.toNat)⟩

/-- The cut at distance 32 is what a shift of 32 bits does by itself. -/
theorem shiftLeft_eq (w : BitVec 32) (d : Nat) : shiftLeft w d = w <<< d := by
  unfold shiftLeft
  split
  · rfl
  · exact (BitVec.shiftLeft_eq_zero (by omega)).symm

theorem shiftRight_eq (w : BitVec 32) (d : Nat) : shiftRight w d = w >>> d := by
  unfold shiftRight
  split
  · rfl
  · exact (BitVec.ushiftRight_eq_zero (by omega)).symm

theorem shiftLeft_shiftLeft (w : BitVec 32) (a b : Nat) : shiftLeft (shiftLeft w a) b = shiftLeft w (a + b) := by
  simp only [shiftLeft_eq, BitVec.shiftLeft_add]

theorem shiftRight_shiftRight (w : BitVec 32) (a b : Nat) : shiftRight (shiftRight w a) b = shiftRight w (a + b) := by
  simp only [shiftRight_eq, BitVec.shiftRight_add]

/-- Up and down again by one distance clears the bits that fell off. -/
theorem shiftRight_shiftLeft_toNat (w : BitVec 32) (d : Nat) :
    (shiftRight (shiftLeft w d) d).toNat = w.toNat % 2 ^ (32 - min d 32) := by
  rw [shiftRight_toNat, shiftLeft_toNat]
  by_cases hd : d < 32
  · have hsplit : 2 ^ 32 = 2 ^ (32 - d) * 2 ^ d := by rw [← Nat.pow_add, Nat.sub_add_cancel hd.le]
    rw [if_pos hd, if_pos hd, hsplit, Nat.mul_mod_mul_right, Nat.mul_div_cancel _ (Nat.two_pow_pos d),
      Nat.min_eq_left hd.le]
  · rw [if_neg hd, Nat.min_eq_right (Nat.not_lt.mp hd), Nat.sub_self, Nat.pow_zero, Nat.mod_one]

/-- Of two writes of `W` the second stands. -/
theorem writeW_writeW (v w : BitVec 32) (s : State) : writeW w (writeW v s) = writeW w s := rfl

/-- Settles O20: `W` is shifted by the sum, and every other register is written by the second shift as by one alone. -/
theorem shiftsCompose : Obligations.ShiftsCompose := by
  refine ⟨fun s t u v a b hsum ht hu hv => ?_, fun s t u v a b hsum ht hu hv => ?_, fun s t u d ht hu => ?_⟩
  · cases ht; cases hu; cases hv
    rw [writeW_writeW, writeW_bfx, shiftLeft_shiftLeft, BitVec.toNat_add_of_lt hsum]
  · cases ht; cases hu; cases hv
    rw [writeW_writeW, writeW_bfx, shiftRight_shiftRight, BitVec.toNat_add_of_lt hsum]
  · cases ht; cases hu
    exact shiftRight_shiftLeft_toNat s.bfx.w d.toNat

/-! ## The other reading of a chunk (R90) -/

/-- After a fresh load chunk `j` is loaded byte `j`, 0 from the number of bytes on. -/
theorem byteOfSource_normWord {bytes : List Byte} (h4 : bytes.length ≤ 4) (j : Nat) :
    (byteOfSource (normWord bytes) bytes.length j).toNat = (bytes.getD j 0).toNat := by
  rw [byteOfSource_toNat]
  split
  · exact normWord_byte h4 ‹_›
  · rw [List.getD_eq_default _ _ (Nat.not_lt.mp ‹_›)]
    rfl

theorem byteOfSource_lt (w : BitVec 32) (wn idx : Nat) : (byteOfSource w wn idx).toNat < 256 := by
  rw [byteOfSource_toNat]
  split <;> omega

/-- Two bytes put side by side, as a number. -/
theorem shiftLeft_or_toNat {x y : BitVec 32} (hx : x.toNat < 256) (hy : y.toNat < 256) :
    (x <<< 8 ||| y).toNat = x.toNat * 256 + y.toNat := by
  have hfit : x.toNat <<< 8 % 2 ^ 32 = x.toNat <<< 8 := Nat.mod_eq_of_lt (by rw [Nat.shiftLeft_eq]; omega)
  rw [BitVec.toNat_or, BitVec.toNat_shiftLeft, hfit, ← Nat.shiftLeft_add_eq_or_of_lt hy, Nat.shiftLeft_eq]

/-- The half of the other reading: two chunks, the first one above (R90). -/
theorem wordChunk_source {c : Config} (hc : c.chunkOrigin = .source) (b : Bfx) (j : Nat) :
    (wordChunk c b j).toNat =
      (byteOfSource b.w b.wn.toNat (2 * j)).toNat * 256 + (byteOfSource b.w b.wn.toNat (2 * j + 1)).toNat := by
  rw [wordChunk, hc]
  exact shiftLeft_or_toNat (byteOfSource_lt ..) (byteOfSource_lt ..)

theorem byteChunk_source {c : Config} (hc : c.chunkOrigin = .source) (b : Bfx) (j : Nat) :
    byteChunk c b j = byteOfSource b.w b.wn.toNat j := by
  rw [byteChunk, hc]

/-- With four bytes loaded the loaded bytes are the whole word. -/
theorem byteOfSource_four (w : BitVec 32) (j : Nat) : byteOfSource w 4 j = byteOfWord w j := by
  unfold byteOfSource byteOfWord
  rw [show 8 * (4 - 1 - j) = 24 - 8 * j by omega]

/-- A half of the word is its two bytes side by side. -/
theorem halfOfWord_bytes (w : BitVec 32) (j : Nat) :
    (halfOfWord w j).toNat = (byteOfWord w (2 * j)).toNat * 256 + (byteOfWord w (2 * j + 1)).toNat := by
  have hw := w.isLt
  rw [halfOfWord_toNat, byteOfWord_toNat, byteOfWord_toNat]
  match j with
  | 0 =>
    change w.toNat / 2 ^ 16 = w.toNat / 2 ^ 24 % 2 ^ 8 * 256 + w.toNat / 2 ^ 16 % 2 ^ 8
    omega
  | 1 =>
    change w.toNat % 2 ^ 16 = w.toNat / 2 ^ 8 % 2 ^ 8 * 256 + w.toNat / 2 ^ 0 % 2 ^ 8
    omega
  | j + 2 => rw [if_neg (by omega), if_neg (by omega), if_neg (by omega), if_neg (by omega)]

/-- Settles O21: a chunk is a digit of the word; four bytes fill the word. -/
theorem sourceOriginCountsLoadedBytes : Obligations.SourceOriginCountsLoadedBytes := by
  intro c bytes res hc _ h4 b
  have hwn : b.wn.toNat = bytes.length := Nat.mod_eq_of_lt (by omega)
  refine ⟨fun j => ?_, fun j => ?_, fun hfour j => ⟨?_, BitVec.eq_of_toNat_eq ?_⟩⟩
  · rw [byteChunk_source hc, hwn]
    exact byteOfSource_normWord h4 j
  · rw [wordChunk_source hc, hwn]
    exact congrArg₂ (· * 256 + ·) (byteOfSource_normWord h4 _) (byteOfSource_normWord h4 _)
  · rw [byteChunk_source hc, hwn, hfour, byteOfSource_four]
  · rw [wordChunk_source hc, hwn, hfour, byteOfSource_four, byteOfSource_four, halfOfWord_bytes]

end Sys2Proof.Machine
end

section
/-! PROOFS. The decompressor (spec/41_lz_decompressor.md): how a whole run ends, the errors of its header, and that it is
its own token cycle run step by step. -/

namespace Sys2Proof.Machine

open Sys2Proof

/-! ## Frames and error registers -/

theorem raisedAs_of_rep {e : ErrCode} {info : Nat} {s t : State} (h : t.rep = s.rep.raised e info) :
    RaisedAs (errCode e) (stickyBit e) info s t := by
  rw [RaisedAs, h]
  exact raisedAs_raise e info s

/-- A `RaisedAs` that gives back the `EINFO` register itself. -/
theorem raisedAs_einfo {e : ErrCode} {info : Nat} {s t : State} (h : t.rep = s.rep.raised e info) :
    RaisedAs (errCode e) (stickyBit e) t.rep.einfo.toNat s t := by
  obtain ⟨herr, -, hsticky⟩ := raisedAs_of_rep h
  exact ⟨herr, (Nat.mod_eq_of_lt t.rep.einfo.isLt).symm, hsticky⟩

theorem LzFrame.onlyLzd {s t : State} (f : LzFrame s t) : OnlyLzd s t :=
  ⟨f.inp, f.bfx, f.esm, f.tl, f.tca, f.host, fun a => congrArg (Space.read · a) f.inp⟩

theorem onlyLzd_of_update {s t : State} (h : t = { s with lzd := t.lzd, rep := t.rep }) : OnlyLzd s t := by
  rw [h]
  exact ⟨rfl, rfl, rfl, rfl, rfl, rfl, fun _ => rfl⟩

/-! ## How a run ends (R112, R113) -/

/-- The code and the `STICKY` bit of each error of LZD stand in the statement's list (R230). -/
theorem lzErrors_listed {e : ErrCode} (h : e ∈ lzErrors) :
    (errCode e, stickyBit e) ∈
      ([(0x21, 2), (0x22, 3), (0x23, 4), (0x24, 5), (0x25, 6)] : List (BitVec 8 × Nat)) := by
  revert e
  decide

/-- Settles O22: a run succeeds or is aborted with one of LZD's errors. -/
theorem runEndsDoneOrFailed : Obligations.RunEndsDoneOrFailed := by
  intro s addr len
  obtain ⟨heq, hend⟩ := lzRun_outcome addr len s
  refine ⟨_, rfl, onlyLzd_of_update heq, hend.imp (fun d => ?_) (fun a => ?_)⟩
  · refine ⟨d.st, d.outValid, d.size, ?_⟩
    rw [Succeeded, d.rep]
    exact ⟨rfl, rfl, rfl⟩
  · obtain ⟨e, he, info, hr⟩ := a.rep
    exact ⟨a.st, a.outValid, congrArg Space.len a.out, _, lzErrors_listed he, raisedAs_einfo hr⟩

/-! ## The token cycle, one equation per outcome of its first three rules (R104 to R106) -/

theorem lzCycle_atSize {s : State} (hsize : s.lzd.out.len = s.lzd.decl.toNat) (c : Config) :
    lzCycle c s = lzSucceed s := by
  rw [lzCycle, lzFetch, if_pos hsize]

theorem lzCycle_noControl {s : State} (hsize : s.lzd.out.len ≠ s.lzd.decl.toNat) (hnbits : s.lzd.nbits = 0)
    (hsrc : s.lzd.stop.toNat ≤ s.lzd.src.toNat) (c : Config) : lzCycle c s = lzFailHere .lzTrunc s := by
  rw [lzCycle, lzFetch, if_neg hsize, if_pos ⟨hnbits, hsrc⟩]

theorem lzCycle_token {s : State} (hsize : s.lzd.out.len ≠ s.lzd.decl.toNat)
    (hbit : s.lzd.nbits = 0 → s.lzd.src.toNat < s.lzd.stop.toNat) (c : Config) :
    lzCycle c s =
      lzToken c (lzRefill s).lzd.ctl.msb (lzPeek (lzTakeBit (lzRefill s)) 0) (lzPeek (lzTakeBit (lzRefill s)) 1)
        (lzPeek (lzTakeBit (lzRefill s)) 2) (lzTakeBit (lzRefill s)) := by
  rw [lzCycle, lzFetch_token hsize hbit]

/-- All that a token cycle can come to, from any state. -/
theorem lzCycle_outcome (c : Config) (s : State) :
    lzCycle c s = lzSucceed s ∨ lzCycle c s = lzFailHere .lzTrunc s ∨
      ∃ bit b1 b2 b3, lzCycle c s = lzToken c bit b1 b2 b3 (lzTakeBit (lzRefill s)) := by
  by_cases hsize : s.lzd.out.len = s.lzd.decl.toNat
  · exact .inl (lzCycle_atSize hsize c)
  by_cases hctl : s.lzd.nbits = 0 ∧ s.lzd.stop.toNat ≤ s.lzd.src.toNat
  · exact .inr (.inl (lzCycle_noControl hsize hctl.1 hctl.2 c))
  · exact .inr (.inr ⟨_, _, _, _, lzCycle_token hsize (fun h0 => Nat.lt_of_not_le fun hle => hctl ⟨h0, hle⟩) c⟩)

/-! ## The declared size through the token cycles: only the header writes `LZ_DECL` (R103) -/

@[simp] theorem lzCopy_decl (k : Nat) (s : State) : (lzCopy k s).lzd.decl = s.lzd.decl := by
  induction k generalizing s with
  | zero => rfl
  | succ k ih =>
    rw [lzCopy]
    split
    · rfl
    · exact ih (lzCopyByte s)

@[simp] theorem lzBackref_decl (s : State) : (lzBackref s).lzd.decl = s.lzd.decl := by
  unfold lzBackref
  split
  · rfl
  · exact lzCopy_decl _ _

@[simp] theorem lzLit_decl (v : Byte) (s : State) : (lzLit v s).lzd.decl = s.lzd.decl := by
  unfold lzLit
  split <;> rfl

@[simp] theorem lzRef_decl (c : Config) (n : BitVec 4) (d : BitVec 12) (s : State) :
    (lzRef c n d s).lzd.decl = s.lzd.decl := by
  unfold lzRef
  split
  · rfl
  · exact lzBackref_decl _

@[simp] theorem lzRefx_decl (c : Config) (d : BitVec 12) (l : Byte) (s : State) :
    (lzRefx c d l s).lzd.decl = s.lzd.decl := by
  unfold lzRefx
  split
  · rfl
  · dsimp only
    split
    · rfl
    · exact lzBackref_decl _

@[simp] theorem lzToken_decl (c : Config) (bit : Bool) (b1 b2 b3 : Byte) (s : State) :
    (lzToken c bit b1 b2 b3 s).lzd.decl = s.lzd.decl := by
  unfold lzToken
  split
  · exact lzLit_decl _ _
  · split
    · exact lzRefx_decl _ _ _ _
    · exact lzRef_decl _ _ _ _

@[simp] theorem lzRefill_decl (s : State) : (lzRefill s).lzd.decl = s.lzd.decl := by unfold lzRefill; split <;> rfl

@[simp] theorem lzCycle_decl (c : Config) (s : State) : (lzCycle c s).lzd.decl = s.lzd.decl := by
  obtain h | h | ⟨bit, b1, b2, b3, h⟩ := lzCycle_outcome c s
  · rw [h, lzSucceed_lzd]
  · rw [h, lzFailHere_lzd]
  · rw [h, lzToken_decl, lzTakeBit_lzd]
    exact lzRefill_decl s

@[simp] theorem lzLoop_decl (c : Config) (k : Nat) (s : State) : (lzLoop c k s).lzd.decl = s.lzd.decl := by
  induction k generalizing s with
  | zero => rfl
  | succ k ih =>
    rw [lzLoop]
    split
    · rw [ih, lzCycle_decl]
    · rfl

/-! ## The errors of start and header (R102, R103) -/

/-- A run that start or header ended goes on to no token: its error and a cursor that has not moved are what is left. -/
theorem lzRun_of_unbegun {addr : BitVec 32} {len : BitVec 23} {s : State} {e : ErrCode} {info : Nat}
    (hbase : (lzBegin engine addr len s).lzd.base = addr) (h : LzUnbegun addr (lzBegin engine addr len s))
    (hr : (lzBegin engine addr len s).rep = s.rep.raised e info) :
    RaisedAs (errCode e) (stickyBit e) info s (lzRun engine addr len s) ∧ (lzRun engine addr len s).lzUsed = 0 := by
  have hrun : lzRun engine addr len s = lzBegin engine addr len s := lzLoop_ended _ _ _ (by rw [h.st]; decide)
  have hused := lzUsed_toNat (s := lzBegin engine addr len s) (by rw [hbase, h.src])
  rw [hbase, h.src, Nat.sub_self] at hused
  rw [hrun]
  exact ⟨raisedAs_of_rep hr, BitVec.eq_of_toNat_eq hused⟩

/-- The declared size of a run whose header passed is the big-endian size field (R103 step 4). -/
theorem lzRun_decl {addr : BitVec 32} {len : BitVec 23} {s : State}
    (h : LzBegun engine addr s (lzBegin engine addr len s)) :
    (lzRun engine addr len s).lzd.decl.toNat =
      (s.byteAt .input (addr.toNat + 4)).toNat * 2 ^ 24 + (s.byteAt .input (addr.toNat + 5)).toNat * 2 ^ 16 +
        (s.byteAt .input (addr.toNat + 6)).toNat * 2 ^ 8 + (s.byteAt .input (addr.toNat + 7)).toNat := by
  rw [lzRun, lzLoop_decl, h.decl, bigEndian_readList]
  simp only [Finset.sum_range_succ, Finset.sum_range_zero, Nat.zero_add, Nat.add_assoc]
  simp [State.byteAt]

/-- Settles O24: start and header test in the statement's order, and no token cycle changes what they leave. -/
theorem runHeaderErrorsInOrder : Obligations.RunHeaderErrorsInOrder := by
  intro s addr len
  refine ⟨_, rfl, ?_⟩
  have hbody : engine.lzBodyOffset = 24 := rfl
  have hmagic : engine.lzMagic.toList = [0x59, 0x61, 0x7A, 0x31] := rfl
  have hbytes : s.inp.readList addr.toNat 4 =
      [s.byteAt .input addr.toNat, s.byteAt .input (addr.toNat + 1), s.byteAt .input (addr.toNat + 2),
        s.byteAt .input (addr.toNat + 3)] := rfl
  obtain ⟨-, -, -, -, -, -, hbase, -, h⟩ := lzBegin_cases engine addr len s (by decide)
  rw [hbytes, hmagic, hbody] at h
  by_cases hslice : s.inp.len < addr.toNat + len.toNat
  · rw [if_pos hslice] at h ⊢
    exact lzRun_of_unbegun hbase h.1 h.2
  rw [if_neg hslice] at h ⊢
  by_cases h4 : len.toNat < 4
  · rw [if_pos h4] at h ⊢
    exact lzRun_of_unbegun hbase h.1 h.2
  rw [if_neg h4] at h ⊢
  split
  case isTrue hne =>
    rw [if_pos hne] at h
    exact lzRun_of_unbegun hbase h.1 h.2
  case isFalse heq =>
    rw [if_neg heq] at h
    by_cases h24 : len.toNat < 24
    · rw [if_pos h24] at h ⊢
      split at h
      · exact lzRun_of_unbegun hbase h.1 h.2
      · exact lzRun_of_unbegun hbase h.1 h.2.1
    · rw [if_neg h24]
      refine lzRun_decl (lzBegun_of_header (by omega) (by omega) ?_)
      rw [hbytes, hmagic]
      exact not_not.mp heq

/-! ## A run as steps of the machine (R101, R114) -/

theorem lzSucceed_frame (s : State) : LzFrame s (lzSucceed s) := ⟨rfl, rfl, rfl, rfl, rfl, rfl, rfl, rfl⟩

theorem lzRefill_frame (s : State) : LzFrame s (lzRefill s) := by
  unfold lzRefill
  split
  · exact lzFrame_update s _ rfl rfl
  · exact LzFrame.refl s

theorem lzToken_frame (c : Config) (bit : Bool) (b1 b2 b3 : Byte) (s : State) :
    LzFrame s (lzToken c bit b1 b2 b3 s) := by
  unfold lzToken
  split
  · exact lzLit_frame _ _
  · split
    · exact lzRefx_frame _ _ _ _
    · exact lzRef_frame _ _ _ _

/-- The frame of a token cycle from any state: `lzCycle_cases` gives it inside a run only. -/
theorem lzCycle_frame (c : Config) (s : State) : LzFrame s (lzCycle c s) := by
  obtain h | h | ⟨bit, b1, b2, b3, h⟩ := lzCycle_outcome c s
  · rw [h]
    exact lzSucceed_frame s
  · rw [h]
    exact lzFailHere_frame _ _
  · have htake : LzFrame (lzRefill s) (lzTakeBit (lzRefill s)) := lzFrame_update _ _ rfl rfl
    rw [h]
    exact ((lzRefill_frame s).trans htake).trans (lzToken_frame _ _ _ _ _ _)

theorem core_run_succ {s t : State} (h : step s = .next t) (k : Nat) :
    Host.Core.run core (k + 1) s = Host.Core.run core k t := by
  have hstep : core.step s = .next t := h
  simp only [Host.Core.run, hstep]

/-- The loop of a run, with no decode in progress, is as many machine steps as it takes cycles. -/
theorem core_run_lzLoop (n : Nat) {s : State} (hbusy : s.esm.walk.busy = false) :
    ∃ k, k ≤ n ∧ Host.Core.run core k s = .next (lzLoop engine n s) := by
  induction n generalizing s with
  | zero => exact ⟨0, Nat.le_refl _, rfl⟩
  | succ n ih =>
    rw [lzLoop]
    split
    · rename_i hrun
      obtain ⟨k, hk, hsteps⟩ := ih (s := lzCycle engine s) (by rw [(lzCycle_frame engine s).esm, hbusy])
      exact ⟨k + 1, Nat.succ_le_succ hk, (core_run_succ (step_run hbusy hrun) k).trans hsteps⟩
    · exact ⟨0, Nat.zero_le _, rfl⟩

/-- Settles O29. -/
theorem runIsIteratedTokenCycles : Obligations.RunIsIteratedTokenCycles := by
  intro s addr len hbusy
  obtain ⟨heq, -⟩ := lzBegin_outcome addr len s
  have hesm : (lzBegin engine addr len s).esm = s.esm := by rw [heq]
  obtain ⟨k, hk, hsteps⟩ := core_run_lzLoop (len.toNat + 1) (s := lzBegin engine addr len s) (by rw [hesm, hbusy])
  exact ⟨k, _, rfl, hk, hsteps⟩

end Sys2Proof.Machine
end

section
/-! PROOFS. The tokens (spec/41_lz_decompressor.md R105 to R112): where each of them raises, and that a step inside a run
or a decode is the token or the record it meets. -/

namespace Sys2Proof.Machine

open Sys2Proof

/-! ## The control byte fetch (R105) -/

theorem lzRefill_of_bit {s : State} (h : s.lzd.nbits ≠ 0) : lzRefill s = s := if_neg h

theorem lzRefill_of_none {s : State} (h : s.lzd.nbits = 0) :
    lzRefill s =
      { s with lzd := { s.lzd with ctl := s.inp.read s.lzd.src.toNat, src := s.lzd.src + 1, nbits := 8 } } :=
  if_pos h

/-- A control byte is fetched once: the cycle after the fetch is the cycle that would have fetched it. -/
theorem lzCycle_lzRefill {s : State} (hsize : s.lzd.out.len ≠ s.lzd.decl.toNat) (hnbits : s.lzd.nbits = 0)
    (hsrc : s.lzd.src.toNat < s.lzd.stop.toNat) (c : Config) : lzCycle c (lzRefill s) = lzCycle c s := by
  have hne : (lzRefill s).lzd.nbits ≠ 0 := by rw [lzRefill_of_none hnbits]; exact (by decide : (8#4) ≠ 0)
  have hsize' : (lzRefill s).lzd.out.len ≠ (lzRefill s).lzd.decl.toNat := by rw [lzRefill_of_none hnbits]; exact hsize
  rw [lzCycle_token hsize' fun h => absurd h hne, lzRefill_of_bit hne, lzCycle_token hsize fun _ => hsrc]

/-! ## The token at the cursor, from the bytes of the slice that are left (R65) -/

/-- The bytes of the slice from the cursor on. -/
def bytesLeft (s : State) : List Byte := s.inp.readList s.lzd.src.toNat (s.lzd.stop.toNat - s.lzd.src.toNat)

theorem bytesLeft_length (s : State) : (bytesLeft s).length = s.lzd.stop.toNat - s.lzd.src.toNat :=
  readList_length _ _ _

theorem lzPeek_eq_getD (s : State) (k : Nat) : lzPeek s k = (bytesLeft s).getD k 0 := by
  rw [lzPeek]
  split
  · exact (readList_getD _ _ _ _ (by omega) _).symm
  · exact (List.getD_eq_default _ _ (by rw [bytesLeft_length]; omega)).symm

/-- A decoded token is the one its control bit and the first three bytes select, 0 for a byte that is not there. -/
theorem tokenOf_of_decodeToken {bit : Bool} {bytes rest : List Byte} {i : Instr}
    (h : decodeToken bit bytes = .ok (i, rest)) :
    tokenOf bit (bytes.getD 0 0) (bytes.getD 1 0) (bytes.getD 2 0) = i := by
  cases bytes with
  | nil => cases h
  | cons b1 tail =>
    rw [decodeToken] at h
    split at h
    · cases h
    · cases h
      rfl

/-- Bytes that decode to no token are fewer than it takes. -/
theorem length_lt_of_decodeToken_error {bit : Bool} {bytes : List Byte} {e : DecodeError}
    (h : decodeToken bit bytes = .error e) : bytes.length < tokenLength bit (bytes.getD 0 0) := by
  cases bytes with
  | nil => cases bit <;> decide
  | cons b1 tail =>
    rw [decodeToken] at h
    split at h
    · assumption
    · cases h

/-- The cycle with a control bit left is the token the bytes at the cursor decode to, after the bit is used up. -/
theorem exec_decodeToken_cycle {s : State} {i : Instr} {rest : List Byte}
    (hsize : s.lzd.out.len ≠ s.lzd.decl.toNat) (hnbits : s.lzd.nbits ≠ 0)
    (hdecode : decodeToken s.lzd.ctl.msb (bytesLeft s) = .ok (i, rest)) :
    exec i (lzTakeBit s) = .next (lzCycle engine s) := by
  have htoken : tokenAt s.lzd.ctl.msb (lzTakeBit s) = i := by
    rw [tokenAt, lzPeek_eq_getD, lzPeek_eq_getD, lzPeek_eq_getD]
    exact tokenOf_of_decodeToken hdecode
  have hcycle := exec_tokenAt_cycle hsize fun h => absurd h hnbits
  rwa [lzRefill_of_bit hnbits, htoken] at hcycle

/-- A turn of the record loops with the record in the region is the record's meaning (R132). -/
theorem exec_decodeRecord_cycle {s : State} {stream : Stream} (hstream : esStreamAt s.esm = some stream)
    (hregion : s.esm.walk.p + 2 ≤ s.esm.walk.len.toNat) :
    exec (decodeRecord stream (esByte s s.esm.walk.p) (esByte s (s.esm.walk.p + 1))) s = .next (esCycle engine s) := by
  have hfetch : esFetch s = .record stream (esByte s s.esm.walk.p) (esByte s (s.esm.walk.p + 1)) s := by
    simp only [esFetch, hstream]
    exact if_neg (Nat.not_lt.mpr hregion)
  rw [esCycle, hfetch]
  exact exec_decodeRecord _ _ _ _

/-- Settles O7: each clause says what the one cycle of the run or the decode meets. -/
theorem stepRunsTokenOrRecord : Obligations.StepRunsTokenOrRecord := by
  refine ⟨fun s hbusy hrun hsize hnbits hsrc => ?_, fun s bytes rest i hbusy hrun hsize hnbits hbytes hdecode => ?_,
    fun s stream hbusy hstream hregion => ?_⟩
  · have hfetched : step (lzRefill s) = .next (lzCycle engine (lzRefill s)) :=
      step_run (by rw [lzRefill_esm]; exact hbusy) (by rw [lzRefill_of_none hnbits]; exact hrun)
    rw [lzCycle_lzRefill hsize hnbits hsrc, lzRefill_of_none hnbits] at hfetched
    exact (step_run hbusy hrun).trans hfetched.symm
  · subst hbytes
    exact (step_run hbusy hrun).trans (exec_decodeToken_cycle hsize hnbits hdecode).symm
  · exact (step_busy hbusy).trans (exec_decodeRecord_cycle hstream hregion).symm

/-! ## The literal (R107) -/

/-- Settles O25. -/
theorem literalAppendsByte : Obligations.LiteralAppendsByte := by
  intro s v hwf hsrc
  have hlit : lzLit v s = { s with lzd := { s.lzd with out := s.lzd.out.append v, src := s.lzd.src + 1 } } :=
    if_neg (Nat.not_le.mpr hsrc)
  exact ⟨_, congrArg Host.Outcome.next hlit, ⟨rfl, rfl, rfl, rfl, rfl, rfl, fun _ => rfl⟩, rfl, rfl,
    src_add (n := 1) (by decide) hsrc, rfl, fun a => read_append hwf v a⟩

/-! ## A raise at an offset of the slice (R112) -/

/-- The run failed with error `e` while the cursor stood at offset `off` of IN: OUT is empty, and `EINFO` and `LZ_USED`
are the distance of `off` from the start of the slice. -/
structure LzRaisedAt (e : ErrCode) (off : Nat) (s t : State) : Prop where
  frame : LzFrame s t
  st : t.lzd.st = .fail
  out : t.lzd.out = {}
  rep : t.rep = s.rep.raised e (off - s.lzd.base.toNat)
  used : t.lzUsed.toNat = off - s.lzd.base.toNat

theorem lzFailHere_raisedAt (e : ErrCode) {s : State} {off : Nat} (hsrc : s.lzd.src.toNat = off)
    (h : s.lzd.base.toNat ≤ off) : LzRaisedAt e off s (lzFailHere e s) := by
  subst hsrc
  obtain ⟨hused, hrep⟩ := lzFailHere_used e h
  exact ⟨lzFailHere_frame e s, rfl, rfl, hrep, hused⟩

/-- A raise after writes of LZD that keep the slice. -/
theorem LzRaisedAt.of_frame {e : ErrCode} {off : Nat} {s u t : State} (h : LzRaisedAt e off u t) (f : LzFrame s u)
    (hrep : u.rep = s.rep) : LzRaisedAt e off s t :=
  ⟨f.trans h.frame, h.st, h.out, by rw [h.rep, f.base, hrep], by rw [h.used, f.base]⟩

/-- Such a raise in the terms of the statements. -/
theorem LzRaisedAt.reported {e : ErrCode} {off : Nat} {s t : State} (h : LzRaisedAt e off s t) :
    t.lzd.st = .fail ∧ t.lzd.out = {} ∧ RaisedAs (errCode e) (stickyBit e) (off - s.lzd.base.toNat) s t ∧
      t.lzUsed.toNat = off - s.lzd.base.toNat :=
  ⟨h.st, h.out, raisedAs_of_rep h.rep, h.used⟩

/-! ## A missing byte (R107 to R109) -/

theorem lzLit_truncated {s : State} (hlo : s.lzd.base.toNat ≤ s.lzd.src.toNat)
    (hshort : s.lzd.stop.toNat ≤ s.lzd.src.toNat) (v : Byte) :
    LzRaisedAt .lzTrunc s.lzd.src.toNat s (lzLit v s) := by
  rw [lzLit, if_pos hshort]
  exact lzFailHere_raisedAt _ rfl hlo

theorem lzRef_truncated {s : State} (hlo : s.lzd.base.toNat ≤ s.lzd.src.toNat)
    (hshort : s.lzd.stop.toNat < s.lzd.src.toNat + 2) (c : Config) (n : BitVec 4) (d : BitVec 12) :
    LzRaisedAt .lzTrunc s.lzd.src.toNat s (lzRef c n d s) := by
  rw [lzRef, if_pos hshort]
  exact lzFailHere_raisedAt _ rfl hlo

theorem lzRefx_truncated {s : State} (hlo : s.lzd.base.toNat ≤ s.lzd.src.toNat)
    (hshort : s.lzd.stop.toNat < s.lzd.src.toNat + 2) (c : Config) (d : BitVec 12) (l : Byte) :
    LzRaisedAt .lzTrunc s.lzd.src.toNat s (lzRefx c d l s) := by
  rw [lzRefx, if_pos hshort]
  exact lzFailHere_raisedAt _ rfl hlo

/-- Only the extension byte is missing: the first two bytes are consumed (R108, R109). -/
theorem lzRefx_noExtension {s : State} (hlo : s.lzd.base.toNat ≤ s.lzd.src.toNat)
    (hshort : s.lzd.src.toNat + 2 = s.lzd.stop.toNat) (c : Config) (d : BitVec 12) (l : Byte) :
    LzRaisedAt .lzTrunc (s.lzd.src.toNat + 2) s (lzRefx c d l s) := by
  have hsrc : (s.lzd.src + 2).toNat = s.lzd.src.toNat + 2 := src_add (n := 2) (by decide) (by omega)
  rw [lzRefx, if_neg (by omega)]
  dsimp only
  rw [if_pos (by omega)]
  refine (lzFailHere_raisedAt _ hsrc ?_).of_frame (lzFrame_update s _ rfl rfl) rfl
  show s.lzd.base.toNat ≤ s.lzd.src.toNat + 2
  omega

/-- A token whose bytes the slice does not hold raises at the cursor, or two further when only the third of three bytes
is missing. -/
theorem lzToken_truncated {s : State} {bit : Bool} {b1 : Byte} (hlo : s.lzd.base.toNat ≤ s.lzd.src.toNat)
    (hshort : s.lzd.stop.toNat < s.lzd.src.toNat + tokenLength bit b1) (c : Config) (b2 b3 : Byte) :
    LzRaisedAt .lzTrunc (if s.lzd.stop.toNat = s.lzd.src.toNat + 2 then s.lzd.src.toNat + 2 else s.lzd.src.toNat) s
      (lzToken c bit b1 b2 b3 s) := by
  unfold tokenLength at hshort
  unfold lzToken
  by_cases hbit : bit = true
  · rw [if_pos hbit] at hshort ⊢
    rw [if_neg (by omega)]
    exact lzLit_truncated hlo (by omega) b1
  rw [if_neg hbit] at hshort ⊢
  by_cases hlong : b1.extractLsb' 4 4 = 0
  · rw [if_pos hlong] at hshort ⊢
    by_cases hext : s.lzd.stop.toNat = s.lzd.src.toNat + 2
    · rw [if_pos hext]
      exact lzRefx_noExtension hlo hext.symm c _ b3
    · rw [if_neg hext]
      exact lzRefx_truncated hlo (by omega) c _ b3
  · rw [if_neg hlong] at hshort ⊢
    rw [if_neg (by omega)]
    exact lzRef_truncated hlo (by omega) c _ _

/-! ## A reference before the start, and a copy beyond the declared size (R110, R111) -/

/-- Back-reference validity and copy raise where the cursor stands: for the distance, else for the length. -/
theorem lzBackref_raisedAt {s : State} {off : Nat} (hoff : s.lzd.src.toNat = off) (hlo : s.lzd.base.toNat ≤ off)
    (hsize : s.lzd.out.len ≤ s.lzd.decl.toNat) :
    (s.lzd.out.len < s.lzd.dist.toNat + 1 → LzRaisedAt .lzBackref off s (lzBackref s)) ∧
    (s.lzd.dist.toNat + 1 ≤ s.lzd.out.len → s.lzd.decl.toNat < s.lzd.out.len + s.lzd.cnt.toNat →
      LzRaisedAt .lzLength off s (lzBackref s)) := by
  refine ⟨fun hdist => ?_, fun hdist hlong => ?_⟩
  · rw [lzBackref, if_pos hdist]
    exact lzFailHere_raisedAt _ hoff hlo
  · have hcopy := (lzCopy_eq s.lzd.cnt.toNat { s with lzd := { s.lzd with st := .copy } } hsize).trans
      (if_neg (Nat.not_le.mpr hlong))
    rw [lzBackref, if_neg (Nat.not_lt.mpr hdist), hcopy]
    refine .of_frame (lzFailHere_raisedAt _ ?_ hlo) ?_ rfl
    · exact hoff
    · exact lzFrame_update s _ rfl rfl

/-- The state behind a back-reference of `n` bytes of stream that is to copy `cnt` bytes. -/
def lzReferring (n : Nat) (d : BitVec 12) (cnt : Nat) (s : State) : State :=
  { s with lzd := { s.lzd with src := s.lzd.src + BitVec.ofNat 33 n, dist := d, cnt := BitVec.ofNat 9 cnt } }

theorem lzRef_eq_lzBackref {s : State} (hsrc : s.lzd.src.toNat + 2 ≤ s.lzd.stop.toNat) (n : BitVec 4) (d : BitVec 12) :
    lzRef engine n d s = lzBackref (lzReferring 2 d (n.toNat + 2) s) :=
  if_neg (Nat.not_lt.mpr hsrc)

theorem lzRefx_eq_lzBackref {s : State} (hsrc : s.lzd.src.toNat + 3 ≤ s.lzd.stop.toNat) (d : BitVec 12) (l : Byte) :
    lzRefx engine d l s = lzBackref (lzReferring 3 d (l.toNat + 0x12) s) := by
  have h2 : (s.lzd.src + 2).toNat = s.lzd.src.toNat + 2 := src_add (n := 2) (by decide) (by omega)
  have h3 : s.lzd.src + 2 + 1 = s.lzd.src + BitVec.ofNat 33 3 := by rw [BitVec.add_assoc]; rfl
  rw [lzRefx, if_neg (by omega)]
  dsimp only
  rw [if_neg (by omega), h3]
  rfl

/-- A back-reference of `n` bytes of stream raises just behind them. -/
theorem lzBackref_referring_raisedAt {s : State} {n cnt : Nat} {d : BitVec 12} (hn : n < 2 ^ 33) (hcnt : cnt < 2 ^ 9)
    (hlo : s.lzd.base.toNat ≤ s.lzd.src.toNat) (hsrc : s.lzd.src.toNat + n ≤ s.lzd.stop.toNat)
    (hsize : s.lzd.out.len ≤ s.lzd.decl.toNat) :
    (s.lzd.out.len < d.toNat + 1 →
      LzRaisedAt .lzBackref (s.lzd.src.toNat + n) s (lzBackref (lzReferring n d cnt s))) ∧
    (d.toNat + 1 ≤ s.lzd.out.len → s.lzd.decl.toNat < s.lzd.out.len + cnt →
      LzRaisedAt .lzLength (s.lzd.src.toNat + n) s (lzBackref (lzReferring n d cnt s))) := by
  have hframe : LzFrame s (lzReferring n d cnt s) := lzFrame_update s _ rfl rfl
  have hoff : (lzReferring n d cnt s).lzd.src.toNat = s.lzd.src.toNat + n := src_add hn hsrc
  have hk : (lzReferring n d cnt s).lzd.cnt.toNat = cnt := Nat.mod_eq_of_lt hcnt
  obtain ⟨hbackref, hlength⟩ := lzBackref_raisedAt hoff (hlo.trans (Nat.le_add_right _ n)) hsize
  rw [hk] at hlength
  exact ⟨fun hdist => (hbackref hdist).of_frame hframe rfl,
    fun hdist hlong => (hlength hdist hlong).of_frame hframe rfl⟩

/-! ## The obligation -/

/-- A cycle with a control bit left whose token the slice does not hold. -/
theorem lzCycle_truncated {s : State} {e : DecodeError} (hlo : s.lzd.base.toNat ≤ s.lzd.src.toNat)
    (hhi : s.lzd.src.toNat ≤ s.lzd.stop.toNat) (hsize : s.lzd.out.len ≠ s.lzd.decl.toNat) (hnbits : s.lzd.nbits ≠ 0)
    (hdecode : decodeToken s.lzd.ctl.msb (bytesLeft s) = .error e) (c : Config) :
    LzRaisedAt .lzTrunc (if (bytesLeft s).length = 2 then s.lzd.src.toNat + 2 else s.lzd.src.toNat) s
      (lzCycle c s) := by
  have hshort := length_lt_of_decodeToken_error hdecode
  have hlen := bytesLeft_length s
  have htwo : (bytesLeft s).length = 2 ↔ s.lzd.stop.toNat = s.lzd.src.toNat + 2 := by omega
  have hpeek : lzPeek (lzTakeBit s) 0 = (bytesLeft s).getD 0 0 := lzPeek_eq_getD (lzTakeBit s) 0
  rw [lzCycle_token hsize fun h => absurd h hnbits, lzRefill_of_bit hnbits, hpeek, if_congr htwo rfl rfl]
  refine (lzToken_truncated (s := lzTakeBit s) hlo ?_ c _ _).of_frame (lzFrame_update s _ rfl rfl) rfl
  show s.lzd.stop.toNat < s.lzd.src.toNat + _
  omega

/-- Settles O28: the raises of the three tokens, then those of a step, which is one token cycle. -/
theorem tokenErrors : Obligations.TokenErrors := by
  intro s hlo hhi _ hsize
  refine ⟨fun v hend => ?lit, fun n d _ => ?ref, fun d l => ?refx, fun hbusy hrun hne hnbits hend => ?control,
    fun bytes e hbusy hrun hne hnbits hbytes hdecode => ?token⟩
  case lit =>
    have h := lzLit_truncated hlo hend.ge v
    exact ⟨_, rfl, h.frame.onlyLzd, h.reported⟩
  case ref =>
    have hcnt : n.toNat + 2 < 2 ^ 9 := by have := n.isLt; omega
    refine ⟨_, rfl, (lzRef_frame engine n d s).onlyLzd, fun hshort => (lzRef_truncated hlo hshort engine n d).reported,
      fun hsrc hdist => ?_, fun hsrc hdist hlong => ?_⟩
    · rw [lzRef_eq_lzBackref hsrc]
      exact ((lzBackref_referring_raisedAt (by decide) hcnt hlo hsrc hsize).1 hdist).reported
    · rw [lzRef_eq_lzBackref hsrc]
      exact ((lzBackref_referring_raisedAt (by decide) hcnt hlo hsrc hsize).2 hdist hlong).reported
  case refx =>
    have hcnt : l.toNat + 0x12 < 2 ^ 9 := by have := l.isLt; omega
    refine ⟨_, rfl, (lzRefx_frame engine d l s).onlyLzd,
      fun hshort => (lzRefx_truncated hlo hshort engine d l).reported,
      fun hshort => (lzRefx_noExtension hlo hshort engine d l).reported,
      fun hsrc hdist => ?_, fun hsrc hdist hlong => ?_⟩
    · rw [lzRefx_eq_lzBackref hsrc]
      exact ((lzBackref_referring_raisedAt (by decide) hcnt hlo hsrc hsize).1 hdist).reported
    · rw [lzRefx_eq_lzBackref hsrc]
      exact ((lzBackref_referring_raisedAt (by decide) hcnt hlo hsrc hsize).2 hdist hlong).reported
  case control =>
    have h := lzFailHere_raisedAt .lzTrunc (s := s) rfl hlo
    rw [← lzCycle_noControl hne hnbits hend.ge engine] at h
    exact ⟨_, step_run hbusy hrun, h.frame.onlyLzd, h.reported⟩
  case token =>
    subst hbytes
    have h := lzCycle_truncated hlo hhi hne hnbits hdecode engine
    obtain ⟨hst, hout, hraised, hused⟩ := h.reported
    exact ⟨_, _, step_run hbusy hrun, h.frame.onlyLzd, hst, hout, hraised, hused, rfl⟩

end Sys2Proof.Machine
end

section
/-! PROOFS. Merging (spec/42_event_streams.md R135, R137) and the three records (R134 to R138): what one record does to
the arrays. FACE and STICK are merged by one rule, with the state or the coordinates as the key of an entry. -/

namespace Sys2Proof.Machine

open Sys2Proof

/-! ## Merging by a key (R135, R137) -/

/-- `push` adds an entry at the end of an array: it becomes `add last e` when the last entry has the same key, and a new
entry otherwise; `add` keeps the key and adds the durations. -/
structure Merges {α κ : Type} (push : List α → α → List α) (key : α → κ) (dur : α → BitVec 32) (add : α → α → α) :
    Prop where
  nil : ∀ e, push [] e = [e]
  same : ∀ front {a e}, key a = key e → push (front ++ [a]) e = front ++ [add a e]
  new : ∀ front {a e}, key a ≠ key e → push (front ++ [a]) e = front ++ [a, e]
  key_add : ∀ a e, key (add a e) = key a
  dur_add : ∀ a e, dur (add a e) = dur a + dur e

/-- The coordinates of a stick entry. -/
def StickEvent.coords (e : StickEvent) : BitVec 4 × BitVec 4 := (e.x, e.y)

theorem StickEvent.coords_eq_iff {a e : StickEvent} : a.coords = e.coords ↔ a.x = e.x ∧ a.y = e.y := Prod.mk_inj

theorem merges_pushFace :
    Merges pushFace FaceEvent.st FaceEvent.dur fun a e => { a with dur := a.dur + e.dur } where
  nil _ := rfl
  same front _ _ h := (pushFace_append front _ _).trans (if_pos h)
  new front _ _ h := (pushFace_append front _ _).trans (if_neg h)
  key_add _ _ := rfl
  dur_add _ _ := rfl

theorem merges_pushStick :
    Merges pushStick StickEvent.coords StickEvent.dur fun a e => { a with dur := a.dur + e.dur } where
  nil _ := rfl
  same front _ _ h := (pushStick_append front _ _).trans (if_pos (StickEvent.coords_eq_iff.mp h))
  new front _ _ h := (pushStick_append front _ _).trans (if_neg (mt StickEvent.coords_eq_iff.mpr h))
  key_add _ _ := rfl
  dur_add _ _ := rfl

section
variable {α κ : Type} {push : List α → α → List α} {key : α → κ} {dur : α → BitVec 32} {add : α → α → α}

/-- An entry whose key is not the last one's is appended. -/
theorem Merges.push_of_new (h : Merges push key dur add) {l : List α} {e : α}
    (hnew : ∀ front last, l = front ++ [last] → key last ≠ key e) : push l e = l ++ [e] := by
  obtain rfl | ⟨front, last, rfl⟩ := nil_or_append l
  · exact h.nil e
  · rw [h.new front (hnew front last rfl), List.append_assoc]
    rfl

/-- A push adds the frames of its entry, when their sum fits. -/
theorem Merges.totalDur_push (h : Merges push key dur add) {l : List α} {e : α}
    (hfit : totalDur (l.map dur) + (dur e).toNat < 2 ^ 32) :
    totalDur ((push l e).map dur) = totalDur (l.map dur) + (dur e).toNat := by
  obtain rfl | ⟨front, last, rfl⟩ := nil_or_append l
  · rw [h.nil]
    simp [totalDur]
  by_cases hkey : key last = key e
  · have hadd : (dur (add last e)).toNat = (dur last).toNat + (dur e).toNat := by
      rw [h.dur_add, BitVec.toNat_add, Nat.mod_eq_of_lt]
      simp only [totalDur, List.map_append, List.sum_append, List.map_cons, List.map_nil, List.sum_cons,
        List.sum_nil] at hfit
      omega
    rw [h.same front hkey]
    simp only [totalDur, List.map_append, List.sum_append, List.map_cons, List.map_nil, List.sum_cons, List.sum_nil,
      hadd]
    omega
  · rw [h.new front hkey, List.append_cons, List.map_append, totalDur_append]
    simp [totalDur]

/-- Entries merged into an empty array keep their frames (R141 a). -/
theorem Merges.totalDur_foldl (h : Merges push key dur add) {es : List α} (hfit : totalDur (es.map dur) < 2 ^ 32) :
    totalDur ((es.foldl push []).map dur) = totalDur (es.map dur) := by
  induction es using List.reverseRecOn with
  | nil => rfl
  | append_singleton es e ih =>
    rw [List.map_append, totalDur_append] at hfit
    have hsum := ih (by omega)
    have he : totalDur ([e].map dur) = (dur e).toNat := Nat.add_zero _
    rw [List.foldl_append, List.foldl_cons, List.foldl_nil, List.map_append, totalDur_append, he,
      h.totalDur_push (by omega), hsum]

/-- A push into an array without equal neighbours makes none. -/
theorem Merges.isChain_push (h : Merges push key dur add) {l : List α} (e : α)
    (hl : l.IsChain fun a b => key a ≠ key b) : (push l e).IsChain fun a b => key a ≠ key b := by
  obtain rfl | ⟨front, last, rfl⟩ := nil_or_append l
  · rw [h.nil]
    exact .singleton e
  by_cases hkey : key last = key e
  · rw [h.same front hkey]
    simp only [List.isChain_append, List.head?_cons, Option.mem_some_iff] at hl ⊢
    obtain ⟨hfront, -, hmeet⟩ := hl
    refine ⟨hfront, .singleton _, fun a ha b hb => ?_⟩
    rw [← hb, h.key_add]
    exact hmeet a ha last rfl
  · rw [h.new front hkey, List.isChain_append_cons_cons]
    exact ⟨hl, hkey, .singleton e⟩

/-- Entries merged into an empty array have no equal neighbours (R141 b). -/
theorem Merges.isChain_foldl (h : Merges push key dur add) (es : List α) :
    (es.foldl push []).IsChain fun a b => key a ≠ key b := by
  induction es using List.reverseRecOn with
  | nil => exact .nil
  | append_singleton es e ih =>
    rw [List.foldl_append]
    exact h.isChain_push e ih

/-- The same by index. -/
theorem Merges.neighbours_foldl (h : Merges push key dur add) (es : List α) {k : Nat} {a b : α}
    (ha : (es.foldl push [])[k]? = some a) (hb : (es.foldl push [])[k + 1]? = some b) : key a ≠ key b := by
  obtain ⟨hk, rfl⟩ := List.getElem?_eq_some_iff.mp hb
  obtain ⟨-, rfl⟩ := List.getElem?_eq_some_iff.mp ha
  exact List.isChain_iff_getElem.mp (h.isChain_foldl es) k hk

end

/-! ## The fields of a record's first byte under the engine's configuration (R136, R138) -/

theorem rawX_engine_toNat (b0 : Byte) : (rawX engine b0).toNat = b0.toNat / 16 := by
  have hlt := b0.isLt
  show (b0.extractLsb' 4 4).toNat = _
  rw [BitVec.extractLsb'_toNat, Nat.shiftRight_eq_div_pow]
  omega

theorem rawY_engine_toNat (b0 : Byte) : (rawY engine b0).toNat = b0.toNat % 16 := by
  show (b0.extractLsb' 0 4).toNat = _
  rw [BitVec.extractLsb'_toNat]
  rfl

theorem dpadDir_engine (b0 : Byte) : dpadDir engine b0 = BitVec.ofNat 3 (b0.toNat % 8) := by
  refine BitVec.eq_of_toNat_eq ?_
  show (b0.extractLsb' 0 3).toNat = _
  rw [BitVec.extractLsb'_toNat, BitVec.toNat_ofNat, Nat.mod_mod]
  rfl

theorem dpadDur_engine (b0 b1 : Byte) : dpadDur engine b0 b1 = BitVec.ofNat 32 (b0.toNat / 16 * 256 + b1.toNat) :=
  congrArg (fun n => BitVec.ofNat 32 (n * 256 + b1.toNat)) (rawX_engine_toNat b0)

/-- A duration byte in 32 bits. -/
theorem duration_eq (b1 : Byte) : b1.zeroExtend 32 = BitVec.ofNat 32 b1.toNat := (BitVec.ofNat_toNat 32 b1).symm

/-! ## What the records leave unchanged -/

/-- The frame of ESM: the units and IN that a decode does not write. -/
theorem onlyEsm_of_eq {s t : State} (inp : t.inp = s.inp) (bfx : t.bfx = s.bfx) (lzd : t.lzd = s.lzd)
    (tca : t.tca = s.tca) (host : t.host = s.host) : OnlyEsm s t := by
  have hspace : ∀ sp, t.space sp = s.space sp
    | .input => inp
    | .output => congrArg Lzd.out lzd
  exact ⟨inp, bfx, lzd, tca, host, fun sp a => congrArg (Space.read · a) (hspace sp), congrArg Space.len inp,
    congrArg (fun z => z.out.len) lzd⟩

theorem EsFrame.onlyEsm {s t : State} (f : EsFrame s t) : OnlyEsm s t :=
  onlyEsm_of_eq f.inp f.bfx f.lzd f.tca f.host

/-! ## The records, legal and not -/

/-- A record a decode takes: a face byte in `FACE_LEGAL`, no stick nibble 15, a legal direction. -/
def RecordLegal (c : Config) (stream : Stream) (b0 : Byte) : Prop :=
  match stream with
  | .face => c.faceLegal b0 = true
  | .stick => rawX c b0 ≠ 15 ∧ rawY c b0 ≠ 15
  | .dpad => c.dpadLegal (dpadDir c b0) = true

/-- A legal record is taken. -/
theorem RecordLegal.taken {c : Config} {stream : Stream} {b0 : Byte} (h : RecordLegal c stream b0) (b1 : Byte)
    (s : State) : EsTaken c stream b0 b1 s (esRecord c stream b0 b1 s) := by
  cases stream with
  | face =>
    have hrec : esRecord c .face b0 b1 s = _ := if_pos h
    rw [hrec]
    exact ⟨rfl, rfl, rfl, rfl, rfl, rfl, h⟩
  | stick =>
    have hrec : esRecord c .stick b0 b1 s = _ := if_neg (not_or.mpr h)
    rw [hrec]
    exact ⟨rfl, rfl, rfl, rfl, rfl, rfl, h⟩
  | dpad =>
    have hrec : esRecord c .dpad b0 b1 s = _ := if_pos h
    rw [hrec]
    exact ⟨rfl, rfl, rfl, rfl, rfl, rfl, h⟩

theorem esFaceRecord_illegal {c : Config} {b0 : Byte} (h : c.faceLegal b0 = false) (b1 : Byte) (s : State) :
    esFaceRecord c b0 b1 s = esFail .esFace s.esm.walk.p s :=
  if_neg (by rw [h]; decide)

theorem esStickRecord_illegal {c : Config} {b0 : Byte} (h : rawX c b0 = 15 ∨ rawY c b0 = 15) (b1 : Byte) (s : State) :
    esStickRecord c b0 b1 s = esFail .esStick s.esm.walk.p s :=
  if_pos h

/-- Settles O35. -/
theorem faceRecordAddsFrames : Obligations.FaceRecordAddsFrames := by
  refine fun s b0 b1 => ⟨rfl, fun c t ht => ?_⟩
  subst ht
  have hframe : EsFrame s (esFaceRecord c b0 b1 s) := (esRecord_cases c .face b0 b1 s).1
  refine ⟨hframe.onlyEsm, hframe.tl, fun hlegal => ?_, fun hillegal => ?_⟩
  · have hrec : esFaceRecord c b0 b1 s = _ := if_pos hlegal
    rw [hrec, duration_eq]
    refine ⟨rfl, rfl, fun front last harr hst => ?_, fun hnew => merges_pushFace.push_of_new hnew⟩
    subst hst
    show pushFace s.esm.face _ = _
    rw [harr]
    exact merges_pushFace.same front rfl
  · rw [esFaceRecord_illegal hillegal]
    exact ⟨raisedAs_of_rep (esFail_rep _ _ _), rfl⟩

/-- The coordinate of a stick nibble below 15. -/
theorem unbias_engine_toInt {raw : BitVec 4} (h : raw.toNat < 15) :
    (unbias engine raw).toInt = (raw.toNat : Int) - 7 :=
  unbias_toInt engine rfl raw fun h15 => absurd h (by rw [h15]; decide)

/-- Settles O36. -/
theorem stickRecordAddsFrames : Obligations.StickRecordAddsFrames := by
  refine fun s x y b1 => ⟨rfl, _, rfl, ?_⟩
  have hx : rawX engine (x ++ y) = x := rawX_append engine x y
  have hy : rawY engine (x ++ y) = y := rawY_append engine x y
  have hframe : EsFrame s (esStickRecord engine (x ++ y) b1 s) := (esRecord_cases engine .stick (x ++ y) b1 s).1
  refine ⟨hframe.onlyEsm, hframe.tl, fun hxlt hylt => ?_, fun h15 => ?_⟩
  · have hlegal : ¬(rawX engine (x ++ y) = 15 ∨ rawY engine (x ++ y) = 15) := by
      rw [hx, hy, ← BitVec.toNat_inj, ← BitVec.toNat_inj]
      exact not_or.mpr ⟨hxlt.ne, hylt.ne⟩
    have hrec : esStickRecord engine (x ++ y) b1 s = _ := if_neg hlegal
    rw [hrec, hx, hy]
    refine ⟨{ x := unbias engine x, y := unbias engine y, dur := b1.zeroExtend 32 }, unbias_engine_toInt hxlt,
      unbias_engine_toInt hylt, BitVec.toNat_setWidth_of_le (by decide), rfl, rfl, fun front last harr hlx hly => ?_,
      fun hnew => merges_pushStick.push_of_new fun front last harr =>
        mt StickEvent.coords_eq_iff.mp (hnew front last harr)⟩
    show pushStick s.esm.stick _ = _
    rw [harr]
    exact merges_pushStick.same front (StickEvent.coords_eq_iff.mpr ⟨hlx, hly⟩)
  · have hillegal : rawX engine (x ++ y) = 15 ∨ rawY engine (x ++ y) = 15 := by
      rw [hx, hy, ← BitVec.toNat_inj, ← BitVec.toNat_inj]
      exact h15
    rw [esStickRecord_illegal hillegal]
    exact ⟨raisedAs_of_rep (esFail_rep _ _ _), rfl⟩

/-- Settles O37: the engine's `DPAD_LEGAL` refuses no direction, so the record is always taken. -/
theorem dpadRecordAddsEntry : Obligations.DpadRecordAddsEntry := by
  intro s e i d b1
  have hframe : EsFrame s (esDpadRecord engine (e ++ i ++ d) b1 s) := (esRecord_cases engine .dpad (e ++ i ++ d) b1 s).1
  refine ⟨rfl, _, rfl, hframe.onlyEsm, hframe.tl, rfl, rfl, _, rfl, ?_, ?_⟩
  · exact BitVec.extractLsb'_append_eq_right
  · have he := e.isLt
    have hb := b1.isLt
    have hext : (e ++ i ++ d).toNat / 16 = e.toNat := by
      have hi := i.isLt
      have hd := d.isLt
      rw [append_toNat, append_toNat]
      omega
    rw [dpadDur_engine, hext, BitVec.toNat_ofNat, Nat.mod_eq_of_lt (by omega)]

end Sys2Proof.Machine
end

section
/-! PROOFS. `ES.DECODE` (spec/42_event_streams.md R130 to R133, R139 to R141): what the decode has read after `k`
records, how it ends, and that it is its own record loop run step by step. -/

namespace Sys2Proof.Machine

open Sys2Proof

/-! ## The records of a region as entries (R134 to R138) -/

/-- The entry face record `k` of the region stands for. -/
def faceEntry (s : State) (sp : Sp) (addr : BitVec 32) (k : Nat) : FaceEvent :=
  { st := recordState s sp addr k, dur := BitVec.ofNat 32 (plainFrames s sp addr k) }

/-- The entry stick record `k` of the region stands for. -/
def stickEntry (s : State) (sp : Sp) (addr : BitVec 32) (k : Nat) : StickEvent :=
  { x := BitVec.ofInt 4 (((recordState s sp addr k).toNat / 16 : Nat) - 7)
    y := BitVec.ofInt 4 (((recordState s sp addr k).toNat % 16 : Nat) - 7)
    dur := BitVec.ofNat 32 (plainFrames s sp addr k) }

/-- The entry dpad record `k` of the region stands for. -/
def dpadEntry (s : State) (sp : Sp) (addr : BitVec 32) (k : Nat) : DpadEvent :=
  { dir := BitVec.ofNat 3 ((recordState s sp addr k).toNat % 8)
    dur := BitVec.ofNat 32 (dpadFrames s sp addr k) }

/-- FACE after the first `n` face records of the region. -/
def faceArray (s : State) (sp : Sp) (addr : BitVec 32) (n : Nat) : List FaceEvent :=
  ((List.range n).map fun k => faceEntry s sp addr k).foldl pushFace []

/-- STICK after the first `n` stick records of the region. -/
def stickArray (s : State) (sp : Sp) (addr : BitVec 32) (n : Nat) : List StickEvent :=
  ((List.range n).map fun j => stickEntry s sp addr (regionCount s sp addr 0 + j)).foldl pushStick []

/-- DPAD after the first `n` dpad records of the region. -/
def dpadArray (s : State) (sp : Sp) (addr : BitVec 32) (n : Nat) : List DpadEvent :=
  (List.range n).map fun j => dpadEntry s sp addr (regionCount s sp addr 0 + regionCount s sp addr 2 + j)

theorem faceArray_succ (s : State) (sp : Sp) (addr : BitVec 32) (n : Nat) :
    faceArray s sp addr (n + 1) = pushFace (faceArray s sp addr n) (faceEntry s sp addr n) := by
  simp [faceArray, List.range_succ]

theorem stickArray_succ (s : State) (sp : Sp) (addr : BitVec 32) (n : Nat) :
    stickArray s sp addr (n + 1) =
      pushStick (stickArray s sp addr n) (stickEntry s sp addr (regionCount s sp addr 0 + n)) := by
  simp [stickArray, List.range_succ]

theorem dpadArray_succ (s : State) (sp : Sp) (addr : BitVec 32) (n : Nat) :
    dpadArray s sp addr (n + 1) =
      dpadArray s sp addr n ++ [dpadEntry s sp addr (regionCount s sp addr 0 + regionCount s sp addr 2 + n)] := by
  simp [dpadArray, List.range_succ]

/-- A stick nibble less the engine's bias. -/
theorem unbias_engine_eq {raw : BitVec 4} {n : Nat} (h : raw.toNat = n) :
    unbias engine raw = BitVec.ofInt 4 ((n : Int) - 7) := by
  rw [← h]
  rfl

/-! ## The decode after `k` records -/

/-- A decode of the region from state `s` that has taken `k` records, all of them inside the region: the arrays are
those of these records, face, then stick, then dpad (R132). -/
structure RecordsRead (s : State) (sp : Sp) (addr : BitVec 32) (len : BitVec 23) (k : Nat) (u : State) : Prop where
  walk : u.esm.walk = { busy := true, sp := sp, addr := addr, len := len, p := 8 + 2 * k }
  inside : 8 + 2 * k ≤ len.toNat
  inp : u.inp = s.inp
  lzd : u.lzd = s.lzd
  rep : u.rep = s.rep
  cntF : u.esm.cntF.toNat = regionCount s sp addr 0
  cntS : u.esm.cntS.toNat = regionCount s sp addr 2
  cntD : u.esm.cntD.toNat = regionCount s sp addr 4
  face : u.esm.face = faceArray s sp addr (min k (regionCount s sp addr 0))
  stick : u.esm.stick = stickArray s sp addr (min (k - regionCount s sp addr 0) (regionCount s sp addr 2))
  dpad : u.esm.dpad =
    dpadArray s sp addr (min (k - regionCount s sp addr 0 - regionCount s sp addr 2) (regionCount s sp addr 4))

section
variable {s u v : State} {sp : Sp} {addr : BitVec 32} {len : BitVec 23} {k : Nat} {stream : Stream}

theorem RecordsRead.pos (h : RecordsRead s sp addr len k u) : u.esm.walk.p = 8 + 2 * k := by rw [h.walk]

/-- The counts announce the records of the region. -/
theorem RecordsRead.records (h : RecordsRead s sp addr len k u) : esRecords u.esm = regionRecords s sp addr := by
  rw [esRecords, h.cntF, h.cntS, h.cntD]
  rfl

/-- The decode reads the bytes the region had at its start. -/
theorem RecordsRead.byte (h : RecordsRead s sp addr len k u) (i : Nat) : esByte u i = regionByte s sp addr i := by
  have hspace : u.space sp = s.space sp := by
    cases sp with
    | input => exact h.inp
    | output => exact congrArg Lzd.out h.lzd
  rw [esByte, h.walk, State.byteAt, hspace]
  rfl

/-- The next record's two bytes. -/
theorem RecordsRead.bytes (h : RecordsRead s sp addr len k u) :
    esByte u u.esm.walk.p = recordState s sp addr k ∧ esByte u (u.esm.walk.p + 1) = recordTime s sp addr k := by
  rw [h.byte, h.byte, h.pos]
  exact ⟨rfl, rfl⟩

/-- The stream of the next record, by the counts of the region. -/
theorem RecordsRead.stream_range (h : RecordsRead s sp addr len k u) (hst : esStreamAt u.esm = some stream) :
    match stream with
    | .face => k < regionCount s sp addr 0
    | .stick => regionCount s sp addr 0 ≤ k ∧ k < regionCount s sp addr 0 + regionCount s sp addr 2
    | .dpad =>
      regionCount s sp addr 0 + regionCount s sp addr 2 ≤ k ∧
        k < regionCount s sp addr 0 + regionCount s sp addr 2 + regionCount s sp addr 4 := by
  have hrange := esStreamAt_range h.pos hst
  rw [h.cntF, h.cntS, h.cntD] at hrange
  cases stream <;> exact hrange

/-- The state after the counts are read has taken no record. -/
theorem EsBegun.recordsRead (h : EsBegun sp addr len s u) (hlen : 8 ≤ len.toNat) (inp : u.inp = s.inp)
    (lzd : u.lzd = s.lzd) : RecordsRead s sp addr len 0 u where
  walk := h.walk
  inside := hlen
  inp := inp
  lzd := lzd
  rep := h.rep
  cntF := h.cntF
  cntS := h.cntS
  cntD := h.cntD
  face := by rw [h.face, Nat.zero_min]; rfl
  stick := by rw [h.stick, Nat.zero_sub, Nat.zero_min]; rfl
  dpad := by rw [h.dpad, Nat.zero_sub, Nat.zero_sub, Nat.zero_min]; rfl

/-- A record taken adds its entry to the array of its stream. -/
theorem RecordsRead.succ (h : RecordsRead s sp addr len k u) (hst : esStreamAt u.esm = some stream)
    (hin : u.esm.walk.p + 2 ≤ u.esm.walk.len.toNat) (f : EsFrame u v)
    (d : EsTaken engine stream (esByte u u.esm.walk.p) (esByte u (u.esm.walk.p + 1)) u v) :
    RecordsRead s sp addr len (k + 1) v := by
  obtain ⟨hstate, htime⟩ := h.bytes
  rw [hstate, htime] at d
  obtain ⟨dwalk, -, drep, dface, dstick, ddpad, -⟩ := d
  have hrange := h.stream_range hst
  have hinside : 8 + 2 * (k + 1) ≤ len.toNat := by
    rw [h.walk] at hin
    exact hin
  have hwalk : v.esm.walk = { busy := true, sp := sp, addr := addr, len := len, p := 8 + 2 * (k + 1) } := by
    rw [dwalk, h.walk]
    rfl
  suffices harrays : _ ∧ _ ∧ _ by
    obtain ⟨hface, hstick, hdpad⟩ := harrays
    exact ⟨hwalk, hinside, f.inp.trans h.inp, f.lzd.trans h.lzd, drep.trans h.rep, f.cntF ▸ h.cntF, f.cntS ▸ h.cntS,
      f.cntD ▸ h.cntD, hface, hstick, hdpad⟩
  cases stream with
  | face =>
    simp only [reduceCtorEq, if_true, if_false] at hrange dface dstick ddpad
    refine ⟨?_, dstick.trans (h.stick.trans (congrArg _ (by omega))),
      ddpad.trans (h.dpad.trans (congrArg _ (by omega)))⟩
    rw [dface, h.face, min_eq_left hrange.le, min_eq_left hrange, faceArray_succ, duration_eq]
    rfl
  | stick =>
    simp only [reduceCtorEq, if_true, if_false] at hrange dface dstick ddpad
    obtain ⟨j, rfl⟩ := Nat.exists_eq_add_of_le hrange.1
    have hold : min (regionCount s sp addr 0 + j - regionCount s sp addr 0) (regionCount s sp addr 2) = j := by omega
    have hnew : min (regionCount s sp addr 0 + j + 1 - regionCount s sp addr 0) (regionCount s sp addr 2) = j + 1 := by
      omega
    refine ⟨dface.trans (h.face.trans (congrArg _ (by omega))), ?_, ddpad.trans (h.dpad.trans (congrArg _ (by omega)))⟩
    rw [dstick, h.stick, hold, hnew, stickArray_succ, duration_eq, unbias_engine_eq (rawX_engine_toNat _),
      unbias_engine_eq (rawY_engine_toNat _)]
    rfl
  | dpad =>
    simp only [reduceCtorEq, if_true, if_false] at hrange dface dstick ddpad
    obtain ⟨j, rfl⟩ := Nat.exists_eq_add_of_le hrange.1
    have hold : min (regionCount s sp addr 0 + regionCount s sp addr 2 + j - regionCount s sp addr 0 -
        regionCount s sp addr 2) (regionCount s sp addr 4) = j := by omega
    have hnew : min (regionCount s sp addr 0 + regionCount s sp addr 2 + j + 1 - regionCount s sp addr 0 -
        regionCount s sp addr 2) (regionCount s sp addr 4) = j + 1 := by omega
    refine ⟨dface.trans (h.face.trans (congrArg _ (by omega))), dstick.trans (h.stick.trans (congrArg _ (by omega))),
      ?_⟩
    rw [ddpad, h.dpad, hold, hnew, dpadArray_succ, dpadDir_engine, dpadDur_engine]
    rfl

/-! ## Where a decode ends -/

/-- The next record is legal when the region's is. -/
theorem RecordsRead.legal (h : RecordsRead s sp addr len k u) (hst : esStreamAt u.esm = some stream) {n : Nat}
    (hlegal : RecordsLegalBelow s sp addr n) (hk : k < n) : RecordLegal engine stream (recordState s sp addr k) := by
  obtain ⟨hface, hstick⟩ := hlegal
  have hrange := h.stream_range hst
  cases stream with
  | face => exact hface k hk hrange
  | stick =>
    obtain ⟨hx, hy⟩ := hstick k hk hrange.1 hrange.2
    refine ⟨fun h15 => hx ?_, fun h15 => hy ?_⟩
    · rw [← rawX_engine_toNat, h15]; rfl
    · rw [← rawY_engine_toNat, h15]; rfl
  | dpad => rfl

/-- A decode does not end at a legal record inside its region. -/
theorem RecordsRead.short_of_ended (h : RecordsRead s sp addr len k u) (hst : esStreamAt u.esm = some stream)
    (hend : (esCycle engine u).esm.walk.busy = false) {n : Nat} (hlegal : RecordsLegalBelow s sp addr n) (hk : k < n) :
    len.toNat < 8 + 2 * k + 2 := by
  by_contra hin
  have hcycle := esCycle_eq engine u
  simp only [hst, h.bytes] at hcycle
  rw [h.walk, if_neg hin] at hcycle
  have htaken := ((h.legal hst hlegal hk).taken (recordTime s sp addr k) u).walk
  rw [hcycle, htaken, h.walk] at hend
  cases hend

end

/-- How a decode ends, in state `t`: refused at its start with ESM cleared (R132 steps 1 to 3), with all records taken,
or at one of them (R130). -/
inductive DecodeEnds (s : State) (sp : Sp) (addr : BitVec 32) (len : BitVec 23) (t : State) : Prop where
  | refused (hshort : (s.space sp).len < addr.toNat + len.toNat ∨ len.toNat < 8) (hesm : t.esm = {})
    (hrep : t.rep = s.rep.raised .esTrunc
      (if (s.space sp).len < addr.toNat + len.toNat then (s.space sp).len else len.toNat))
  | decoded (u : State) (hread : RecordsRead s sp addr len (regionRecords s sp addr) u) (ht : t = esSucceed u)
  | broken (u : State) (k : Nat) (stream : Stream) (hread : RecordsRead s sp addr len k u)
    (hk : k < regionRecords s sp addr) (hst : esStreamAt u.esm = some stream) (ht : t = esCycle engine u)
    (hfailed : EsFailed s t)

/-- The record loops from the state after the counts are read (R132 steps 6 to 9). -/
theorem RecordsRead.ends {s u : State} {sp : Sp} {addr : BitVec 32} {len : BitVec 23}
    (h : RecordsRead s sp addr len 0 u) : DecodeEnds s sp addr len (esLoop engine (esRecords u.esm + 1) u) := by
  obtain ⟨-, ⟨v, ⟨k, hv⟩, hwalk, -, -, hloop⟩ | ⟨v, j, stream, ⟨k, hv⟩, hwalk, hj, -, -, hst, hloop, hfailed⟩⟩ :=
    esLoop_ends engine (fun v => ∃ k, RecordsRead s sp addr len k v)
      (fun _ _ _ ⟨k, hk⟩ hst hin f d => ⟨k + 1, hk.succ hst hin f d⟩) (esRecords u.esm + 1) 0 u (by rw [h.walk]) h.pos
      (Nat.zero_le _) (Nat.lt_succ_self _) ⟨0, h⟩
  · have hp : v.esm.walk.p = 8 + 2 * esRecords u.esm := by rw [hwalk]
    rw [hv.pos, h.records] at hp
    obtain rfl : k = regionRecords s sp addr := by omega
    exact .decoded v hv hloop
  · have hp : v.esm.walk.p = 8 + 2 * j := by rw [hwalk]
    rw [hv.pos] at hp
    obtain rfl : k = j := by omega
    obtain ⟨hface, hstick, hdpad, hvalid, hended, e, he, info, hrep⟩ := hfailed
    exact .broken v k stream hv (h.records ▸ hj) hst hloop
      ⟨hface, hstick, hdpad, hvalid, hended, e, he, info, h.rep ▸ hrep⟩

/-- A region that is not inside its space, or too short for its counts, is refused. -/
theorem esDecode_refused {s : State} {sp : Sp} {addr : BitVec 32} {len : BitVec 23}
    (h : (s.space sp).len < addr.toNat + len.toNat ∨ len.toNat < 8) :
    (esDecode engine sp addr len s).esm = {} ∧
      (esDecode engine sp addr len s).rep = s.rep.raised .esTrunc
        (if (s.space sp).len < addr.toNat + len.toNat then (s.space sp).len else len.toNat) := by
  obtain ⟨-, -, -, -, -, -, hbegin⟩ := esBegin_cases sp addr len s
  have hcleared : (esBegin sp addr len s).esm = {} ∧ (esBegin sp addr len s).rep = s.rep.raised .esTrunc
      (if (s.space sp).len < addr.toNat + len.toNat then (s.space sp).len else len.toNat) := by
    by_cases hout : (s.space sp).len < addr.toNat + len.toNat
    · rwa [if_pos hout] at hbegin ⊢
    · rw [if_neg hout] at hbegin ⊢
      rwa [if_pos (h.resolve_left hout)] at hbegin
  rw [esDecode, esLoop_ended _ _ _ (by rw [hcleared.1])]
  exact hcleared

/-- All that a decode can come to. -/
theorem esDecode_ends (s : State) (sp : Sp) (addr : BitVec 32) (len : BitVec 23) :
    DecodeEnds s sp addr len (esDecode engine sp addr len s) := by
  obtain ⟨inp, -, lzd, -, -, -, hbegin⟩ := esBegin_cases sp addr len s
  by_cases hshort : (s.space sp).len < addr.toNat + len.toNat ∨ len.toNat < 8
  · obtain ⟨hesm, hrep⟩ := esDecode_refused hshort
    exact .refused hshort hesm hrep
  · obtain ⟨hout, hlen⟩ := not_or.mp hshort
    rw [if_neg hout, if_neg hlen] at hbegin
    exact (hbegin.recordsRead (Nat.le_of_not_lt hlen) inp lzd).ends

section
variable {s t : State} {sp : Sp} {addr : BitVec 32} {len : BitVec 23}

/-- A decode fails, or it has read every record of the region. -/
theorem DecodeEnds.failed_or_decoded (h : DecodeEnds s sp addr len t) :
    EsFailed s t ∨ ∃ u, RecordsRead s sp addr len (regionRecords s sp addr) u ∧ t = esSucceed u := by
  cases h with
  | refused _ hesm hrep =>
    refine .inl ⟨?_, ?_, ?_, ?_, ?_, .esTrunc, by decide, _, hrep⟩ <;> rw [hesm]
  | decoded u hread ht => exact .inr ⟨u, hread, ht⟩
  | broken _ _ _ _ _ _ _ hfailed => exact .inl hfailed

/-- A decode that leaves valid streams has read every record of the region. -/
theorem esDecode_valid (hvalid : (esDecode engine sp addr len s).esm.esValid = true) :
    ∃ u, RecordsRead s sp addr len (regionRecords s sp addr) u ∧ esDecode engine sp addr len s = esSucceed u :=
  (esDecode_ends s sp addr len).failed_or_decoded.resolve_left fun hfailed => by
    rw [hfailed.esValid] at hvalid
    cases hvalid

/-- The arrays after all records of the region. -/
theorem RecordsRead.arrays {u : State} (h : RecordsRead s sp addr len (regionRecords s sp addr) u) :
    u.esm.face = faceArray s sp addr (regionCount s sp addr 0) ∧
      u.esm.stick = stickArray s sp addr (regionCount s sp addr 2) ∧
      u.esm.dpad = dpadArray s sp addr (regionCount s sp addr 4) := by
  have hrecords : regionRecords s sp addr =
      regionCount s sp addr 0 + regionCount s sp addr 2 + regionCount s sp addr 4 := rfl
  exact ⟨h.face.trans (congrArg _ (by omega)), h.stick.trans (congrArg _ (by omega)),
    h.dpad.trans (congrArg _ (by omega))⟩

/-- The command succeeds when its loops have read every record. -/
theorem RecordsRead.succeeded {u : State} {k : Nat} (h : RecordsRead s sp addr len k u) :
    Succeeded s (esSucceed u) := by
  rw [Succeeded, esSucceed_rep, h.rep]
  exact ⟨rfl, rfl, rfl⟩

end

/-- What a decode leaves unchanged, whatever it comes to; the merger is restarted (R139). -/
theorem esDecode_frame (s : State) (sp : Sp) (addr : BitVec 32) (len : BitVec 23) :
    OnlyEsm s (esDecode engine sp addr len s) ∧ (esDecode engine sp addr len s).tl = {} ∧
      (esDecode engine sp addr len s).esm.walk = {} := by
  obtain ⟨m, r, heq, hwalk, -⟩ := esDecode_writes sp addr len s
  rw [heq]
  exact ⟨onlyEsm_of_eq rfl rfl rfl rfl rfl, rfl, hwalk⟩

/-! ## Success or one error (R130, R140) -/

/-- The code and the `STICKY` bit of each error of the decoder stand in the statement's list (R230). -/
theorem esErrors_listed {e : ErrCode} (h : e ∈ esErrors) :
    (errCode e, stickyBit e) ∈ ([(0x31, 7), (0x32, 8), (0x33, 9), (0x34, 10)] : List (BitVec 8 × Nat)) := by
  revert e
  decide

/-- Settles O30: a decode fails with one of its errors, or has read every record. -/
theorem decodeFillsOrEmptiesArrays : Obligations.DecodeFillsOrEmptiesArrays := by
  intro s sp addr len
  obtain ⟨hframe, htl, hwalk⟩ := esDecode_frame s sp addr len
  refine ⟨_, rfl, hframe, htl, hwalk, ?_⟩
  obtain hfailed | ⟨u, hread, ht⟩ := (esDecode_ends s sp addr len).failed_or_decoded
  · obtain ⟨hface, hstick, hdpad, hvalid, -, e, he, info, hrep⟩ := hfailed
    exact .inr ⟨hvalid, hface, hstick, hdpad, _, esErrors_listed he, raisedAs_einfo hrep⟩
  · rw [ht]
    exact .inl ⟨rfl, hread.succeeded⟩

/-- The first records of a legal region are legal. -/
theorem RecordsLegal.below {s : State} {sp : Sp} {addr : BitVec 32} (h : RecordsLegal s sp addr) (n : Nat) :
    RecordsLegalBelow s sp addr n :=
  ⟨fun k _ => h.1 k, fun k _ => h.2 k⟩

/-- Settles O31: a legal region that holds its records ends at none of them. -/
theorem decodeOfLegalRegionSucceeds : Obligations.DecodeOfLegalRegionSucceeds := by
  intro s sp addr len hinside hrecords hlegal
  refine ⟨_, rfl, (esDecode_frame s sp addr len).1, ?_⟩
  cases esDecode_ends s sp addr len with
  | refused hshort => omega
  | decoded u hread ht =>
    obtain ⟨hface, hstick, hdpad⟩ := hread.arrays
    rw [ht]
    exact ⟨hread.succeeded, rfl, hread.cntF, hread.cntS, hread.cntD, hface, hstick, hdpad⟩
  | broken u k stream hread hk hst ht hfailed =>
    have hend : (esCycle engine u).esm.walk.busy = false := by rw [← ht, hfailed.walk]
    have hshort := hread.short_of_ended hst hend (hlegal.below (k + 1)) (Nat.lt_succ_self k)
    omega

/-! ## Frames and neighbours (R141) -/

/-- The frames of entries listed by record number. -/
theorem totalDur_range {α : Type} {dur : α → BitVec 32} {entry : Nat → α} {frames : Nat → Nat}
    (h : ∀ j, (dur (entry j)).toNat = frames j) (n : Nat) :
    totalDur (((List.range n).map entry).map dur) = ((List.range n).map frames).sum := by
  simp only [totalDur, List.map_map, Function.comp_def, h]

theorem plainFrames_lt (s : State) (sp : Sp) (addr : BitVec 32) (k : Nat) : plainFrames s sp addr k < 2 ^ 8 :=
  BitVec.isLt _

theorem dpadFrames_lt (s : State) (sp : Sp) (addr : BitVec 32) (k : Nat) : dpadFrames s sp addr k < 2 ^ 12 := by
  have hstate := (recordState s sp addr k).isLt
  have htime := (recordTime s sp addr k).isLt
  unfold dpadFrames
  omega

theorem regionCount_lt (s : State) (sp : Sp) (addr : BitVec 32) (i : Nat) : regionCount s sp addr i < 2 ^ 16 := by
  have hhigh := (regionByte s sp addr i).isLt
  have hlow := (regionByte s sp addr (i + 1)).isLt
  unfold regionCount
  omega

/-- The frames of at most 65535 records of a byte each fit 32 bits. -/
theorem sum_plainFrames_lt {s : State} {sp : Sp} {addr : BitVec 32} {n : Nat} (hn : n < 2 ^ 16) (place : Nat → Nat) :
    ((List.range n).map fun j => plainFrames s sp addr (place j)).sum < 2 ^ 32 := by
  have hsum := List.sum_le_card_nsmul ((List.range n).map fun j => plainFrames s sp addr (place j)) (2 ^ 8)
    fun frames hmem => by
      obtain ⟨j, -, rfl⟩ := List.mem_map.mp hmem
      exact (plainFrames_lt s sp addr (place j)).le
  rw [List.length_map, List.length_range, smul_eq_mul] at hsum
  omega

/-- The frames of an array merged from records of a byte each (R141 a). -/
theorem Merges.totalDur_records {α κ : Type} {push : List α → α → List α} {key : α → κ} {dur : α → BitVec 32}
    {add : α → α → α} (h : Merges push key dur add) {s : State} {sp : Sp} {addr : BitVec 32} {entry : Nat → α}
    {place : Nat → Nat} (hentry : ∀ j, dur (entry j) = BitVec.ofNat 32 (plainFrames s sp addr (place j))) {n : Nat}
    (hn : n < 2 ^ 16) :
    totalDur ((((List.range n).map entry).foldl push []).map dur) =
      ((List.range n).map fun j => plainFrames s sp addr (place j)).sum := by
  have hframes : ∀ j, (dur (entry j)).toNat = plainFrames s sp addr (place j) := fun j => by
    have hlt := plainFrames_lt s sp addr (place j)
    rw [hentry, BitVec.toNat_ofNat, Nat.mod_eq_of_lt (by omega)]
  have hsum := totalDur_range hframes n
  rw [h.totalDur_foldl (by rw [hsum]; exact sum_plainFrames_lt hn place), hsum]

/-- Settles O32: the sums fit 32 bits, so no merge wraps. -/
theorem decodeKeepsFrames : Obligations.DecodeKeepsFrames := by
  intro s t sp addr len hexec hvalid
  obtain rfl : esDecode engine sp addr len s = t := Host.Outcome.next.inj hexec
  obtain ⟨u, hread, ht⟩ := esDecode_valid hvalid
  obtain ⟨hface, hstick, hdpad⟩ := hread.arrays
  rw [ht, esSucceed_esm]
  refine ⟨?_, ?_, ?_⟩
  · rw [hface]
    exact merges_pushFace.totalDur_records (fun _ => rfl) (regionCount_lt s sp addr 0)
  · rw [hstick]
    exact merges_pushStick.totalDur_records (fun _ => rfl) (regionCount_lt s sp addr 2)
  · rw [hdpad]
    refine totalDur_range (fun j => ?_) _
    exact Nat.mod_eq_of_lt ((dpadFrames_lt s sp addr _).trans (by decide))

/-- Settles O33: both arrays are merged from an empty one. -/
theorem decodeMergesNeighbours : Obligations.DecodeMergesNeighbours := by
  intro s t sp addr len hexec hvalid
  obtain rfl : esDecode engine sp addr len s = t := Host.Outcome.next.inj hexec
  obtain ⟨u, hread, ht⟩ := esDecode_valid hvalid
  obtain ⟨hface, hstick, -⟩ := hread.arrays
  rw [ht, esSucceed_esm]
  refine ⟨fun k a b ha hb => ?_, fun k a b ha hb => ?_⟩
  · rw [hface] at ha hb
    exact merges_pushFace.neighbours_foldl _ ha hb
  · rw [hstick] at ha hb
    exact mt StickEvent.coords_eq_iff.mpr (merges_pushStick.neighbours_foldl _ ha hb)

/-! ## A region that is too short (R132, R140) -/

/-- A turn whose record is not inside the region raises `E_ES_TRUNC(p)` (R132). -/
theorem esCycle_short {s : State} {stream : Stream} (hst : esStreamAt s.esm = some stream)
    (hshort : s.esm.walk.len.toNat < s.esm.walk.p + 2) (c : Config) :
    esCycle c s = esFail .esTrunc s.esm.walk.p s := by
  rw [esCycle_eq, hst]
  exact if_pos hshort

/-- A region that ends before the second byte of record `k`, the records before it legal, raises at that record. -/
theorem esDecode_truncated {s : State} {sp : Sp} {addr : BitVec 32} {len : BitVec 23} {k : Nat}
    (hinside : addr.toNat + len.toNat ≤ (s.space sp).len) (hk : k < regionRecords s sp addr)
    (hlo : 8 + 2 * k ≤ len.toNat) (hhi : len.toNat < 8 + 2 * k + 2) (hlegal : RecordsLegalBelow s sp addr k) :
    ∃ u, RecordsRead s sp addr len k u ∧ esDecode engine sp addr len s = esFail .esTrunc (8 + 2 * k) u := by
  cases esDecode_ends s sp addr len with
  | refused hshort => omega
  | decoded u hread => have := hread.inside; omega
  | broken u j stream hread hj hst ht hfailed =>
    have hle := hread.inside
    have hend : (esCycle engine u).esm.walk.busy = false := by rw [← ht, hfailed.walk]
    have hjk : ¬j < k := fun hlt => by
      have hshort := hread.short_of_ended hst hend hlegal hlt
      omega
    obtain rfl : j = k := by omega
    refine ⟨u, hread, ht.trans ?_⟩
    rw [esCycle_short hst (by rw [hread.walk]; exact hhi), hread.pos]

/-- Settles O34. -/
theorem decodeShortRegionRaises : Obligations.DecodeShortRegionRaises := by
  refine ⟨fun s sp addr len => ⟨fun hout => ?_, fun hinside hlen => ?_, fun k hinside hk hlo hhi hlegal => ?_⟩,
    fun s stream hbusy hst hshort => ?_⟩
  · obtain ⟨hesm, hrep⟩ := esDecode_refused (.inl hout)
    rw [if_pos hout] at hrep
    exact ⟨_, rfl, raisedAs_of_rep hrep, hesm⟩
  · obtain ⟨hesm, hrep⟩ := esDecode_refused (.inr hlen)
    rw [if_neg (Nat.not_lt.mpr hinside)] at hrep
    exact ⟨_, rfl, raisedAs_of_rep hrep, hesm⟩
  · obtain ⟨u, hread, ht⟩ := esDecode_truncated hinside hk hlo hhi hlegal
    obtain ⟨hframe, htl, -⟩ := esDecode_frame s sp addr len
    have hrep : (esDecode engine sp addr len s).rep = s.rep.raised .esTrunc (8 + 2 * k) := by
      rw [ht, esFail_rep, hread.rep]
    refine ⟨_, rfl, hframe, raisedAs_of_rep hrep, htl, ?_⟩
    rw [ht]
    exact ⟨rfl, hread.cntF, hread.cntS, hread.cntD⟩
  · have hstep := step_busy hbusy
    rw [esCycle_short hst hshort] at hstep
    exact ⟨_, hstep, (esFail_frame _ _ s).onlyEsm, raisedAs_of_rep (esFail_rep _ _ s), rfl, rfl⟩

/-! ## A decode as steps of the machine (R132) -/

/-- The record loops are as many machine steps as they take turns. -/
theorem core_run_esLoop (n : Nat) (s : State) : ∃ k, Host.Core.run core k s = .next (esLoop engine n s) := by
  induction n generalizing s with
  | zero => exact ⟨0, rfl⟩
  | succ n ih =>
    rw [esLoop]
    split
    · rename_i hbusy
      obtain ⟨k, hsteps⟩ := ih (esCycle engine s)
      exact ⟨k + 1, (core_run_succ (step_busy hbusy) k).trans hsteps⟩
    · exact ⟨0, rfl⟩

/-- Settles O38. -/
theorem decodeIsIteratedRecords : Obligations.DecodeIsIteratedRecords := by
  intro s sp addr len
  obtain ⟨k, hsteps⟩ := core_run_esLoop (esRecords (esBegin sp addr len s).esm + 1) (esBegin sp addr len s)
  exact ⟨k, _, rfl, hsteps⟩

/-! ## A decode of OUT after a failed run (R131, R269) -/

/-- A run that leaves an error leaves OUT empty (R112). -/
theorem lzRun_out_of_err {addr : BitVec 32} {len : BitVec 23} {s : State}
    (herr : (lzRun engine addr len s).rep.err ≠ 0) : (lzRun engine addr len s).lzd.out = {} := by
  obtain ⟨-, hdone | haborted⟩ := lzRun_outcome addr len s
  · exact absurd (congrArg Report.err hdone.rep) herr
  · exact haborted.out

/-- No region lies in an empty space and holds its 8 leading bytes. -/
theorem esDecode_of_empty {s : State} {sp : Sp} (h : (s.space sp).len = 0) (addr : BitVec 32) (len : BitVec 23) :
    (esDecode engine sp addr len s).esm = {} ∧
      (esDecode engine sp addr len s).rep = s.rep.raised .esTrunc 0 := by
  obtain ⟨hesm, hrep⟩ := esDecode_refused (s := s) (sp := sp) (addr := addr) (len := len) (by omega)
  refine ⟨hesm, hrep.trans (congrArg _ ?_)⟩
  split <;> omega

/-- Settles O55. -/
theorem failedRunLeavesNothingToDecode : Obligations.FailedRunLeavesNothingToDecode := by
  intro s t addr a len n hexec herr
  obtain rfl : lzRun engine addr len s = t := Host.Outcome.next.inj hexec
  obtain ⟨hesm, hrep⟩ := esDecode_of_empty (sp := .output) (congrArg Space.len (lzRun_out_of_err herr)) a n
  have hinvalid : (esDecode engine .output a n (lzRun engine addr len s)).esm.esValid = false := by rw [hesm]
  have hnext : tlNext engine (esDecode engine .output a n (lzRun engine addr len s)) = raise .tlNoStreams 0 _ :=
    if_neg (by rw [hinvalid]; decide)
  exact ⟨_, _, rfl, raisedAs_of_rep hrep, hinvalid, congrArg Host.Outcome.next hnext, raisedAs_raise .tlNoStreams 0 _⟩

end Sys2Proof.Machine
end

section
/-! PROOFS. The timeline merger (spec/43_timeline_merger.md): the answers of `TL.RESTART` and `TL.NEXT` (R151 to R155),
and the ends of a walk under both stop rules (R157, R158). -/

namespace Sys2Proof.Machine

open Sys2Proof

/-! ## What the commands answer and leave unchanged -/

/-- A command that replaces the merger and the error registers changes nothing else. -/
theorem onlyMerger_update (s : State) (m : Merger) (r : Report) : OnlyMerger s { s with tl := m, rep := r } :=
  ⟨⟨rfl, rfl, rfl, rfl, rfl, fun sp _ => by cases sp <;> rfl, rfl, rfl⟩, rfl⟩

/-- With decoded streams `TL.RESTART` puts the merger at its reset values. -/
theorem exec_tlRestart {s : State} (h : s.esm.esValid = true) :
    exec .tlRestart s = .next (succeed { s with tl := {} }) :=
  congrArg Host.Outcome.next (if_pos h)

theorem exec_tlRestart_noStreams {s : State} (h : s.esm.esValid = false) :
    exec .tlRestart s = .next (raise .tlNoStreams 0 s) :=
  congrArg Host.Outcome.next (if_neg (Bool.eq_false_iff.mp h))

theorem exec_tlNext_noStreams {s : State} (h : s.esm.esValid = false) :
    exec .tlNext s = .next (raise .tlNoStreams 0 s) :=
  congrArg Host.Outcome.next (if_neg (Bool.eq_false_iff.mp h))

/-- A command that raises `E_TL_NOSTREAMS(0)` changes nothing but the error registers. -/
theorem noStreams_answers {i : Instr} {s : State} (hexec : exec i s = .next (raise .tlNoStreams 0 s)) :
    ∃ t, exec i s = .next t ∧ RaisedAs 0x35 11 0 s t ∧ OnlyReport s t :=
  ⟨_, hexec, raisedAs_raise .tlNoStreams 0 s, onlyReport_raise .tlNoStreams 0 s⟩

/-- Settles O39: the reset values of the merger, or the one raise. -/
theorem restartRewinds : Obligations.RestartRewinds := by
  refine ⟨by decide, fun s => ⟨fun hvalid => ?_, fun hnone => noStreams_answers (exec_tlRestart_noStreams hnone)⟩⟩
  refine ⟨_, exec_tlRestart hvalid, ?_, rfl, rfl, rfl, rfl, rfl, rfl, rfl, rfl, rfl, rfl, ⟨rfl, rfl, rfl⟩,
    onlyMerger_update _ _ _⟩
  simp

/-- Settles O40. -/
theorem noStreamsRaises : Obligations.NoStreamsRaises := fun _ hnone => noStreams_answers (exec_tlNext_noStreams hnone)

/-- Settles O41: three exhausted streams are the end of the timeline under `TL_STOP = ALL`. -/
theorem nextAtEndSetsDone : Obligations.NextAtEndSetsDone := by
  intro s hvalid hF hS hD
  have hover : tlOver engine (currentFace s).isNone (currentStick s).isNone (currentDpad s).isNone = true := by
    rw [currentFace, currentStick, currentDpad, List.getElem?_eq_none hF, List.getElem?_eq_none hS,
      List.getElem?_eq_none hD]
    rfl
  refine ⟨_, exec_tlNext hvalid, ?_⟩
  rw [mergeStep_over engine s hover]
  exact ⟨⟨rfl, rfl, rfl⟩, onlyMerger_update _ _ _, rfl⟩

/-! ## One entry (R153 to R155) -/

/-- What an entry of an array still has, as a difference of numbers. -/
theorem entry_remaining {α : Type} {dur : α → BitVec 32} {arr : List α} {cur : Cursor} {e : α}
    (h : CursorSound cur (arr.map dur)) (he : arr[cur.idx.toNat]? = some e) :
    (dur e - cur.used).toNat = (dur e).toNat - cur.used.toNat :=
  (remaining_toNat h (by rw [List.getElem?_map, he]; rfl)).2

/-- Step 7 of R153 on numbers: an exhausted stream's cursor stays, another moves by `m`, to the next entry exactly when
its entry is used up. -/
def MovesBy (m : Nat) (cur cur' : Cursor) (durs : List (BitVec 32)) : Prop :=
  match durs[cur.idx.toNat]? with
  | none => cur' = cur
  | some n =>
    if cur.used.toNat + m = n.toNat then cur'.idx.toNat = cur.idx.toNat + 1 ∧ cur'.used = 0
    else cur'.idx = cur.idx ∧ cur'.used.toNat = cur.used.toNat + m

theorem movesBy_advance {α : Type} {dur : α → BitVec 32} {arr : List α} {cur : Cursor} {m : BitVec 32}
    (h : CursorSound cur (arr.map dur)) (hlen : arr.length < 2 ^ 16)
    (hm : ∀ e, arr[cur.idx.toNat]? = some e → m.toNat ≤ (dur e - cur.used).toNat) :
    MovesBy m.toNat cur (advance cur (arr[cur.idx.toNat]?.map dur) m) (arr.map dur) := by
  rw [MovesBy, ← List.getElem?_map]
  cases he : (arr.map dur)[cur.idx.toNat]? with
  | none => rfl
  | some n =>
    have hle : m.toNat ≤ (n - cur.used).toNat := forall_dur (p := fun n => m.toNat ≤ (n - cur.used).toNat) hm n he
    rw [(remaining_toNat h he).2] at hle
    exact (advance_cases h he (by rwa [List.length_map]) hle).2.2

/-- Under `TL_STOP = ALL` a stream that is not exhausted keeps the timeline from ending (R153 step 2). -/
theorem not_over_of_live {s : State} (h : s.tl.curF.idx.toNat < s.esm.face.length ∨
    s.tl.curS.idx.toNat < s.esm.stick.length ∨ s.tl.curD.idx.toNat < s.esm.dpad.length) :
    tlOver engine (currentFace s).isNone (currentStick s).isNone (currentDpad s).isNone = false := by
  show ((currentFace s).isNone && (currentStick s).isNone && (currentDpad s).isNone) = false
  rw [currentFace, currentStick, currentDpad]
  rcases h with h | h | h <;> simp [h]

/-- Settles O42: the merge step's entry, its smallest remaining count and the moves of the three cursors, on numbers. -/
theorem nextMergesOneEntry : Obligations.NextMergesOneEntry := by
  intro s hvalid hsound ⟨curF, curS, curD⟩ hsome
  obtain ⟨lenF, lenS, lenD, -, -⟩ := hsound
  have hover := not_over_of_live hsome
  obtain ⟨m, hF, hS, hD, hone, heq⟩ := mergeStep_next engine s hover
  refine ⟨_, m.toNat, exec_tlNext hvalid, ?_⟩
  rw [heq]
  refine ⟨⟨rfl, rfl, rfl⟩, onlyMerger_update _ _ _, rfl, fun e he => entry_remaining curF he ▸ hF e he,
    fun e he => entry_remaining curS he ▸ hS e he, fun e he => entry_remaining curD he ▸ hD e he, ?_,
    ?_, ?_, ?_, ?_, ?_, rfl, ?_, rfl, rfl, ?_⟩
  · rcases hone with ⟨e, he, rfl⟩ | ⟨e, he, rfl⟩ | ⟨e, he, rfl⟩
    · exact .inl ⟨e, he, entry_remaining curF he⟩
    · exact .inr (.inl ⟨e, he, entry_remaining curS he⟩)
    · exact .inr (.inr ⟨e, he, entry_remaining curD he⟩)
  · show (s.esm.face[s.tl.curF.idx.toNat]?.map FaceEvent.st).getD 0 = _
    cases s.esm.face[s.tl.curF.idx.toNat]? <;> rfl
  · show (s.esm.stick[s.tl.curS.idx.toNat]?.map StickEvent.x).getD 0 = _
    cases s.esm.stick[s.tl.curS.idx.toNat]? <;> rfl
  · show (s.esm.stick[s.tl.curS.idx.toNat]?.map StickEvent.y).getD 0 = _
    cases s.esm.stick[s.tl.curS.idx.toNat]? <;> rfl
  · show (s.esm.dpad[s.tl.curD.idx.toNat]?.map DpadEvent.dir).getD 0 = _
    cases s.esm.dpad[s.tl.curD.idx.toNat]? <;> rfl
  · intro row hrow
    simp only [List.mem_cons, List.not_mem_nil, or_false] at hrow
    obtain rfl | rfl | rfl := hrow
    · exact movesBy_advance curF (lenF.trans_lt s.esm.cntF.isLt) hF
    · exact movesBy_advance curS (lenS.trans_lt s.esm.cntS.isLt) hS
    · exact movesBy_advance curD (lenD.trans_lt s.esm.cntD.isLt) hD
  · exact congrArg (s.tl.total + ·) (BitVec.ofNat_toNat 32 m).symm
  · simp [currentFace, currentStick, currentDpad, or_assoc]

/-! ## How long a walk is at least (R157) -/

/-- `k` merge steps and one more. -/
theorem mergeSteps_succ (c : Config) (k : Nat) (s : State) :
    mergeSteps c (k + 1) s = mergeStep c (mergeSteps c k s) := by
  induction k generalizing s with
  | zero => rfl
  | succ k ih => exact ih (mergeStep c s)

@[simp] theorem mergeSteps_esm (c : Config) (k : Nat) (s : State) : (mergeSteps c k s).esm = s.esm := by
  induction k generalizing s with
  | zero => rfl
  | succ k ih => rw [mergeSteps, ih, mergeStep_esm]

/-- A step sets `TL_DONE` only where the timeline has ended. -/
theorem over_of_ended {c : Config} {s : State} (h : (mergeStep c s).tl.ended = true) :
    tlOver c (currentFace s).isNone (currentStick s).isNone (currentDpad s).isNone = true := by
  by_contra hover
  obtain ⟨m, -, -, -, -, heq⟩ := mergeStep_next c s (Bool.eq_false_iff.mpr hover)
  rw [heq] at h
  cases h

/-- The entries not yet used up of the stream that has most of them. -/
def longestLeft (s : State) : Nat :=
  max (entriesLeft s.tl.curF (faceDurs s.esm))
    (max (entriesLeft s.tl.curS (stickDurs s.esm)) (entriesLeft s.tl.curD (dpadDurs s.esm)))

/-- A cursor's move uses up at most one entry. -/
theorem entriesLeft_advance (cur : Cursor) (durs : List (BitVec 32)) (dur : Option (BitVec 32)) (m : BitVec 32) :
    entriesLeft cur durs ≤ entriesLeft (advance cur dur m) durs + 1 := by
  cases dur with
  | none => exact Nat.le_succ _
  | some n =>
    have hidx : (cur.idx + 1).toNat ≤ cur.idx.toNat + 1 := Nat.mod_le _ _
    simp only [advance, entriesLeft]
    split
    · show _ ≤ durs.length - (cur.idx + 1).toNat + 1
      omega
    · exact Nat.le_succ _

/-- A merge step uses up at most one entry of each stream. -/
theorem longestLeft_mergeStep (c : Config) (s : State) : longestLeft s ≤ longestLeft (mergeStep c s) + 1 := by
  rw [longestLeft, longestLeft, mergeStep_esm]
  cases hover : tlOver c (currentFace s).isNone (currentStick s).isNone (currentDpad s).isNone with
  | true =>
    rw [mergeStep_over c s hover]
    exact Nat.le_succ _
  | false =>
    obtain ⟨m, -, -, -, -, curF, curS, curD, -⟩ := mergeStep_moves c s hover
    have hF := entriesLeft_advance s.tl.curF (faceDurs s.esm) (faceDurs s.esm)[s.tl.curF.idx.toNat]? m
    have hS := entriesLeft_advance s.tl.curS (stickDurs s.esm) (stickDurs s.esm)[s.tl.curS.idx.toNat]? m
    have hD := entriesLeft_advance s.tl.curD (dpadDurs s.esm) (dpadDurs s.esm)[s.tl.curD.idx.toNat]? m
    rw [← curF] at hF
    rw [← curS] at hS
    rw [← curD] at hD
    omega

theorem longestLeft_mergeSteps (c : Config) (k : Nat) (s : State) :
    longestLeft s ≤ longestLeft (mergeSteps c k s) + k := by
  induction k generalizing s with
  | zero => exact Nat.le_refl _
  | succ k ih =>
    calc longestLeft s ≤ longestLeft (mergeStep c s) + 1 := longestLeft_mergeStep c s
      _ ≤ longestLeft (mergeSteps c k (mergeStep c s)) + k + 1 := Nat.succ_le_succ (ih _)

/-- Under `TL_STOP = ALL` no entry is left where the timeline has ended. -/
theorem longestLeft_of_over {s : State}
    (hover : tlOver engine (currentFace s).isNone (currentStick s).isNone (currentDpad s).isNone = true) :
    longestLeft s = 0 := by
  have hall : ((currentFace s).isNone && (currentStick s).isNone && (currentDpad s).isNone) = true := hover
  simp only [Bool.and_eq_true, Option.isNone_iff_eq_none, currentFace, currentStick, currentDpad,
    List.getElem?_eq_none_iff] at hall
  simp only [longestLeft, entriesLeft, List.length_map]
  omega

/-- The entries of a walk are at least as many as those of its longest stream. -/
theorem longestLeft_le_of_ended {k : Nat} {s : State} (h : (mergeSteps engine (k + 1) s).tl.ended = true) :
    longestLeft s ≤ k := by
  rw [mergeSteps_succ] at h
  have hleft := longestLeft_mergeSteps engine k s
  rwa [longestLeft_of_over (over_of_ended h), Nat.zero_add] at hleft

/-! ## A walk to the end of all three streams (R157, R158) -/

/-- With decoded streams `TL.NEXT` run `j` times is `j` merge steps. -/
theorem execTimes_tlNext {s : State} (h : s.esm.esValid = true) (j : Nat) :
    execTimes .tlNext j s = .next (mergeSteps engine j s) := by
  induction j generalizing s with
  | zero => rfl
  | succ j ih =>
    rw [execTimes, exec_tlNext h]
    exact ih (by rwa [mergeStep_esm])

/-- Settles O43: the walk ends, and no stream's entries can be used up in fewer steps than it has entries. -/
theorem walkTotalIsLargestSum : Obligations.WalkTotalIsLargestSum := by
  intro s hsound hstart hF hS hD
  have hfit : StreamsFit s.esm := StreamsSound.fit hsound hF hS hD
  obtain ⟨k, hmost, w⟩ := (onWalk_restart hstart).ends hfit
  have hleast := longestLeft_le_of_ended w.ended
  have lenF := hfit.faceLen
  have lenS := hfit.stickLen
  have lenD := hfit.dpadLen
  simp only [entriesAhead, longestLeft, entriesLeft, hstart, List.length_map] at hmost hleast lenF lenS lenD
  refine ⟨k, hleast, hmost, fun j hpos hj => ?_, w.ended, ?_, w.total, fun hvalid => execTimes_tlNext hvalid⟩
  · obtain ⟨j, rfl⟩ := Nat.exists_eq_succ_of_ne_zero hpos.ne'
    exact (w.entry j hj).1
  · rw [w.count, hstart]
    exact (congrArg BitVec.toNat (BitVec.zero_add _)).trans (Nat.mod_eq_of_lt (by omega))

/-! ## A walk to the end of the first stream (R158) -/

/-- A walk on which no stream was exhausted before: every cursor is at `TL_TOTAL`, and no neutral state was used. -/
structure InStep (s : State) : Prop where
  faceSound : CursorSound s.tl.curF (faceDurs s.esm)
  stickSound : CursorSound s.tl.curS (stickDurs s.esm)
  dpadSound : CursorSound s.tl.curD (dpadDurs s.esm)
  face : consumed s.tl.curF (faceDurs s.esm) = s.tl.total.toNat
  stick : consumed s.tl.curS (stickDurs s.esm) = s.tl.total.toNat
  dpad : consumed s.tl.curD (dpadDurs s.esm) = s.tl.total.toNat
  neutral : s.tl.neutral = false

theorem inStep_start {s : State} (h : s.tl = {}) : InStep s := by
  constructor
  all_goals rw [h]
  · exact cursorSound_start _
  · exact cursorSound_start _
  · exact cursorSound_start _
  all_goals rfl

theorem InStep.onWalk {s : State} (h : InStep s) : OnWalk s :=
  ⟨⟨h.faceSound, .inl h.face⟩, ⟨h.stickSound, .inl h.stick⟩, ⟨h.dpadSound, .inl h.dpad⟩, .inl h.face⟩

/-- The frames taken of a stream that is not exhausted rise by `m`, not more than its entry still has. -/
theorem consumed_advance {cur : Cursor} {durs : List (BitVec 32)} {m : BitVec 32} (h : CursorSound cur durs)
    (hlen : durs.length < 2 ^ 16) (hm : ∀ n, durs[cur.idx.toNat]? = some n → m.toNat ≤ (n - cur.used).toNat)
    (hlive : durs[cur.idx.toNat]? ≠ none) :
    consumed (advance cur durs[cur.idx.toNat]? m) durs = consumed cur durs + m.toNat := by
  obtain ⟨n, he⟩ := Option.ne_none_iff_exists'.mp hlive
  rw [he]
  exact (advance_cases h he hlen ((remaining_toNat h he).2 ▸ hm n he)).2.1

/-- Under `TL_STOP = FIRST` any exhausted stream ends the timeline (R158). -/
theorem tlOver_first {c : Config} (h : c.tlStop = .first) (exF exS exD : Bool) :
    tlOver c exF exS exD = (exF || exS || exD) := by
  rw [tlOver, h]

/-- A step that emits an entry sets `TL_NEUTRAL` exactly when some stream is exhausted (R155). -/
theorem mergeStep_neutral {c : Config} {s : State}
    (hover : tlOver c (currentFace s).isNone (currentStick s).isNone (currentDpad s).isNone = false) :
    (mergeStep c s).tl.neutral =
      (s.tl.neutral || (currentFace s).isNone || (currentStick s).isNone || (currentDpad s).isNone) := by
  obtain ⟨m, -, -, -, -, heq⟩ := mergeStep_next c s hover
  rw [heq]
  rfl

/-- An entry under `TL_STOP = FIRST`: no stream is exhausted, so the walk stays in step. -/
theorem InStep.entry {c : Config} {s : State} (hstop : c.tlStop = .first) (h : InStep s) (hfit : StreamsFit s.esm)
    (hover : tlOver c (currentFace s).isNone (currentStick s).isNone (currentDpad s).isNone = false) :
    InStep (mergeStep c s) ∧ entriesAhead (mergeStep c s) < entriesAhead s := by
  obtain ⟨hwalk, htotal, -, -, -, hlt⟩ := h.onWalk.entry hfit hover
  obtain ⟨m, hF, hS, hD, -, curF, curS, curD, -, rfl, -⟩ := mergeStep_moves c s hover
  have hneutral := mergeStep_neutral hover
  rw [tlOver_first hstop] at hover
  have hlive := hover
  simp only [Bool.or_eq_false_iff, Option.isNone_eq_false_iff] at hlive
  obtain ⟨⟨liveF, liveS⟩, liveD⟩ := hlive
  refine ⟨⟨hwalk.face.sound, hwalk.stick.sound, hwalk.dpad.sound, ?_, ?_, ?_, ?_⟩, hlt⟩
  · rw [htotal, ← h.face, curF, mergeStep_esm]
    exact consumed_advance h.faceSound hfit.faceLen hF (by simpa [currentFace] using liveF)
  · rw [htotal, ← h.stick, curS, mergeStep_esm]
    exact consumed_advance h.stickSound hfit.stickLen hS (by simpa [currentStick] using liveS)
  · rw [htotal, ← h.dpad, curD, mergeStep_esm]
    exact consumed_advance h.dpadSound hfit.dpadLen hD (by simpa [currentDpad] using liveD)
  · rw [hneutral, h.neutral, Bool.false_or, hover]

/-- Where the first stream is exhausted, `TL_TOTAL` is its sum, and no other sum is smaller. -/
theorem InStep.total_of_over {c : Config} {s : State} (hstop : c.tlStop = .first) (h : InStep s)
    (hover : tlOver c (currentFace s).isNone (currentStick s).isNone (currentDpad s).isNone = true) :
    s.tl.total.toNat =
      min (totalDur (faceDurs s.esm)) (min (totalDur (stickDurs s.esm)) (totalDur (dpadDurs s.esm))) := by
  have leF := h.face ▸ consumed_le_totalDur h.faceSound
  have leS := h.stick ▸ consumed_le_totalDur h.stickSound
  have leD := h.dpad ▸ consumed_le_totalDur h.dpadSound
  rw [tlOver_first hstop] at hover
  simp only [Bool.or_eq_true, Option.isNone_iff_eq_none] at hover
  rcases hover with (hF | hS) | hD
  · have sumF := h.face ▸ consumed_exhausted h.faceSound (by rw [List.getElem?_map]; exact congrArg _ hF)
    omega
  · have sumS := h.stick ▸ consumed_exhausted h.stickSound (by rw [List.getElem?_map]; exact congrArg _ hS)
    omega
  · have sumD := h.dpad ▸ consumed_exhausted h.dpadSound (by rw [List.getElem?_map]; exact congrArg _ hD)
    omega

/-- A walk in step ends under `TL_STOP = FIRST`: every entry uses up an entry of a stream. -/
theorem InStep.ends {c : Config} {s : State} (hstop : c.tlStop = .first) (h : InStep s) (hfit : StreamsFit s.esm) :
    ∃ k, (mergeSteps c k s).tl.ended = true ∧ (mergeSteps c k s).tl.neutral = false ∧
      (mergeSteps c k s).tl.total.toNat =
        min (totalDur (faceDurs s.esm)) (min (totalDur (stickDurs s.esm)) (totalDur (dpadDurs s.esm))) := by
  induction hn : entriesAhead s using Nat.strong_induction_on generalizing s with
  | _ n ih =>
    subst hn
    cases hover : tlOver c (currentFace s).isNone (currentStick s).isNone (currentDpad s).isNone with
    | true =>
      have hlast : mergeSteps c 1 s = _ := mergeStep_over c s hover
      have htotal := h.total_of_over hstop hover
      refine ⟨1, ?_⟩
      rw [hlast]
      exact ⟨rfl, h.neutral, htotal⟩
    | false =>
      obtain ⟨hstep, hlt⟩ := h.entry hstop hfit hover
      obtain ⟨k, hk⟩ := ih _ hlt hstep (by rwa [mergeStep_esm]) rfl
      rw [mergeStep_esm] at hk
      exact ⟨k + 1, hk⟩

/-- Settles O44: from a restart the three cursors move in step until the first stream is exhausted. -/
theorem firstStopTotalIsSmallestSum : Obligations.FirstStopTotalIsSmallestSum :=
  fun _ _ hstop hsound hstart hF hS hD => (inStep_start hstart).ends hstop (StreamsSound.fit hsound hF hS hD)

end Sys2Proof.Machine
end

section
/-! PROOFS. The time commands (spec/44_time_correction.md): the conversion of the correction is the floor of the exact
product (R171), and what `TC.CLR`, `TC.FIN` and `TC.LAP` answer (R174 to R178). -/

namespace Sys2Proof.Machine

open Sys2Proof

/-! ## The fields of a binary32 pattern (R7) -/

theorem exponent_toNat (b : BitVec 32) : (b.extractLsb' 23 8).toNat = b.toNat / 2 ^ 23 % 2 ^ 8 := by
  rw [BitVec.extractLsb'_toNat, Nat.shiftRight_eq_div_pow]

theorem exponent_eq_zero_iff (b : BitVec 32) : b.extractLsb' 23 8 = 0#8 ↔ b.toNat / 2 ^ 23 % 2 ^ 8 = 0 := by
  rw [← BitVec.toNat_inj, exponent_toNat, BitVec.toNat_ofNat, Nat.zero_mod]

theorem fraction_toNat (b : BitVec 32) : (b.extractLsb' 0 23).toNat = b.toNat % 2 ^ 23 := by
  rw [BitVec.extractLsb'_toNat, Nat.shiftRight_zero]

theorem sign_eq_one_iff (b : BitVec 32) : b.extractLsb' 31 1 = 1#1 ↔ b.getLsbD 31 = true := by
  rw [← BitVec.toNat_inj, BitVec.extractLsb'_toNat, Nat.shiftRight_eq_div_pow, ← BitVec.testBit_toNat,
    Nat.testBit_eq_decide_div_mod_eq, decide_eq_true_eq]
  rfl

theorem significand_subnormal {b : BitVec 32} (h : b.toNat / 2 ^ 23 % 2 ^ 8 = 0) : significand b = b.toNat % 2 ^ 23 := by
  rw [significand, if_pos ((exponent_eq_zero_iff b).mpr h), fraction_toNat]

theorem significand_normal {b : BitVec 32} (h : b.toNat / 2 ^ 23 % 2 ^ 8 ≠ 0) :
    significand b = 2 ^ 23 + b.toNat % 2 ^ 23 := by
  rw [significand, if_neg (mt (exponent_eq_zero_iff b).mp h), fraction_toNat]

theorem scaledExp_subnormal {b : BitVec 32} (h : b.toNat / 2 ^ 23 % 2 ^ 8 = 0) : scaledExp b = 1 := by
  rw [scaledExp, exponent_toNat, h, max_eq_left zero_le_one]

theorem scaledExp_normal {b : BitVec 32} (h : b.toNat / 2 ^ 23 % 2 ^ 8 ≠ 0) :
    scaledExp b = b.toNat / 2 ^ 23 % 2 ^ 8 := by
  rw [scaledExp, exponent_toNat, max_eq_right (Nat.one_le_iff_ne_zero.mpr h)]

/-- The exponent field of an infinity or a NaN (R171). -/
theorem isFinite_eq_false_iff {b : BitVec 32} : isFinite b = false ↔ b.toNat / 2 ^ 23 % 2 ^ 8 = 0xFF := by
  rw [Bool.eq_false_iff, ne_eq, isFinite_iff, not_not]

/-! ## The value of a pattern as an integer times a power of two (R7) -/

/-- The significand with the sign of the pattern. -/
def signedSignificand (b : BitVec 32) : Int := if b.getLsbD 31 then -(significand b : Int) else significand b

theorem signedSignificand_cast (b : BitVec 32) :
    (signedSignificand b : ℚ) = (if b.getLsbD 31 then -1 else 1) * significand b := by
  unfold signedSignificand
  split <;> push_cast <;> ring

/-- The unit in the last place of a significand with 23 fraction bits. -/
theorem two_zpow_exponent (e : ℤ) : (2 : ℚ) ^ (e - 127) = 2 ^ (e - 150) * 2 ^ 23 := by
  rw [← zpow_natCast, ← zpow_add₀ two_ne_zero]
  congr 1
  omega

/-- Subnormal and normal patterns alike: the unit of the significand is `2 ^ (scaledExp b - 150)`. -/
theorem fval_eq_signedSignificand (b : BitVec 32) :
    fval b = signedSignificand b * 2 ^ ((scaledExp b : ℤ) - 150) := by
  rw [signedSignificand_cast, fval]
  by_cases h : b.toNat / 2 ^ 23 % 2 ^ 8 = 0
  · rw [if_pos h, significand_subnormal h, scaledExp_subnormal h, show (-126 : ℤ) = (1 : ℕ) - 127 from rfl,
      two_zpow_exponent]
    ring
  · rw [if_neg h, significand_normal h, scaledExp_normal h, two_zpow_exponent]
    push_cast
    ring

/-! ## The conversion (R171) -/

theorem floorScaled_eq_signedSignificand (b : BitVec 32) (scale : Nat) :
    floorScaled b scale =
      if 150 ≤ scaledExp b then signedSignificand b * scale * 2 ^ (scaledExp b - 150)
      else signedSignificand b * scale / 2 ^ (150 - scaledExp b) := by
  have signed : (if b.extractLsb' 31 1 = 1#1 then -((significand b * scale : Nat) : Int)
      else ((significand b * scale : Nat) : Int)) = signedSignificand b * scale := by
    simp only [sign_eq_one_iff, signedSignificand, Nat.cast_mul, ite_mul, neg_mul]
  rw [floorScaled, signed]

/-- The floor of an integer scaled by a power of two: exact to the left, a floor division to the right. -/
theorem floor_mul_two_zpow_sub (n : ℤ) (e k : ℕ) :
    ⌊(n : ℚ) * 2 ^ ((e : ℤ) - k)⌋ = if k ≤ e then n * 2 ^ (e - k) else n / 2 ^ (k - e) := by
  split
  · rename_i h
    have whole : (n : ℚ) * 2 ^ ((e : ℤ) - k) = ((n * 2 ^ (e - k) : ℤ) : ℚ) := by
      rw [← Nat.cast_sub h, zpow_natCast]
      push_cast
      rfl
    rw [whole, Int.floor_intCast]
  · rename_i h
    have quotient : (n : ℚ) * 2 ^ ((e : ℤ) - k) = n / ((2 ^ (k - e) : ℕ) : ℚ) := by
      rw [← neg_sub, ← Nat.cast_sub (Nat.le_of_not_le h), zpow_neg, zpow_natCast, div_eq_mul_inv]
      push_cast
      rfl
    rw [quotient, Rat.floor_intCast_div_natCast]
    push_cast
    rfl

theorem floorScaled_eq_floor (b : BitVec 32) (scale : Nat) : floorScaled b scale = ⌊fval b * (scale : ℚ)⌋ := by
  have product : fval b * scale = ((signedSignificand b * scale : ℤ) : ℚ) * 2 ^ ((scaledExp b : ℤ) - (150 : ℕ)) := by
    rw [fval_eq_signedSignificand]
    push_cast
    ring
  rw [floorScaled_eq_signedSignificand, product, floor_mul_two_zpow_sub]

/-- Settles O45: value and conversion are the same signed significand times the same power of two. -/
theorem conversionIsFloorOfProduct : Obligations.ConversionIsFloorOfProduct :=
  fun fbits scale _ => floorScaled_eq_floor fbits scale

/-! ## The parts of the computation under the engine's configuration (R171, R175, R176) -/

theorem floorScaled_engine (fbits : BitVec 32) : floorScaled fbits engine.tcScale = ⌊fval fbits * 10 ^ 9⌋ := by
  rw [floorScaled_eq_floor, show engine.tcScale = 10 ^ 9 from rfl, Nat.cast_pow, Nat.cast_ofNat]

theorem remainder_engine (ms : BitVec 10) (d : Int) : remainder engine ms d = ms.toNat * 10 ^ 9 + d := by
  rw [remainder, Nat.cast_mul]
  rfl

/-- What a lap subtracts from `d1`: one `TC_WRAP` when it triggers (R177 P3). -/
def lapCarry (d1 : Int) : Int := if 10 ^ 9 < d1 then 10 ^ 9 else 0

theorem sub_lapCarry (d1 : Int) : d1 - lapCarry d1 = if 10 ^ 9 < d1 then d1 - 10 ^ 9 else d1 := by
  unfold lapCarry
  split <;> omega

theorem lap_eq_of_fields {l l' : Lap} (hd1 : l.d1 = l'.d1) (hd : l.d = l'.d) (hacc : l.acc = l'.acc)
    (hcy : l.cy = l'.cy) : l = l' := by
  cases l
  cases l'
  congr

/-- One lap of the engine: `ACC` is the raw delta less the carry (R178). -/
theorem lapStep_engine (raw acc : Int) (cy : Bool) :
    lapStep engine raw acc cy =
      { d1 := raw - acc, d := raw - acc - lapCarry (raw - acc), acc := raw - lapCarry (raw - acc)
        cy := if 10 ^ 9 < raw - acc then !cy else cy } := by
  obtain ⟨hd1, hlap⟩ := lapStep_eq engine raw acc cy
  simp only [carryTrigger_engine] at hlap
  unfold lapCarry
  split at hlap <;> rename_i htrig <;> obtain ⟨hd, hacc, hcy⟩ := hlap
  · simp only [if_pos htrig]
    exact lap_eq_of_fields hd1 hd hacc hcy
  · simp only [if_neg htrig, sub_zero]
    exact lap_eq_of_fields hd1 hd hacc hcy

/-- All sums of one lap of the engine fit 64 bits (R173). -/
theorem lapFits_engine_iff (ms : BitVec 10) (raw acc : Int) (cy : Bool) :
    lapFits engine ms raw acc cy = true ↔
      fits64 raw = true ∧ fits64 (raw - acc) = true ∧ fits64 (raw - acc - lapCarry (raw - acc)) = true ∧
        fits64 (raw - lapCarry (raw - acc)) = true ∧
        fits64 (ms.toNat * 10 ^ 9 + (raw - acc - lapCarry (raw - acc))) = true := by
  rw [lapFits, lapStep_engine, remainder_engine]
  simp only [Bool.and_eq_true, and_assoc]

/-- A `d1` that fits leaves an accepted delta that fits: the carry comes off a `d1` above it only. -/
theorem fits64_sub_lapCarry {d1 : Int} (h : fits64 d1 = true) : fits64 (d1 - lapCarry d1) = true := by
  rw [fits64_iff] at h ⊢
  rw [sub_lapCarry]
  split <;> omega

/-! ## What the commands answer -/

/-- A command that raises without clean-up changes nothing but the error registers. -/
theorem raise_answers {i : Instr} {s : State} {e : ErrCode} {info : Nat} (hexec : exec i s = .next (raise e info s)) :
    ∃ t, exec i s = .next t ∧ RaisedAs (errCode e) (stickyBit e) info s t ∧ OnlyReport s t :=
  ⟨_, hexec, raisedAs_raise e info s, onlyReport_raise e info s⟩

theorem exec_tcClr (s : State) : exec .tcClr s = .next (succeed { s with tca := {} }) := rfl

/-- Settles O46. -/
theorem clearZeroesCorrector : Obligations.ClearZeroesCorrector :=
  ⟨by decide, fun s => ⟨_, exec_tcClr s, rfl, rfl, rfl, rfl, rfl, rfl, rfl, rfl, rfl, ⟨rfl, rfl, rfl⟩,
    onlyTca_update _ _ _⟩⟩

/-- The state after a successful `TC.FIN` with the given raw delta (R175). -/
def finished (min sec : BitVec 7) (ms : BitVec 10) (raw : Int) (s : State) : State :=
  succeed
    { s with
      tca :=
        { s.tca with
          tMin := min, tSec := sec, tDelta := BitVec.ofInt 64 raw, tRem := BitVec.ofInt 64 (ms.toNat * 10 ^ 9 + raw)
          rangeRem := rangeRemFlag engine (ms.toNat * 10 ^ 9 + raw), rangeDelta := false } }

/-- The state after a successful `TC.LAP` with the given raw delta (R176, R178). -/
def lapped (min sec : BitVec 7) (ms : BitVec 10) (raw : Int) (s : State) : State :=
  let d1 := raw - s.tca.acc.toInt
  let d := d1 - lapCarry d1
  succeed
    { s with
      tca :=
        { tMin := min, tSec := sec, tRem := BitVec.ofInt 64 (ms.toNat * 10 ^ 9 + d), tDelta := BitVec.ofInt 64 d
          acc := BitVec.ofInt 64 (raw - lapCarry d1), cy := if 10 ^ 9 < d1 then !s.tca.cy else s.tca.cy
          rangeRem := rangeRemFlag engine (ms.toNat * 10 ^ 9 + d), rangeDelta := rangeDeltaFlag engine d } }

/-- `TC.FIN`: the three outcomes, with the rational reference for the raw delta (R171, R173, R175). -/
theorem exec_tcFin_cases (min sec : BitVec 7) (ms : BitVec 10) (fbits : BitVec 32) (s : State) :
    (isFinite fbits = false ∧ exec (.tcFin min sec ms fbits) s = .next (raise .tcNonFinite fbits.toNat s)) ∨
      (isFinite fbits = true ∧
        ¬(fits64 ⌊fval fbits * 10 ^ 9⌋ = true ∧ fits64 (ms.toNat * 10 ^ 9 + ⌊fval fbits * 10 ^ 9⌋) = true) ∧
        exec (.tcFin min sec ms fbits) s = .next (raise .tcOverflow fbits.toNat s)) ∨
      (isFinite fbits = true ∧ fits64 ⌊fval fbits * 10 ^ 9⌋ = true ∧
        fits64 (ms.toNat * 10 ^ 9 + ⌊fval fbits * 10 ^ 9⌋) = true ∧
        exec (.tcFin min sec ms fbits) s = .next (finished min sec ms ⌊fval fbits * 10 ^ 9⌋ s)) := by
  have h := tcFinish_cases engine min sec ms fbits s
  rw [remainder_engine, floorScaled_engine] at h
  exact h.imp (.imp_right (congrArg Host.Outcome.next)) (.imp (.imp_right (.imp_right (congrArg Host.Outcome.next)))
    (.imp_right (.imp_right (.imp_right (congrArg Host.Outcome.next)))))

/-- `TC.LAP`: the three outcomes, with the rational reference for the raw delta (R171, R173, R176). -/
theorem exec_tcLap_cases (min sec : BitVec 7) (ms : BitVec 10) (fbits : BitVec 32) (s : State) :
    (isFinite fbits = false ∧ exec (.tcLap min sec ms fbits) s = .next (raise .tcNonFinite fbits.toNat s)) ∨
      (isFinite fbits = true ∧ lapFits engine ms ⌊fval fbits * 10 ^ 9⌋ s.tca.acc.toInt s.tca.cy = false ∧
        exec (.tcLap min sec ms fbits) s = .next (raise .tcOverflow fbits.toNat s)) ∨
      (isFinite fbits = true ∧ lapFits engine ms ⌊fval fbits * 10 ^ 9⌋ s.tca.acc.toInt s.tca.cy = true ∧
        exec (.tcLap min sec ms fbits) s = .next (lapped min sec ms ⌊fval fbits * 10 ^ 9⌋ s)) := by
  have h := tcLapOp_cases engine min sec ms fbits s
  simp only [lapStep_engine, remainder_engine, floorScaled_engine] at h
  exact h.imp (.imp_right (congrArg Host.Outcome.next)) (.imp (.imp_right (.imp_right (congrArg Host.Outcome.next)))
    (.imp_right (.imp_right (congrArg Host.Outcome.next))))

/-! ## `TC.FIN` (R175) -/

/-- Settles O47: a finite correction whose sums fit leaves the third outcome alone. -/
theorem finishAddsCorrection : Obligations.FinishAddsCorrection := by
  rintro s min sec ms fbits _ hfin rfl hrawlo hrawhi hremlo hremhi
  have hraw := (fits64_iff _).mpr ⟨hrawlo, hrawhi⟩
  have hrem := (fits64_iff _).mpr ⟨hremlo, hremhi⟩
  obtain ⟨hinf, -⟩ | ⟨-, hover, -⟩ | ⟨-, -, -, hexec⟩ := exec_tcFin_cases min sec ms fbits s
  · exact absurd (isFinite_eq_false_iff.mp hinf) hfin
  · exact absurd ⟨hraw, hrem⟩ hover
  · exact ⟨_, hexec, rfl, rfl, ofInt64_toInt hraw, ofInt64_toInt hrem, rangeRemFlag_engine _, rfl, rfl, rfl,
      ⟨rfl, rfl, rfl⟩, onlyTca_update _ _ _⟩

/-! ## `TC.LAP` (R176, R178) -/

/-- The values a lap stores are the sums themselves when they fit (R173). -/
theorem lapped_toInt {min sec : BitVec 7} {ms : BitVec 10} {raw : Int} {s : State}
    (hfits : lapFits engine ms raw s.tca.acc.toInt s.tca.cy = true) :
    (lapped min sec ms raw s).tca.tDelta.toInt = raw - s.tca.acc.toInt - lapCarry (raw - s.tca.acc.toInt) ∧
      (lapped min sec ms raw s).tca.acc.toInt = raw - lapCarry (raw - s.tca.acc.toInt) ∧
      (lapped min sec ms raw s).tca.tRem.toInt =
        ms.toNat * 10 ^ 9 + (raw - s.tca.acc.toInt - lapCarry (raw - s.tca.acc.toInt)) := by
  obtain ⟨-, -, hd, hacc, hrem⟩ := (lapFits_engine_iff _ _ _ _).mp hfits
  exact ⟨ofInt64_toInt hd, ofInt64_toInt hacc, ofInt64_toInt hrem⟩

/-- Settles O48: as for `TC.FIN`; that the accepted delta fits follows from `d1`. -/
theorem lapAcceptsDelta : Obligations.LapAcceptsDelta := by
  rintro s min sec ms fbits _ _ d hfin rfl rfl hd hrawlo hrawhi hd1lo hd1hi hacclo hacchi hremlo hremhi
  obtain rfl := hd.trans (sub_lapCarry _).symm
  have hd1 := (fits64_iff _).mpr ⟨hd1lo, hd1hi⟩
  have hsum : s.tca.acc.toInt + (⌊fval fbits * 10 ^ 9⌋ - s.tca.acc.toInt) = ⌊fval fbits * 10 ^ 9⌋ :=
    add_sub_cancel _ _
  have hfits : lapFits engine ms ⌊fval fbits * 10 ^ 9⌋ s.tca.acc.toInt s.tca.cy = true := by
    rw [← add_sub_assoc, hsum] at hacclo hacchi
    exact (lapFits_engine_iff _ _ _ _).mpr ⟨(fits64_iff _).mpr ⟨hrawlo, hrawhi⟩, hd1, fits64_sub_lapCarry hd1,
      (fits64_iff _).mpr ⟨hacclo, hacchi⟩, (fits64_iff _).mpr ⟨hremlo, hremhi⟩⟩
  obtain ⟨hinf, -⟩ | ⟨-, hover, -⟩ | ⟨-, -, hexec⟩ := exec_tcLap_cases min sec ms fbits s
  · exact absurd (isFinite_eq_false_iff.mp hinf) hfin
  · exact absurd hfits (Bool.eq_false_iff.mp hover)
  · obtain ⟨hdelta, hacc, hrem⟩ := lapped_toInt (min := min) (sec := sec) hfits
    exact ⟨_, hexec, rfl, rfl, hdelta, by rw [hacc, ← add_sub_assoc, hsum], hrem, rfl, rangeRemFlag_engine _,
      rangeDeltaFlag_engine _, ⟨rfl, rfl, rfl⟩, onlyTca_update _ _ _⟩

/-- A raise is not answered with `ERR = 0x00`. -/
theorem raise_err_ne_zero (e : ErrCode) (info : Nat) (s : State) : (raise e info s).rep.err ≠ 0 := by
  have code : errCode e ≠ 0 := by cases e <;> decide
  exact code

/-- A `TC.LAP` that leaves `ERR = 0x00` is one whose sums all fit (R173). -/
theorem eq_lapped_of_err_zero {s t : State} {min sec : BitVec 7} {ms : BitVec 10} {fbits : BitVec 32}
    (hexec : exec (.tcLap min sec ms fbits) s = .next t) (herr : t.rep.err = 0) :
    lapFits engine ms ⌊fval fbits * 10 ^ 9⌋ s.tca.acc.toInt s.tca.cy = true ∧
      t = lapped min sec ms ⌊fval fbits * 10 ^ 9⌋ s := by
  obtain ⟨-, h⟩ | ⟨-, -, h⟩ | ⟨-, hfits, h⟩ := exec_tcLap_cases min sec ms fbits s <;>
    obtain rfl := Host.Outcome.next.inj (hexec.symm.trans h)
  · exact absurd herr (raise_err_ne_zero _ _ _)
  · exact absurd herr (raise_err_ne_zero _ _ _)
  · exact ⟨hfits, rfl⟩

/-- Settles O49: success is the third outcome of `TC.LAP`. -/
theorem accumulatorClosedForm : Obligations.AccumulatorClosedForm := by
  intro s t min sec ms fbits hexec herr
  obtain ⟨hfits, rfl⟩ := eq_lapped_of_err_zero hexec herr
  obtain ⟨-, hacc, -⟩ := lapped_toInt (min := min) (sec := sec) hfits
  refine ⟨hacc, ?_⟩
  have hcy : (lapped min sec ms ⌊fval fbits * 10 ^ 9⌋ s).tca.cy =
      if 10 ^ 9 < ⌊fval fbits * 10 ^ 9⌋ - s.tca.acc.toInt then !s.tca.cy else s.tca.cy := rfl
  rw [hcy]
  split
  · rename_i htrig
    exact iff_of_true (Bool.not_ne_self _) htrig
  · rename_i hquiet
    exact iff_of_false (not_not.mpr rfl) hquiet

/-! ## The errors of both (R171, R173, R237) -/

theorem exec_tcFin_nonFinite {fbits : BitVec 32} (hinf : isFinite fbits = false) (min sec : BitVec 7) (ms : BitVec 10)
    (s : State) : exec (.tcFin min sec ms fbits) s = .next (raise .tcNonFinite fbits.toNat s) :=
  ((exec_tcFin_cases min sec ms fbits s).resolve_right fun hfin => by simp [hinf] at hfin).2

theorem exec_tcLap_nonFinite {fbits : BitVec 32} (hinf : isFinite fbits = false) (min sec : BitVec 7) (ms : BitVec 10)
    (s : State) : exec (.tcLap min sec ms fbits) s = .next (raise .tcNonFinite fbits.toNat s) :=
  ((exec_tcLap_cases min sec ms fbits s).resolve_right fun hfin => by simp [hinf] at hfin).2

theorem exec_tcFin_overflow {fbits : BitVec 32} {ms : BitVec 10} (hfin : fbits.toNat / 2 ^ 23 % 2 ^ 8 ≠ 0xFF)
    (hover : ¬(fits64 ⌊fval fbits * 10 ^ 9⌋ = true ∧ fits64 (ms.toNat * 10 ^ 9 + ⌊fval fbits * 10 ^ 9⌋) = true))
    (min sec : BitVec 7) (s : State) :
    exec (.tcFin min sec ms fbits) s = .next (raise .tcOverflow fbits.toNat s) := by
  obtain ⟨hinf, -⟩ | ⟨-, -, hexec⟩ | ⟨-, hraw, hrem, -⟩ := exec_tcFin_cases min sec ms fbits s
  · exact absurd (isFinite_eq_false_iff.mp hinf) hfin
  · exact hexec
  · exact absurd ⟨hraw, hrem⟩ hover

theorem exec_tcLap_overflow {fbits : BitVec 32} {ms : BitVec 10} {s : State}
    (hfin : fbits.toNat / 2 ^ 23 % 2 ^ 8 ≠ 0xFF)
    (hover : ¬lapFits engine ms ⌊fval fbits * 10 ^ 9⌋ s.tca.acc.toInt s.tca.cy = true) (min sec : BitVec 7) :
    exec (.tcLap min sec ms fbits) s = .next (raise .tcOverflow fbits.toNat s) := by
  obtain ⟨hinf, -⟩ | ⟨-, -, hexec⟩ | ⟨-, hfits, -⟩ := exec_tcLap_cases min sec ms fbits s
  · exact absurd (isFinite_eq_false_iff.mp hinf) hfin
  · exact hexec
  · exact absurd hfits hover

/-- Settles O50: an exponent field of ones, then a sum that does not fit. -/
theorem correctionErrorsChangeNothing : Obligations.CorrectionErrorsChangeNothing := by
  intro s min sec ms fbits
  refine ⟨fun hinf => ?_, fun hfin => ⟨fun hsum => ?_, fun hsum => ?_⟩⟩
  · have hfinite := isFinite_eq_false_iff.mpr hinf
    exact ⟨raise_answers (exec_tcFin_nonFinite hfinite min sec ms s),
      raise_answers (exec_tcLap_nonFinite hfinite min sec ms s)⟩
  · refine raise_answers (exec_tcFin_overflow hfin (fun ⟨hraw, hrem⟩ => ?_) min sec s)
    rw [fits64_iff] at hraw hrem
    omega
  · refine raise_answers (exec_tcLap_overflow hfin (fun hfits => ?_) min sec)
    obtain ⟨hraw, hd1, -, -, hrem⟩ := (lapFits_engine_iff _ _ _ _).mp hfits
    rw [fits64_iff] at hraw hd1 hrem
    rw [lapCarry] at hrem
    omega

end Sys2Proof.Machine
end

section
/-! PROOFS. The common commands (spec/45_system_commands.md): what `SYS.NOP` and `SYS.RESET` encode as and answer
(R190, R191, R261). -/

namespace Sys2Proof.Machine

open Sys2Proof

/-! ## `SYS.NOP` (R190) -/

theorem exec_sysNop (s : State) : exec .sysNop s = .next (succeed s) := rfl

/-- Success clears `ERR` and keeps `EINFO` and `STICKY` (R231). -/
theorem succeeded_succeed (s : State) : Succeeded s (succeed s) := ⟨rfl, rfl, rfl⟩

theorem byteAt_succeed (s : State) (sp : Sp) (a : Nat) : (succeed s).byteAt sp a = s.byteAt sp a := by
  cases sp with
  | input => rw [State.byteAt, State.byteAt, space_input, space_input, succeed_inp]
  | output => rw [State.byteAt, State.byteAt, space_output, space_output, succeed_lzd]

/-- Success by itself changes the error registers alone. -/
theorem onlyReport_succeed (s : State) : OnlyReport s (succeed s) :=
  ⟨succeed_inp s, succeed_bfx s, succeed_lzd s, succeed_esm s, succeed_tl s, succeed_tca s, succeed_host s,
    byteAt_succeed s, rfl, rfl⟩

/-- Settles O12: `SYS.NOP` is the success of a command that does nothing else. -/
theorem nopClearsErrOnly : Obligations.NopClearsErrOnly :=
  ⟨by decide, fun s => ⟨_, exec_sysNop s, succeeded_succeed s, onlyReport_succeed s⟩⟩

/-! ## `SYS.RESET` (R191, R261) -/

/-- The reset state already has `ERR = 0x00`, so the end of the command adds nothing to it. -/
theorem softReset_eq (s : State) : softReset s = { State.reset with inp := s.inp, host := s.host } := rfl

theorem exec_sysReset (s : State) : exec .sysReset s = .next (softReset s) := rfl

theorem byteAt_input_softReset (s : State) (a : Nat) : (softReset s).byteAt .input a = s.byteAt .input a := by
  rw [State.byteAt, State.byteAt, space_input, space_input, softReset_inp]

/-- Every flag of `STATUS` is clear at reset, `LZ_ST` is `IDLE` and `WN` is 0 (R16, R260). -/
theorem statusWord_reset : State.reset.statusWord = 0 := by decide

/-- `STATUS` shows neither IN nor the host's side (R16), the two things a soft reset keeps. -/
theorem statusWord_softReset (s : State) : (softReset s).statusWord = 0 := by
  have hsame : (softReset s).statusWord = State.reset.statusWord := rfl
  rw [hsame, statusWord_reset]

/-- Settles O13: the answer is the soft reset, whose fields are those of the reset state but for IN and the host. -/
theorem softResetKeepsInput : Obligations.SoftResetKeepsInput :=
  ⟨by decide, fun s => ⟨_, exec_sysReset s, softReset_eq s, byteAt_input_softReset s, rfl, rfl, rfl,
    statusWord_softReset s⟩⟩

end Sys2Proof.Machine
end

section
/-! PROOFS. Exceptions (spec/60_exceptions.md): a command makes of the error registers a success or one raise (R231), and
what it raises is a row of the table of R230. -/

namespace Sys2Proof.Machine

open Sys2Proof

/-! ## What a report comes to in the terms of the error table (R230 to R232) -/

theorem succeeded_of_rep {s t : State} (h : t.rep = { s.rep with err := 0x00 }) : Succeeded s t := by
  rw [Succeeded, h]
  exact ⟨rfl, rfl, rfl⟩

/-- A raise sets `ERR` to the code of its row of the table and adds the row's bit to `STICKY`. -/
theorem listed_of_rep {e : ErrCode} {info : Nat} {s t : State} (h : t.rep = s.rep.raised e info) :
    ∃ row ∈ errorTable, t.rep.err = row.1 ∧ t.rep.sticky = s.rep.sticky ||| (1#16 <<< row.2) := by
  obtain ⟨herr, -, hsticky⟩ := raisedAs_of_rep h
  exact ⟨_, errorTable_mem e, herr, hsticky⟩

/-! ## The report of every command (R231) -/

/-- `SYS.RESET` alone writes more of the error registers than one report does: it clears `EINFO` and `STICKY`. -/
theorem exec_reported {i : Instr} {s t : State} (hkind : i.kind = .command) (hreset : i ≠ .sysReset)
    (hexec : exec i s = .next t) : Reported s.rep t.rep := by
  cases i with
  | sysReset => exact absurd rfl hreset
  | sysNop | tcClr => cases hexec; exact .inl rfl
  | bfBit d | bfByte d | bfWord d | bfShl d | bfShr d => cases hexec; exact .inl rfl
  | bfField lo wid => cases hexec; exact .inl rfl
  | bfLoad sp n addr =>
    cases hexec
    obtain ⟨w, wn, r, heq, -, hr⟩ := bfLoad_writes sp n addr s
    rwa [heq]
  | lzRun addr len =>
    cases hexec
    obtain ⟨z, r, heq, -, -, -, hr⟩ := lzRun_writes addr len s
    rwa [heq]
  | esDecode sp addr len =>
    cases hexec
    obtain ⟨m, r, heq, -, -, hr⟩ := esDecode_writes sp addr len s
    rwa [heq]
  | tlRestart =>
    cases hexec
    obtain ⟨m, r, heq, -, hr⟩ := tlRestart_writes s
    rwa [heq]
  | tlNext =>
    cases hexec
    obtain ⟨m, r, heq, -, hr⟩ := tlNext_writes engine s
    rwa [heq]
  | tcFin min sec ms fbits =>
    cases hexec
    obtain ⟨a, r, heq, -, -, -, hr⟩ := tcFinish_writes min sec ms fbits s
    rwa [heq]
  | tcLap min sec ms fbits =>
    cases hexec
    obtain ⟨a, r, heq, -, hr⟩ := tcLapOp_writes min sec ms fbits s
    rwa [heq]
  | lzLit | lzRef | lzRefx | evFace | evStick | evDpad => cases hkind

/-- Settles O52: a command's report is a success or one raise, and every error raised is a row of the table. -/
theorem commandsReportByTable : Obligations.CommandsReportByTable := by
  intro i s t hkind hreset hexec
  obtain hok | ⟨e, info, hraised⟩ := exec_reported hkind hreset hexec
  · exact .inl (succeeded_of_rep hok)
  · exact .inr (listed_of_rep hraised)

end Sys2Proof.Machine
end

section
/-! PROOFS. Hardware reset (spec/70_reset_and_hazards.md R260): every unit is at its power-on value, both spaces are
empty, and the state is one that the invariants of `StepKeepsSound` can start from. -/

namespace Sys2Proof.Machine

open Sys2Proof

/-! ## The units after reset -/

@[simp] theorem reset_inp : State.reset.inp = {} := rfl
@[simp] theorem reset_bfx : State.reset.bfx = {} := rfl
@[simp] theorem reset_lzd : State.reset.lzd = {} := rfl
@[simp] theorem reset_esm : State.reset.esm = {} := rfl
@[simp] theorem reset_tl : State.reset.tl = {} := rfl
@[simp] theorem reset_tca : State.reset.tca = {} := rfl
@[simp] theorem reset_rep : State.reset.rep = {} := rfl

/-! ## The views after reset -/

/-- `LZ_USED` is the distance of two cursors that both stand at 0 (R17). -/
@[simp] theorem lzUsed_reset : State.reset.lzUsed = 0 := rfl

@[simp] theorem space_reset (sp : Sp) : State.reset.space sp = {} := by
  cases sp with
  | input => rw [space_input, reset_inp]
  | output => rw [space_output, reset_lzd]

/-- No byte is listed in an empty space, so none is observable in IN or OUT. -/
@[simp] theorem byteAt_reset (sp : Sp) (a : Nat) : State.reset.byteAt sp a = 0 := by
  rw [State.byteAt, space_reset, read_empty, blankByte]

/-! ## The obligations -/

/-- Settles O14: each register is a field of a unit at its power-on value; the views have lemmas of their own. -/
theorem resetValues : Obligations.ResetValues := by
  simp [Obligations.ResetValues, statusWord_reset]

/-- After reset LZD is in state `IDLE` and no decode is in progress (R17, R26). -/
theorem settled_reset : Settled State.reset := ⟨.inl rfl, rfl⟩

/-- Settles O58: with O57, the start of the induction over the steps of the engine. -/
theorem resetIsSound : Obligations.ResetIsSound := ⟨settled_reset, sound_reset⟩

end Sys2Proof.Machine
end
